-- ==== Sys2Proof/Word.lean ====
section
/-! DEFINITION. The words the block moves and the numbers it is addressed with. -/

namespace Sys2Proof

/-- One byte of the live buffer or of a shadow (20_memory.md R71). -/
abbrev Byte := BitVec 8

/-- The 32-bit word of the register ports and of a burst (92_eei_decisions.md D47). -/
abbrev Word := BitVec 32

/-- A device ID, 0..511 (00_scope.md R6). -/
abbrev DevId := BitVec 9

/-- A module slot, 0..3; the smaller number has the higher priority (10_state.md R22). -/
abbrev Slot := Fin 4

/-- A sub-register index of the Registry register port, 0..127 (30_encoding.md R100). -/
abbrev RegIdx := BitVec 7

/-- The opaque origin label of a memory-port access, its characters in order; the empty list is the
empty tag (30_encoding.md R91, R124). -/
abbrev Tag := List Char

end Sys2Proof
end

