-- ==== Sys2Proof/Machine/Layout.lean ====
section
/-! DEFINITION. The layout record (00_scope.md R13): where each field of a packed register and of an address
stands. No other definition holds a bit position of one (notes/assumptions/11.md). -/

namespace Sys2Proof

/-- Where a field of n bits stands in a word: the position of each of its bits, bit 0 first. -/
abbrev Bits (n : Nat) := Fin n → Nat

/-- The field in consecutive bits from k up. -/
def Bits.run {n : Nat} (k : Nat) : Bits n := fun i => k + i.val

/-- The field at p of a word whose bit j is `f j` (00_scope.md R14). -/
def gather {n : Nat} (p : Bits n) (f : Nat → Bool) : BitVec n :=
  match n, p with
  | 0, _ => 0#0
  | k + 1, p => BitVec.cons (f (p (Fin.last k))) (gather (fun i => p i.castSucc) f)

/-- A 32-bit word with flag b at bit k and zeros elsewhere. -/
def placeBit (b : Bool) (k : Nat) : Word := (BitVec.ofBool b).setWidth 32 <<< k

/-- A 32-bit word with the value v in the field at p and zeros elsewhere (30_encoding.md section 3). -/
def scatter {n : Nat} (p : Bits n) (v : BitVec n) : Word :=
  match n, p, v with
  | 0, _, _ => 0#32
  | k + 1, p, v => scatter (fun i => p i.castSucc) (v.setWidth k) ||| placeBit (v.getLsbD k) (p (Fin.last k))

/-- The layout of every packed register and of every address (R13). The widths are those of the state
(10_state.md); the two layout parameters without a value, CC_XOR and REFROW_MASK, stand with the other OPEN
parameters in the record this one is a field of, `Config`. -/
structure Layout where
  /-- `bc` of a Registry register address (30_encoding.md R100). -/
  addrBc : Nat
  /-- `id` (R100). -/
  addrId : Bits 9
  /-- `upper` (R100). -/
  addrUpper : Nat
  /-- `idx` (R100). -/
  addrIdx : Bits 7
  /-- `ridx` of an RI address (R112). -/
  addrRidx : Bits 3
  /-- `MemId` of a memory-port address (R121). -/
  addrMemId : Bits 9
  /-- `Bank` (R121). -/
  addrBank : Bits 9
  /-- `RowSel`: the bit this far above log2(CAP_MIB) (R121). -/
  addrRowSel : Nat
  /-- `RowVal` (R121). -/
  addrRowVal : Bits 9
  /-- Device-identity register: the scattered identity field (R103). -/
  identity : Bits 9
  /-- Delay register (R105). -/
  dlyAckWin : Bits 3
  dlyRead : Bits 3
  dlyAck : Bits 3
  dlyWrite : Bits 3
  /-- Mode register: the three flags and the scattered calibration field (R106). -/
  ce : Nat
  x2 : Nat
  de : Nat
  cc : Bits 6
  /-- Timing register (R109). -/
  rasPrecharge : Bits 5
  rasSense : Bits 5
  rasImpRestore : Bits 5
  rasExpRestore : Bits 5
  /-- Address-swap register (R111). -/
  swap : Bits 9
  /-- Both sensed-row latches (R111). -/
  row : Bits 9
  /-- RI mode (R113). -/
  opMode : Bits 2
  stopT : Nat
  stopR : Nat
  /-- RI config (R114). -/
  ccIn : Bits 6
  ccEn : Nat
  /-- RI select (R116). -/
  rsel : Bits 4
  tsel : Bits 4
  /-- RI refresh (R117). -/
  refCleanDelay : Bits 8
  refDirtyDelay : Bits 8
  refBank : Nat
  refEnable : Nat
  refOptimize : Nat
  refMultibank : Bits 4
  /-- RI latency (R118). -/
  latency : Bits 4
  /-- RI error (R119). -/
  nackErr : Nat
  ackErr : Nat
  overErr : Nat
  /-- RI bank-status (R120). -/
  bankValid : Bits 8
  bankDirty : Bits 8

/-- The layout that 30_encoding.md gives (R100 to R121). -/
def specLayout : Layout where
  addrBc := 19
  addrId := .run 10
  addrUpper := 9
  addrIdx := .run 2
  addrRidx := .run 2
  addrMemId := .run 20
  addrBank := .run 20
  addrRowSel := 19
  addrRowVal := .run 11
  identity := fun i => #v[26, 27, 28, 29, 30, 31, 23, 8, 9][i]
  dlyAckWin := .run 27
  dlyRead := .run 19
  dlyAck := .run 11
  dlyWrite := .run 3
  ce := 31
  x2 := 30
  de := 25
  cc := fun i => #v[6, 14, 22, 7, 15, 23][i]
  rasPrecharge := .run 24
  rasSense := .run 16
  rasImpRestore := .run 8
  rasExpRestore := .run 0
  swap := .run 0
  row := .run 0
  opMode := .run 0
  stopT := 2
  stopR := 3
  ccIn := .run 0
  ccEn := 6
  rsel := .run 0
  tsel := .run 4
  refCleanDelay := .run 0
  refDirtyDelay := .run 8
  refBank := 16
  refEnable := 17
  refOptimize := 18
  refMultibank := .run 19
  latency := .run 0
  nackErr := 0
  ackErr := 1
  overErr := 2
  bankValid := .run 0
  bankDirty := .run 8

end Sys2Proof
end

