-- ==== Sys2Proof/Config.lean ====
section
/-! DEFINITION. The fixed sizes and the parameters of the implementation (00_scope.md R6 to R11, R13). -/

namespace Sys2Proof

/-- Bytes of the live buffer, 64 MiB (R6). -/
def liveBytes : Nat := 0x4000000

/-- Bytes of one device-ID slot, 1 MiB (R6). -/
def idSlotBytes : Nat := 0x100000

/-- Device IDs below this are visible in the live buffer (R6). -/
def windowIds : Nat := 64

/-- Tracked banks (R6). -/
def trackedBanks : Nat := 8

/-- The memory-port space ends here: 512 IDs of 1 MiB (20_memory.md R61). -/
def memSpaceBytes : Nat := 0x20000000

/-- The OPEN parameters of 00_scope.md R7 to R11 and of the layouts R106 and R108. -/
structure Params where
  /-- log2 of CAP_MIB: the capacity is a power of two from 1 to 64 MiB (R8). -/
  capLog : Fin 7
  /-- EXPANSION_PRESENT as the platform holds it at power-on (R7). -/
  expansion : Bool
  /-- DEVICE_TYPE_CONST (R9). -/
  deviceType : Word
  /-- MIN_INTERVAL_CONST (R9). -/
  minInterval : Word
  /-- MANUFACTURER_CONST (R9). -/
  manufacturer : Word
  /-- AutoCal, total on 6-bit values, of natural value (R10). -/
  autoCal : BitVec 6 → Nat
  /-- CC_WIN_LO, inclusive (R10). -/
  ccWinLo : Fin 64
  /-- CC_WIN_HI, inclusive (R10). -/
  ccWinHi : Fin 64
  /-- BANK_DIRTY_CLEAR (R11). -/
  bankDirtyClear : BitVec 8
  /-- REFROW_MASK (30_encoding.md R108). -/
  refRowMask : Word
  /-- CC_XOR (30_encoding.md R106). -/
  ccXor : BitVec 6
deriving Inhabited

/-- The configuration: the OPEN parameters and the layout record (R13). Every shared operation of the machine
takes it as an argument, so another layout changes no semantic rule; the machine runs with `Config.impl`. -/
structure Config extends Params where
  /-- Where the fields of the packed registers and of the addresses stand (30_encoding.md). -/
  layout : Layout

/-- CAP_MIB (R8). -/
def Config.capMib (c : Config) : Nat := 2 ^ c.capLog.val

/-- CAP_BYTES (R8). -/
def Config.capBytes (c : Config) : Nat := c.capMib * idSlotBytes

/-- ID_MASK = 0x1FF AND NOT (CAP_MIB - 1) (R8). -/
def Config.idMask (c : Config) : DevId := ~~~ (BitVec.ofNat 9 (c.capMib - 1))

/-- The parameters of the machine: any record whatever. The spec leaves each value OPEN, so this
constant has no body and no proof can see one (notes/assumptions/5.md, DESIGN CHOICE, safe). -/
opaque Params.impl : Params

/-- The configuration of the machine: parameters without a value, and the spec's layout. -/
def Config.impl : Config := { Params.impl with layout := specLayout }

/-- REFCFG (R7 to R11): the configuration of the numeric vectors of 95_test_vectors.md, used by tests
only. Its values are the spec's `[gk]` and `[test]` values, no claim about the hardware. -/
def Config.ref : Config where
  capLog := 1
  expansion := true
  deviceType := 0xB4190010#32
  minInterval := 0x0040C0E0#32
  manufacturer := 0x00000500#32
  autoCal := fun x => 2 * x.toNat
  ccWinLo := 16
  ccWinHi := 48
  bankDirtyClear := 0#8
  refRowMask := 0xFFFFFFFF#32
  ccXor := 0x3F#6
  layout := specLayout

end Sys2Proof
end

