-- ==== Sys2Proof/Syntax.lean ====
section
/-! DEFINITION. The operations (30_encoding.md R90 to R93), as the host presents them and decoded. -/

namespace Sys2Proof

/-- One operation of the block, its undecoded address bits left out. A read of a Registry register has no
broadcast operand: the bit is ignored there (42_registry_dispatch.md R206). -/
inductive Instr where
  /-- `LD.B` (R262). -/
  | ldB (a : BitVec 32) (tag : Tag)
  /-- `LD.H` (R263). -/
  | ldH (a : BitVec 32) (tag : Tag)
  /-- `LD.W` (R264). -/
  | ldW (a : BitVec 32) (tag : Tag)
  /-- `LD.D` (R265). -/
  | ldD (a : BitVec 32) (tag : Tag)
  /-- `LDB4` (R270). -/
  | ldb4 (a : BitVec 32)
  /-- `LDB8` (R271). -/
  | ldb8 (a : BitVec 32)
  /-- `ST.B` (R266). -/
  | stB (a : BitVec 32) (v : BitVec 8) (tag : Tag)
  /-- `ST.H` (R267). -/
  | stH (a : BitVec 32) (v : BitVec 16) (tag : Tag)
  /-- `ST.W` (R268). -/
  | stW (a : BitVec 32) (v : BitVec 32) (tag : Tag)
  /-- `ST.D` (R269). -/
  | stD (a : BitVec 32) (v : BitVec 64) (tag : Tag)
  /-- `STB4` (R272). -/
  | stb4 (a : BitVec 32) (w0 w1 w2 w3 : Word)
  /-- `STB8` (R273). -/
  | stb8 (a : BitVec 32) (w0 w1 w2 w3 w4 w5 w6 w7 : Word)
  /-- `RR.DEVICE_TYPE` (R152). -/
  | rrDeviceType (id : DevId) (gate : Bool)
  /-- `RR.DEVICE_ID` (R153). -/
  | rrDeviceId (id : DevId) (gate : Bool)
  /-- `RR.DELAY` (R154). -/
  | rrDelay (id : DevId) (upper : Bool) (gate : Bool)
  /-- `RR.MODE` (R155). -/
  | rrMode (id : DevId) (upper : Bool) (gate : Bool)
  /-- `RR.REF_INTERVAL` (R156). -/
  | rrRefInterval (id : DevId) (upper : Bool) (gate : Bool)
  /-- `RR.REF_ROW` (R157). -/
  | rrRefRow (id : DevId) (upper : Bool) (gate : Bool)
  /-- `RR.RAS_INTERVAL` (R158). -/
  | rrRasInterval (id : DevId) (upper : Bool) (gate : Bool)
  /-- `RR.MIN_INTERVAL` (R159). -/
  | rrMinInterval (id : DevId) (upper : Bool) (gate : Bool)
  /-- `RR.ADDR_SELECT` (R175). -/
  | rrAddrSelect (id : DevId) (upper : Bool) (gate : Bool)
  /-- `RR.DEVICE_MANUF` (R176). -/
  | rrDeviceManuf (id : DevId) (upper : Bool) (gate : Bool)
  /-- `RR.ROW0` (R177). -/
  | rrRow0 (id : DevId) (gate : Bool)
  /-- `RR.ROW1` (R178). -/
  | rrRow1 (id : DevId) (gate : Bool)
  /-- `RR.NONE` (R179). -/
  | rrNone (id : DevId) (upper : Bool) (idx : RegIdx) (gate : Bool)
  /-- `RW.DEVICE_TYPE` (R160). -/
  | rwDeviceType (bc : Bool) (id : DevId) (w : Word)
  /-- `RW.DEVICE_ID` (R161). -/
  | rwDeviceId (bc : Bool) (id : DevId) (w : Word)
  /-- `RW.DELAY` (R163). -/
  | rwDelay (bc : Bool) (id : DevId) (upper : Bool) (w : Word)
  /-- `RW.MODE` (R165). -/
  | rwMode (bc : Bool) (id : DevId) (upper : Bool) (w : Word)
  /-- `RW.REF_INTERVAL` (R166). -/
  | rwRefInterval (bc : Bool) (id : DevId) (upper : Bool) (w : Word)
  /-- `RW.REF_ROW` (R167). -/
  | rwRefRow (bc : Bool) (id : DevId) (upper : Bool) (w : Word)
  /-- `RW.RAS_INTERVAL` (R168). -/
  | rwRasInterval (bc : Bool) (id : DevId) (upper : Bool) (w : Word)
  /-- `RW.MIN_INTERVAL` (R169). -/
  | rwMinInterval (bc : Bool) (id : DevId) (upper : Bool) (w : Word)
  /-- `RW.ADDR_SELECT` (R170). -/
  | rwAddrSelect (bc : Bool) (id : DevId) (upper : Bool) (w : Word)
  /-- `RW.DEVICE_MANUF` (R171). -/
  | rwDeviceManuf (bc : Bool) (id : DevId) (upper : Bool) (w : Word)
  /-- `RW.ROW0` (R172). -/
  | rwRow0 (bc : Bool) (id : DevId) (w : Word)
  /-- `RW.ROW1` (R173). -/
  | rwRow1 (bc : Bool) (id : DevId) (w : Word)
  /-- `RW.NONE` (R174). -/
  | rwNone (bc : Bool) (id : DevId) (upper : Bool) (idx : RegIdx) (w : Word)
  /-- `RIR.MODE` (R221). -/
  | rirMode
  /-- `RIR.CONFIG` (R223). -/
  | rirConfig
  /-- `RIR.CURRENT_LOAD` (R225). -/
  | rirCurrentLoad
  /-- `RIR.SELECT` (R227). -/
  | rirSelect
  /-- `RIR.REFRESH` (R229). -/
  | rirRefresh
  /-- `RIR.LATENCY` (R231). -/
  | rirLatency
  /-- `RIR.ERROR` (R236). -/
  | rirError
  /-- `RIR.BANK_STATUS` (R238). -/
  | rirBankStatus
  /-- `RIW.MODE` (R222). -/
  | riwMode (w : Word)
  /-- `RIW.CONFIG` (R224). -/
  | riwConfig (w : Word)
  /-- `RIW.CURRENT_LOAD` (R226). -/
  | riwCurrentLoad (w : Word)
  /-- `RIW.SELECT` (R228). -/
  | riwSelect (w : Word)
  /-- `RIW.REFRESH` (R230). -/
  | riwRefresh (w : Word)
  /-- `RIW.LATENCY` (R232). -/
  | riwLatency (w : Word)
  /-- `RIW.ERROR` (R237). -/
  | riwError (w : Word)
  /-- `RIW.BANK_STATUS` (R239). -/
  | riwBankStatus (w : Word)
  /-- `RESET` (R310). -/
  | reset (exp : Bool)
deriving DecidableEq, Repr

/-- One transaction as the host presents it: the command word (R90), the write data and the inputs sampled
with it (R91, 00_scope.md R12). The 256 data bits are the widest operand; a narrower operand is the low
bits, word i of a burst stands at bits 32i+31..32i (DESIGN CHOICE, notes/assumptions/4.md). -/
structure Request where
  cw : BitVec 38
  data : BitVec 256
  tag : Tag
  gate : Bool
  extDiag : Bool
deriving DecidableEq, Repr

/-- Why a command word selects no operation (R93). -/
inductive DecodeError where
  /-- port MEM with sz 6 or 7. -/
  | memSize
  /-- port RDRAM or RI with sz other than 2. -/
  | registerSize
  /-- port CTRL with dir 0, sz not 0 or addr[31:1] not 0. -/
  | ctrlWord
deriving DecidableEq, Repr

end Sys2Proof
end

