-- ==== Sys2Proof/WellFormed.lean ====
section
/-! DEFINITION. Which operations the interface admits (44_memory_access.md R250, 30_encoding.md R101). -/

namespace Sys2Proof

/-- A memory-port access of n bytes at a is admitted: below 2^29 and a multiple of its size (R250). -/
def admittedAt (a : BitVec 32) (n : Nat) : Bool :=
  decide (a.toNat < memSpaceBytes) && decide (a.toNat % n = 0)

/-- A reserved sub-register index, 10..127 (R101). -/
def reservedIdx (idx : RegIdx) : Bool := decide (10 ≤ idx.toNat)

/-- The operands of an operation are ones the interface admits. -/
def wellFormed (i : Instr) : Bool :=
  match i with
  | .ldB a _ => admittedAt a 1
  | .ldH a _ => admittedAt a 2
  | .ldW a _ => admittedAt a 4
  | .ldD a _ => admittedAt a 8
  | .ldb4 a => admittedAt a 16
  | .ldb8 a => admittedAt a 32
  | .stB a _ _ => admittedAt a 1
  | .stH a _ _ => admittedAt a 2
  | .stW a _ _ => admittedAt a 4
  | .stD a _ _ => admittedAt a 8
  | .stb4 a _ _ _ _ => admittedAt a 16
  | .stb8 a _ _ _ _ _ _ _ _ => admittedAt a 32
  | .rrNone _ _ idx _ => reservedIdx idx
  | .rwNone _ _ _ idx _ => reservedIdx idx
  | .rrDeviceType _ _ | .rrDeviceId _ _ | .rrDelay _ _ _ | .rrMode _ _ _ | .rrRefInterval _ _ _
  | .rrRefRow _ _ _ | .rrRasInterval _ _ _ | .rrMinInterval _ _ _ | .rrAddrSelect _ _ _
  | .rrDeviceManuf _ _ _ | .rrRow0 _ _ | .rrRow1 _ _
  | .rwDeviceType _ _ _ | .rwDeviceId _ _ _ | .rwDelay _ _ _ _ | .rwMode _ _ _ _
  | .rwRefInterval _ _ _ _ | .rwRefRow _ _ _ _ | .rwRasInterval _ _ _ _ | .rwMinInterval _ _ _ _
  | .rwAddrSelect _ _ _ _ | .rwDeviceManuf _ _ _ _ | .rwRow0 _ _ _ | .rwRow1 _ _ _
  | .rirMode | .rirConfig | .rirCurrentLoad | .rirSelect | .rirRefresh | .rirLatency | .rirError
  | .rirBankStatus
  | .riwMode _ | .riwConfig _ | .riwCurrentLoad _ | .riwSelect _ | .riwRefresh _ | .riwLatency _
  | .riwError _ | .riwBankStatus _
  | .reset _ => true

end Sys2Proof
end

