-- ==== Sys2Proof/Decode.lean ====
section
/-! DEFINITION. The decoder and the encoder of the command word (30_encoding.md R90 to R93, R100, R101,
R112). -/

namespace Sys2Proof

/-- `cw[37:36]` (R90). -/
def cwPort (cw : BitVec 38) : BitVec 2 := cw.extractLsb' 36 2

/-- `cw[35]` (R90): true for a write. -/
def cwDir (cw : BitVec 38) : Bool := cw.getLsbD 35

/-- `cw[34:32]` (R90). -/
def cwSz (cw : BitVec 38) : BitVec 3 := cw.extractLsb' 32 3

/-- `cw[31:0]` (R90). -/
def cwAddr (cw : BitVec 38) : BitVec 32 := cw.extractLsb' 0 32

/-- `bc` of an RDRAM-port address (R100). -/
def regBc (l : Layout) (a : BitVec 32) : Bool := a.getLsbD l.addrBc

/-- `id` of an RDRAM-port address (R100). -/
def regId (l : Layout) (a : BitVec 32) : DevId := gather l.addrId a.getLsbD

/-- `upper` of an RDRAM-port address (R100). -/
def regUpper (l : Layout) (a : BitVec 32) : Bool := a.getLsbD l.addrUpper

/-- `idx` of an RDRAM-port address (R100). -/
def regIdx (l : Layout) (a : BitVec 32) : RegIdx := gather l.addrIdx a.getLsbD

/-- `ridx` of an RI-port address (R112). -/
def riIdx (l : Layout) (a : BitVec 32) : BitVec 3 := gather l.addrRidx a.getLsbD

/-- Word i of a burst operand (R91, notes/assumptions/4.md). -/
def dataWord (d : BitVec 256) (i : Nat) : Word := d.extractLsb' (32 * i) 32

/-- MEM port (R92): `dir` and `sz` select the operation, the address is its operand. -/
def decodeMem (dir : Bool) (sz : BitVec 3) (a : BitVec 32) (d : BitVec 256) (tag : Tag) :
    Except DecodeError Instr :=
  match dir, sz.toNat with
  | false, 0 => .ok (.ldB a tag)
  | false, 1 => .ok (.ldH a tag)
  | false, 2 => .ok (.ldW a tag)
  | false, 3 => .ok (.ldD a tag)
  | false, 4 => .ok (.ldb4 a)
  | false, 5 => .ok (.ldb8 a)
  | true, 0 => .ok (.stB a (d.setWidth 8) tag)
  | true, 1 => .ok (.stH a (d.setWidth 16) tag)
  | true, 2 => .ok (.stW a (d.setWidth 32) tag)
  | true, 3 => .ok (.stD a (d.setWidth 64) tag)
  | true, 4 => .ok (.stb4 a (dataWord d 0) (dataWord d 1) (dataWord d 2) (dataWord d 3))
  | true, 5 => .ok (.stb8 a (dataWord d 0) (dataWord d 1) (dataWord d 2) (dataWord d 3)
      (dataWord d 4) (dataWord d 5) (dataWord d 6) (dataWord d 7))
  | _, _ => .error .memSize

/-- RDRAM-port read: `upper` and `idx` select the register (R101). -/
def decodeRegRead (id : DevId) (upper : Bool) (idx : RegIdx) (gate : Bool) : Instr :=
  match idx.toNat with
  | 0 => if upper then .rrRow0 id gate else .rrDeviceType id gate
  | 1 => if upper then .rrRow1 id gate else .rrDeviceId id gate
  | 2 => .rrDelay id upper gate
  | 3 => .rrMode id upper gate
  | 4 => .rrRefInterval id upper gate
  | 5 => .rrRefRow id upper gate
  | 6 => .rrRasInterval id upper gate
  | 7 => .rrMinInterval id upper gate
  | 8 => .rrAddrSelect id upper gate
  | 9 => .rrDeviceManuf id upper gate
  | _ => .rrNone id upper idx gate

/-- RDRAM-port write: `upper` and `idx` select the register (R101). -/
def decodeRegWrite (bc : Bool) (id : DevId) (upper : Bool) (idx : RegIdx) (w : Word) : Instr :=
  match idx.toNat with
  | 0 => if upper then .rwRow0 bc id w else .rwDeviceType bc id w
  | 1 => if upper then .rwRow1 bc id w else .rwDeviceId bc id w
  | 2 => .rwDelay bc id upper w
  | 3 => .rwMode bc id upper w
  | 4 => .rwRefInterval bc id upper w
  | 5 => .rwRefRow bc id upper w
  | 6 => .rwRasInterval bc id upper w
  | 7 => .rwMinInterval bc id upper w
  | 8 => .rwAddrSelect bc id upper w
  | 9 => .rwDeviceManuf bc id upper w
  | _ => .rwNone bc id upper idx w

/-- RI-port read (R112). -/
def decodeRiRead (ridx : BitVec 3) : Instr :=
  match ridx.toNat with
  | 0 => .rirMode
  | 1 => .rirConfig
  | 2 => .rirCurrentLoad
  | 3 => .rirSelect
  | 4 => .rirRefresh
  | 5 => .rirLatency
  | 6 => .rirError
  | _ => .rirBankStatus

/-- RI-port write (R112). -/
def decodeRiWrite (ridx : BitVec 3) (w : Word) : Instr :=
  match ridx.toNat with
  | 0 => .riwMode w
  | 1 => .riwConfig w
  | 2 => .riwCurrentLoad w
  | 3 => .riwSelect w
  | 4 => .riwRefresh w
  | 5 => .riwLatency w
  | 6 => .riwError w
  | _ => .riwBankStatus w

/-- An RDRAM-port transaction at address a: a read or, with `dir` true, a write of w (R92, R200). -/
def decodeRdram (l : Layout) (dir : Bool) (a : BitVec 32) (w : Word) (gate : Bool) : Instr :=
  if dir then decodeRegWrite (regBc l a) (regId l a) (regUpper l a) (regIdx l a) w
  else decodeRegRead (regId l a) (regUpper l a) (regIdx l a) gate

/-- An RI-port transaction at address a (R92, R112). -/
def decodeRi (l : Layout) (dir : Bool) (a : BitVec 32) (w : Word) : Instr :=
  if dir then decodeRiWrite (riIdx l a) w else decodeRiRead (riIdx l a)

/-- The decoder, total on every transaction: the operation its command word selects (R92), or the reason
it selects none (R93). The input `extDiag` is not looked at (00_scope.md R12). -/
def decode (r : Request) : Except DecodeError Instr :=
  match (cwPort r.cw).toNat with
  | 0 => decodeMem (cwDir r.cw) (cwSz r.cw) (cwAddr r.cw) r.data r.tag
  | 1 =>
    if cwSz r.cw = 2#3 then
      .ok (decodeRdram Config.impl.layout (cwDir r.cw) (cwAddr r.cw) (r.data.setWidth 32) r.gate)
    else .error .registerSize
  | 2 =>
    if cwSz r.cw = 2#3 then
      .ok (decodeRi Config.impl.layout (cwDir r.cw) (cwAddr r.cw) (r.data.setWidth 32))
    else .error .registerSize
  | _ =>
    if cwDir r.cw = true ∧ cwSz r.cw = 0#3 ∧ (cwAddr r.cw).extractLsb' 1 31 = 0#31 then
      .ok (.reset ((cwAddr r.cw).getLsbD 0))
    else .error .ctrlWord

/-- The command word of its four fields (R90). -/
def mkCw (port : BitVec 2) (dir : Bool) (sz : BitVec 3) (addr : BitVec 32) : BitVec 38 :=
  port ++ BitVec.ofBool dir ++ sz ++ addr

/-- The RDRAM-port address of its fields, the undecoded bits zero (R100). -/
def mkRegAddr (l : Layout) (bc : Bool) (id : DevId) (upper : Bool) (idx : RegIdx) : BitVec 32 :=
  placeBit bc l.addrBc ||| scatter l.addrId id ||| placeBit upper l.addrUpper ||| scatter l.addrIdx idx

/-- The RI-port address of a register index, the undecoded bits zero (R112). -/
def mkRiAddr (l : Layout) (ridx : BitVec 3) : BitVec 32 := scatter l.addrRidx ridx

/-- The 256-bit operand of four burst words (R91, notes/assumptions/4.md). -/
def packWords4 (w0 w1 w2 w3 : Word) : BitVec 256 := (w3 ++ w2 ++ w1 ++ w0).setWidth 256

/-- The 256-bit operand of eight burst words (R91, notes/assumptions/4.md). -/
def packWords8 (w0 w1 w2 w3 w4 w5 w6 w7 : Word) : BitVec 256 :=
  w7 ++ w6 ++ w5 ++ w4 ++ w3 ++ w2 ++ w1 ++ w0

/-- A memory read transaction. -/
def encodeLoad (sz : BitVec 3) (a : BitVec 32) (tag : Tag) : Request :=
  ⟨mkCw 0 false sz a, 0, tag, false, false⟩

/-- A memory write transaction. -/
def encodeStore (sz : BitVec 3) (a : BitVec 32) (d : BitVec 256) (tag : Tag) : Request :=
  ⟨mkCw 0 true sz a, d, tag, false, false⟩

/-- A Registry register read transaction. -/
def encodeRegRead (id : DevId) (upper : Bool) (idx : RegIdx) (gate : Bool) : Request :=
  ⟨mkCw 1 false 2 (mkRegAddr Config.impl.layout false id upper idx), 0, [], gate, false⟩

/-- A Registry register write transaction. -/
def encodeRegWrite (bc : Bool) (id : DevId) (upper : Bool) (idx : RegIdx) (w : Word) : Request :=
  ⟨mkCw 1 true 2 (mkRegAddr Config.impl.layout bc id upper idx), w.setWidth 256, [], false, false⟩

/-- An RI register read transaction. -/
def encodeRiRead (ridx : BitVec 3) : Request :=
  ⟨mkCw 2 false 2 (mkRiAddr Config.impl.layout ridx), 0, [], false, false⟩

/-- An RI register write transaction. -/
def encodeRiWrite (ridx : BitVec 3) (w : Word) : Request :=
  ⟨mkCw 2 true 2 (mkRiAddr Config.impl.layout ridx), w.setWidth 256, [], false, false⟩

/-- The encoder: the transaction of an operation, every undecoded bit zero. -/
def encode (i : Instr) : Request :=
  match i with
  | .ldB a tag => encodeLoad 0 a tag
  | .ldH a tag => encodeLoad 1 a tag
  | .ldW a tag => encodeLoad 2 a tag
  | .ldD a tag => encodeLoad 3 a tag
  | .ldb4 a => encodeLoad 4 a []
  | .ldb8 a => encodeLoad 5 a []
  | .stB a v tag => encodeStore 0 a (v.setWidth 256) tag
  | .stH a v tag => encodeStore 1 a (v.setWidth 256) tag
  | .stW a v tag => encodeStore 2 a (v.setWidth 256) tag
  | .stD a v tag => encodeStore 3 a (v.setWidth 256) tag
  | .stb4 a w0 w1 w2 w3 => encodeStore 4 a (packWords4 w0 w1 w2 w3) []
  | .stb8 a w0 w1 w2 w3 w4 w5 w6 w7 => encodeStore 5 a (packWords8 w0 w1 w2 w3 w4 w5 w6 w7) []
  | .rrDeviceType id gate => encodeRegRead id false 0 gate
  | .rrDeviceId id gate => encodeRegRead id false 1 gate
  | .rrDelay id upper gate => encodeRegRead id upper 2 gate
  | .rrMode id upper gate => encodeRegRead id upper 3 gate
  | .rrRefInterval id upper gate => encodeRegRead id upper 4 gate
  | .rrRefRow id upper gate => encodeRegRead id upper 5 gate
  | .rrRasInterval id upper gate => encodeRegRead id upper 6 gate
  | .rrMinInterval id upper gate => encodeRegRead id upper 7 gate
  | .rrAddrSelect id upper gate => encodeRegRead id upper 8 gate
  | .rrDeviceManuf id upper gate => encodeRegRead id upper 9 gate
  | .rrRow0 id gate => encodeRegRead id true 0 gate
  | .rrRow1 id gate => encodeRegRead id true 1 gate
  | .rrNone id upper idx gate => encodeRegRead id upper idx gate
  | .rwDeviceType bc id w => encodeRegWrite bc id false 0 w
  | .rwDeviceId bc id w => encodeRegWrite bc id false 1 w
  | .rwDelay bc id upper w => encodeRegWrite bc id upper 2 w
  | .rwMode bc id upper w => encodeRegWrite bc id upper 3 w
  | .rwRefInterval bc id upper w => encodeRegWrite bc id upper 4 w
  | .rwRefRow bc id upper w => encodeRegWrite bc id upper 5 w
  | .rwRasInterval bc id upper w => encodeRegWrite bc id upper 6 w
  | .rwMinInterval bc id upper w => encodeRegWrite bc id upper 7 w
  | .rwAddrSelect bc id upper w => encodeRegWrite bc id upper 8 w
  | .rwDeviceManuf bc id upper w => encodeRegWrite bc id upper 9 w
  | .rwRow0 bc id w => encodeRegWrite bc id true 0 w
  | .rwRow1 bc id w => encodeRegWrite bc id true 1 w
  | .rwNone bc id upper idx w => encodeRegWrite bc id upper idx w
  | .rirMode => encodeRiRead 0
  | .rirConfig => encodeRiRead 1
  | .rirCurrentLoad => encodeRiRead 2
  | .rirSelect => encodeRiRead 3
  | .rirRefresh => encodeRiRead 4
  | .rirLatency => encodeRiRead 5
  | .rirError => encodeRiRead 6
  | .rirBankStatus => encodeRiRead 7
  | .riwMode w => encodeRiWrite 0 w
  | .riwConfig w => encodeRiWrite 1 w
  | .riwCurrentLoad w => encodeRiWrite 2 w
  | .riwSelect w => encodeRiWrite 3 w
  | .riwRefresh w => encodeRiWrite 4 w
  | .riwLatency w => encodeRiWrite 5 w
  | .riwError w => encodeRiWrite 6 w
  | .riwBankStatus w => encodeRiWrite 7 w
  | .reset exp => ⟨mkCw 3 true 0 ((BitVec.ofBool exp).setWidth 32), 0, [], false, false⟩

/-- The transaction whose command word is bits 37..0 of the low `nbits` bits of w, every operand bit
zero: no data bit, the empty tag, both inputs 0. -/
def tableRequest (nbits w : Nat) : Request :=
  ⟨BitVec.ofNat 38 (w % 2 ^ nbits), 0, [], false, false⟩

/-- The instruction the decoder reads from a table row's bits; none where it refuses. -/
def decodeTableWord (nbits w : Nat) : Option Instr :=
  match decode (tableRequest nbits w) with
  | .ok i => some i
  | .error _ => none

end Sys2Proof
end

