-- ==== Sys2Proof/Machine/State.lean ====
section
/-! DEFINITION. The state of the block (10_state.md), its events, and its state after reset. -/

namespace Sys2Proof.Machine

/-- A byte buffer, the live buffer or a shadow: its nonzero bytes by rising address
(notes/assumptions/22.md). -/
abbrev Memory := List Host.Cell

/-- What a byte that is not listed reads as: 0, the value of every byte at reset (10_state.md R36, R37). -/
def unlistedByte : Byte := 0#8

/-- The canonical form of a buffer: addresses strictly rising, no listed byte equal to what an unlisted
address reads as. -/
abbrev Memory.wf (m : Memory) : Prop :=
  m.Pairwise (fun c d => c.1 < d.1) ∧ ∀ c ∈ m, c.2 ≠ unlistedByte

/-- One memory module (10_state.md R22 to R36). -/
structure MemModule where
  /-- The claimed device ID, capacity-masked (R23). -/
  deviceId : DevId
  /-- The identity field as last written (R24). -/
  idField : DevId
  /-- Operational (R25). -/
  valid : Bool
  /-- Auto-calibration toggle (R28). -/
  ce : Bool
  /-- Multiplier (R28). -/
  x2 : Bool
  /-- Device enable (R28). -/
  de : Bool
  /-- Calibration value (R28). -/
  cc : BitVec 6
  /-- Delay register (R27). -/
  dlyAckWin : BitVec 3
  dlyRead : BitVec 3
  dlyAck : BitVec 3
  dlyWrite : BitVec 3
  /-- Refresh-row register (R30). -/
  refRow : Word
  /-- Timing register (R31). -/
  rasPrecharge : BitVec 5
  rasSense : BitVec 5
  rasImpRestore : BitVec 5
  rasExpRestore : BitVec 5
  /-- Address-swap field and its inverted shadow (R33). -/
  swap : BitVec 9
  swapInv : BitVec 9
  /-- Sensed-row latches 0 and 1 (R35). -/
  row0 : BitVec 9
  row1 : BitVec 9
  /-- The module's image while it is not visible (R36). -/
  shadow : Memory
deriving DecidableEq, Repr

/-- The shared status block (10_state.md R39). -/
structure Status where
  /-- Bank b has been accessed. -/
  valid : BitVec 8
  /-- Bank b has been written. -/
  dirty : BitVec 8
  ackErr : Bool
  overErr : Bool
  nackErr : Bool
deriving DecidableEq, Repr

/-- The RI register file (10_state.md R40 to R44). -/
structure Ri where
  opMode : BitVec 2
  stopT : Bool
  stopR : Bool
  ccIn : BitVec 6
  ccEn : Bool
  rsel : BitVec 4
  tsel : BitVec 4
  refCleanDelay : BitVec 8
  refDirtyDelay : BitVec 8
  refBank : Bool
  refEnable : Bool
  refOptimize : Bool
  refMultibank : BitVec 4
  latency : BitVec 4
deriving DecidableEq, Repr

/-- Direction of an access (60_exceptions.md R297). -/
inductive Dir where
  | read
  | write
deriving DecidableEq, Repr

/-- Target of a register access as the hook reports it (R297). -/
inductive Target where
  | id (d : DevId)
  | broadcast
  | ri
deriving DecidableEq, Repr

/-- Kind of access that found no responder (R299). -/
inductive AccessKind where
  | registerRead
  | registerWrite
  | memoryRead
  | memoryWrite
deriving DecidableEq, Repr

/-- The events of the output trace (60_exceptions.md R296 to R299; widths: notes/assumptions/20.md). -/
inductive Event where
  /-- `Hook.Reg` (R297). -/
  | hookReg (dir : Dir) (target : Target) (sub : BitVec 8) (data : Word)
  /-- `Hook.Mem` (R298): the value on a write, none on a read. -/
  | hookMem (dir : Dir) (addr size : Nat) (value : Option (BitVec 64))
  /-- `Diag.NoResponder` (R299). -/
  | noResponder (kind : AccessKind) (d : DevId)
  /-- `Diag.GateClosed` (R299). -/
  | gateClosed (m : Slot) (sub : BitVec 8)
deriving DecidableEq, Repr

/-- What an operation returns to the host: a value of its access size, the words of a burst, or nothing
(30_encoding.md R91). -/
inductive ReadData where
  | nothing
  | byte (v : BitVec 8)
  | half (v : BitVec 16)
  | word (v : Word)
  | dword (v : BitVec 64)
  | words (l : List Word)
deriving DecidableEq, Repr

/-- Why a step stops with a fault. The block raises nothing (60_exceptions.md R280), so there is none. -/
inductive Fault where
deriving DecidableEq, Repr

/-- Why an operation is not admitted: preconditions of the interface, no behaviour of the hardware
(00_scope.md R16). -/
inductive Refusal where
  /-- `exec`, for an instruction without a meaning. No arm raises it. Safe. -/
  | notModelled (mnemonic : String)
  /-- Any memory-port operation whose address is no multiple of its size (20_memory.md R72). Safe. -/
  | misaligned
  /-- Any memory-port operation at or above 2^29 (20_memory.md R61). Safe. -/
  | addressOutOfIdSpace
  /-- `step`, for a command word that selects no operation (30_encoding.md R93). Safe. -/
  | invalidCommandWord (why : DecodeError)
deriving DecidableEq, Repr

/-- The whole state: the block's (10_state.md R22 to R46, R50) and, last, the model's own two fields
`result` and `pending` (notes/assumptions/1.md and 3.md). -/
structure State where
  /-- EXPANSION_PRESENT as the last RESET sampled it: NMOD is 4 or 2 (00_scope.md R7). -/
  expansion : Bool
  /-- The module slots; the slots from NMOD on do not exist for any rule (R7). -/
  mods : Vector MemModule 4
  /-- The live buffer (10_state.md R37). -/
  live : Memory
  /-- The responder table (10_state.md R38). -/
  resp : Vector (Option Slot) 512
  /-- The shared status block (10_state.md R39). -/
  status : Status
  /-- The RI register file (10_state.md R40 to R44). -/
  ri : Ri
  /-- The output trace, oldest event first (60_exceptions.md R296). -/
  trace : List Event
  /-- What the last operation returned to the host. -/
  result : ReadData
  /-- The host's operations not yet performed, next first. -/
  pending : List Request
deriving DecidableEq, Repr

/-- A module at its factory identity (70_reset_and_hazards.md R310, 10_state.md R50). -/
def factoryModule : MemModule where
  deviceId := 0
  idField := 0
  valid := false
  ce := false
  x2 := false
  de := false
  cc := 0
  dlyAckWin := 0
  dlyRead := 0
  dlyAck := 0
  dlyWrite := 0
  refRow := 0
  rasPrecharge := 0
  rasSense := 0
  rasImpRestore := 0
  rasExpRestore := 0
  swap := 0
  swapInv := 0
  row0 := 0
  row1 := 0
  shadow := []

/-- The status block after reset (10_state.md R39, R50). -/
def Status.initial (c : Config) : Status where
  valid := 0
  dirty := c.bankDirtyClear
  ackErr := false
  overErr := false
  nackErr := false

/-- The RI register file after reset (10_state.md R50). -/
def Ri.initial : Ri where
  opMode := 0
  stopT := false
  stopR := false
  ccIn := 0
  ccEn := false
  rsel := 0
  tsel := 0
  refCleanDelay := 0
  refDirtyDelay := 0
  refBank := false
  refEnable := false
  refOptimize := false
  refMultibank := 0
  latency := 0

/-- The responder table after reset: module 0 at IDs 0..CAP_MIB-1, none elsewhere
(70_reset_and_hazards.md R311). -/
def initialResp (c : Config) : Vector (Option Slot) 512 :=
  ⟨⟨List.replicate c.capMib (some 0) ++ List.replicate (512 - c.capMib) none⟩, by
    have h : c.capMib ≤ 512 := by
      have := c.capLog.isLt
      calc c.capMib = 2 ^ c.capLog.val := rfl
        _ ≤ 2 ^ 9 := Nat.pow_le_pow_right (by decide) (by omega)
    simp only [List.size_toArray, List.length_append, List.length_replicate]
    omega⟩

/-- The table of reset values (10_state.md R50), for one configuration and one EXPANSION_PRESENT. -/
def State.afterReset (c : Config) (exp : Bool) : State where
  expansion := exp
  mods := Vector.replicate 4 factoryModule
  live := []
  resp := initialResp c
  status := Status.initial c
  ri := Ri.initial
  trace := []
  result := .nothing
  pending := []

/-- The machine right after power-on reset. -/
def State.reset : State := State.afterReset Config.impl Config.impl.expansion

end Sys2Proof.Machine
end

