-- ==== Sys2Proof/Machine/Operands.lean ====
section
/-! DEFINITION. The packed registers and the memory-port address (30_encoding.md R101 to R121), each over the
layout record (00_scope.md R13): no bit position stands here. -/

namespace Sys2Proof.Machine

/-- What a sub-register address selects (R101). -/
inductive ModReg where
  | deviceType
  | deviceId
  | delay
  | mode
  | refInterval
  | refRow
  | rasInterval
  | minInterval
  | addrSelect
  | deviceManuf
  | row0
  | row1
  | none
deriving DecidableEq, Repr

/-- `Sel(upper, idx)` (R101). -/
def sel (upper : Bool) (idx : RegIdx) : ModReg :=
  match idx.toNat with
  | 0 => if upper then .row0 else .deviceType
  | 1 => if upper then .row1 else .deviceId
  | 2 => .delay
  | 3 => .mode
  | 4 => .refInterval
  | 5 => .refRow
  | 6 => .rasInterval
  | 7 => .minInterval
  | 8 => .addrSelect
  | 9 => .deviceManuf
  | _ => .none

/-- `AlwaysOn(sel)` (R102). -/
def alwaysOn (r : ModReg) : Bool :=
  match r with
  | .deviceType | .delay | .rasInterval => true
  | _ => false

/-- The sub-register address `{upper, idx}` of a hook or diagnostic event (R126). -/
def subAddr (upper : Bool) (idx : RegIdx) : BitVec 8 := BitVec.ofBool upper ++ idx

/-- `IdDecode(w)` (R103). -/
def idDecode (l : Layout) (w : Word) : DevId := gather l.identity w.getLsbD

/-- `IdEncode(f)` (R103). -/
def idEncode (l : Layout) (f : DevId) : Word := scatter l.identity f

/-- `CcGather(w)` (R106). -/
def ccGather (l : Layout) (w : Word) : BitVec 6 := gather l.cc w.getLsbD

/-- `CcDecode(w)` (R106). -/
def ccDecode (c : Config) (w : Word) : BitVec 6 := ccGather c.layout w ^^^ c.ccXor

/-- `CcScatter(c)` (R106). -/
def ccScatter (l : Layout) (x : BitVec 6) : Word := scatter l.cc x

/-- `CcEncode(c)` (R106). -/
def ccEncode (c : Config) (x : BitVec 6) : Word := ccScatter c.layout (x ^^^ c.ccXor)

/-- Delay register, `Pack` (R105). -/
def packDelay (l : Layout) (M : MemModule) : Word :=
  scatter l.dlyAckWin M.dlyAckWin ||| scatter l.dlyRead M.dlyRead ||| scatter l.dlyAck M.dlyAck
    ||| scatter l.dlyWrite M.dlyWrite

/-- Delay register, `Unpack` (R105, R163). -/
def storeDelay (l : Layout) (w : Word) (M : MemModule) : MemModule :=
  { M with
    dlyAckWin := gather l.dlyAckWin w.getLsbD, dlyRead := gather l.dlyRead w.getLsbD
    dlyAck := gather l.dlyAck w.getLsbD, dlyWrite := gather l.dlyWrite w.getLsbD }

/-- The mode word of its four fields (R106). -/
def modeWord (c : Config) (ce x2 de : Bool) (cc : BitVec 6) : Word :=
  placeBit ce c.layout.ce ||| placeBit x2 c.layout.x2 ||| placeBit de c.layout.de ||| ccEncode c cc

/-- Mode register, `Pack` (R106). -/
def packMode (c : Config) (M : MemModule) : Word := modeWord c M.ce M.x2 M.de M.cc

/-- The auto-calibration bit of a mode word (R106). -/
def modeCe (l : Layout) (w : Word) : Bool := w.getLsbD l.ce

/-- The multiplier bit of a mode word (R106). -/
def modeX2 (l : Layout) (w : Word) : Bool := w.getLsbD l.x2

/-- The device-enable bit of a mode word (R106). -/
def modeDe (l : Layout) (w : Word) : Bool := w.getLsbD l.de

/-- Refresh-row register, the stored bits (R108, R167). -/
def storeRefRow (c : Config) (w : Word) (M : MemModule) : MemModule :=
  { M with refRow := w &&& c.refRowMask }

/-- Timing register, `Pack` (R109). -/
def packRas (l : Layout) (M : MemModule) : Word :=
  scatter l.rasPrecharge M.rasPrecharge ||| scatter l.rasSense M.rasSense
    ||| scatter l.rasImpRestore M.rasImpRestore ||| scatter l.rasExpRestore M.rasExpRestore

/-- Timing register, `Unpack` (R109, R168). -/
def storeRas (l : Layout) (w : Word) (M : MemModule) : MemModule :=
  { M with
    rasPrecharge := gather l.rasPrecharge w.getLsbD, rasSense := gather l.rasSense w.getLsbD
    rasImpRestore := gather l.rasImpRestore w.getLsbD, rasExpRestore := gather l.rasExpRestore w.getLsbD }

/-- Address-swap register, `Pack` (R111). -/
def packSwap (l : Layout) (M : MemModule) : Word := scatter l.swap M.swap

/-- Address-swap register, write side: the field and its inverted shadow (R111, R170). -/
def storeSwap (l : Layout) (w : Word) (M : MemModule) : MemModule :=
  { M with swap := gather l.swap w.getLsbD, swapInv := ~~~ (gather l.swap w.getLsbD) }

/-- Sensed-row latch 0, `Pack` (R111). -/
def packRow0 (l : Layout) (M : MemModule) : Word := scatter l.row M.row0

/-- Sensed-row latch 1, `Pack` (R111). -/
def packRow1 (l : Layout) (M : MemModule) : Word := scatter l.row M.row1

/-- Sensed-row latch 0, write side (R111, R172). -/
def storeRow0 (l : Layout) (w : Word) (M : MemModule) : MemModule := { M with row0 := gather l.row w.getLsbD }

/-- Sensed-row latch 1, write side (R111, R173). -/
def storeRow1 (l : Layout) (w : Word) (M : MemModule) : MemModule := { M with row1 := gather l.row w.getLsbD }

/-- RI mode, `Pack` (R113). -/
def packRiMode (l : Layout) (r : Ri) : Word :=
  scatter l.opMode r.opMode ||| placeBit r.stopT l.stopT ||| placeBit r.stopR l.stopR

/-- RI mode, write side (R113, R222). -/
def storeRiMode (l : Layout) (w : Word) (r : Ri) : Ri :=
  { r with opMode := gather l.opMode w.getLsbD, stopT := w.getLsbD l.stopT, stopR := w.getLsbD l.stopR }

/-- RI config, `Pack` (R114). -/
def packRiConfig (l : Layout) (r : Ri) : Word := scatter l.ccIn r.ccIn ||| placeBit r.ccEn l.ccEn

/-- RI config, write side (R114, R224). -/
def storeRiConfig (l : Layout) (w : Word) (r : Ri) : Ri :=
  { r with ccIn := gather l.ccIn w.getLsbD, ccEn := w.getLsbD l.ccEn }

/-- RI select, `Pack` (R116). -/
def packRiSelect (l : Layout) (r : Ri) : Word := scatter l.rsel r.rsel ||| scatter l.tsel r.tsel

/-- RI select, write side (R116, R228). -/
def storeRiSelect (l : Layout) (w : Word) (r : Ri) : Ri :=
  { r with rsel := gather l.rsel w.getLsbD, tsel := gather l.tsel w.getLsbD }

/-- RI refresh, `Pack` (R117). -/
def packRiRefresh (l : Layout) (r : Ri) : Word :=
  scatter l.refCleanDelay r.refCleanDelay ||| scatter l.refDirtyDelay r.refDirtyDelay
    ||| placeBit r.refBank l.refBank ||| placeBit r.refEnable l.refEnable
    ||| placeBit r.refOptimize l.refOptimize ||| scatter l.refMultibank r.refMultibank

/-- RI refresh, write side (R117, R230). -/
def storeRiRefresh (l : Layout) (w : Word) (r : Ri) : Ri :=
  { r with
    refCleanDelay := gather l.refCleanDelay w.getLsbD, refDirtyDelay := gather l.refDirtyDelay w.getLsbD
    refBank := w.getLsbD l.refBank, refEnable := w.getLsbD l.refEnable
    refOptimize := w.getLsbD l.refOptimize, refMultibank := gather l.refMultibank w.getLsbD }

/-- RI latency, `Pack` (R118). -/
def packRiLatency (l : Layout) (r : Ri) : Word := scatter l.latency r.latency

/-- RI latency, write side (R118, R232). -/
def storeRiLatency (l : Layout) (w : Word) (r : Ri) : Ri := { r with latency := gather l.latency w.getLsbD }

/-- RI error, read view of the status block (R119). -/
def packError (l : Layout) (st : Status) : Word :=
  placeBit st.nackErr l.nackErr ||| placeBit st.ackErr l.ackErr ||| placeBit st.overErr l.overErr

/-- RI bank-status, read view of the status block (R120). -/
def packBankStatus (l : Layout) (st : Status) : Word :=
  scatter l.bankValid st.valid ||| scatter l.bankDirty st.dirty

/-- `MemId(a)` (R121). -/
def memId (l : Layout) (a : Nat) : DevId := gather l.addrMemId a.testBit

/-- `Bank(a)` (R121). -/
def bank (l : Layout) (a : Nat) : Nat := (gather l.addrBank a.testBit).toNat

/-- `RowSel(a)`: the most significant address bit inside the module, 0 when CAP_MIB is 1 (R121). -/
def rowSel (c : Config) (a : Nat) : Bool :=
  decide (c.capLog.val ≠ 0) && a.testBit (c.layout.addrRowSel + c.capLog.val)

/-- `RowVal(a)` (R121). -/
def rowVal (l : Layout) (a : Nat) : BitVec 9 := gather l.addrRowVal a.testBit

end Sys2Proof.Machine
end

