-- ==== Sys2Proof/Machine/Flags.lean ====
section
/-! DEFINITION. The status block (10_state.md R39) and the derived validity flag (R25): what sets and what
clears each bit. -/

namespace Sys2Proof.Machine

/-- The access's bank bits: valid, and dirty on a write, of a tracked bank; over-range otherwise
(44_memory_access.md R253). -/
def markBank (b : Nat) (dir : Dir) (st : Status) : Status :=
  if b < trackedBanks then
    match dir with
    | .read => { st with valid := st.valid ||| (1#8 <<< b) }
    | .write => { st with valid := st.valid ||| (1#8 <<< b), dirty := st.dirty ||| (1#8 <<< b) }
  else { st with overErr := true }

/-- The ack error of an access or lookup without a responder (R39, 60_exceptions.md R281). -/
def markAckErr (st : Status) : Status := { st with ackErr := true }

/-- A write to the RI error register (43_ri_registers.md R237). -/
def clearErrors (st : Status) : Status :=
  { st with nackErr := false, ackErr := false, overErr := false }

/-- A write to the RI bank-status register (43_ri_registers.md R239). -/
def clearBanks (c : Config) (st : Status) : Status :=
  { st with valid := 0, dirty := c.bankDirtyClear }

/-- `CalStore(ce, x)` (41_module_registers.md R164): the clamp is taken on naturals, before the value is
narrowed to 6 bits (R181 (d)). -/
def calStore (c : Config) (ce : Bool) (x : BitVec 6) : BitVec 6 :=
  if ce then BitVec.ofNat 6 (min 63 (c.autoCal x)) else x

/-- The derived validity flag (10_state.md R25, 41_module_registers.md R165). -/
def validFlag (c : Config) (de : Bool) (cc : BitVec 6) : Bool :=
  de && decide (c.ccWinLo.val ≤ cc.toNat) && decide (cc.toNat ≤ c.ccWinHi.val)

/-- Mode register, write side: the three flags, the calibration value, then the validity flag
(41_module_registers.md R165). -/
def storeMode (c : Config) (w : Word) (M : MemModule) : MemModule :=
  { M with
    ce := modeCe c.layout w, x2 := modeX2 c.layout w, de := modeDe c.layout w
    cc := calStore c (modeCe c.layout w) (ccDecode c w)
    valid := validFlag c (modeDe c.layout w) (calStore c (modeCe c.layout w) (ccDecode c w)) }

end Sys2Proof.Machine
end

