-- ==== Sys2Proof/Machine/Ops.lean ====
section
/-! DEFINITION. The shared operations: byte buffers, the arbitration engine, the register files, the memory
access path, and reset. The block takes no exception and returns from none (60_exceptions.md R280, R287,
R288); its degraded conditions are recorded by `recordNoResponder` and `recordGateClosed`. -/

namespace Sys2Proof.Machine

/-! ### Byte buffers (20_memory.md R70, R71) -/

/-- Byte a of a buffer. -/
def Memory.read (m : Memory) (a : Nat) : Byte :=
  match m with
  | [] => unlistedByte
  | (b, v) :: t => if a = b then v else Memory.read t a

/-- Byte a of a buffer set to v, the canonical form kept. -/
def Memory.write (m : Memory) (a : Nat) (v : Byte) : Memory :=
  match m with
  | [] => if v = unlistedByte then [] else [(a, v)]
  | (b, w) :: t =>
    if a < b then (if v = unlistedByte then (b, w) :: t else (a, v) :: (b, w) :: t)
    else if a = b then (if v = unlistedByte then t else (b, v) :: t)
    else (b, w) :: Memory.write t a v

/-- The cells of a buffer at addresses below a. -/
def Memory.below (m : Memory) (a : Nat) : Memory := m.filter (fun c => decide (c.1 < a))

/-- The cells of a buffer at addresses from a on. -/
def Memory.fromAddr (m : Memory) (a : Nat) : Memory := m.filter (fun c => decide (a ≤ c.1))

/-- `zero(m[base..), n)` (00_scope.md R16). -/
def Memory.zero (m : Memory) (base n : Nat) : Memory := m.below base ++ m.fromAddr (base + n)

/-- `copy(dst[dstBase..), src[srcBase..), n)` (00_scope.md R16). -/
def Memory.copy (dst : Memory) (dstBase : Nat) (src : Memory) (srcBase n : Nat) : Memory :=
  dst.below dstBase
    ++ ((src.fromAddr srcBase).below (srcBase + n)).map (fun c => (c.1 - srcBase + dstBase, c.2))
    ++ dst.fromAddr (dstBase + n)

/-- `LiveRead(a, n)`: n bytes, the first the most significant (20_memory.md R70). -/
def liveRead (m : Memory) (a n : Nat) : Nat :=
  match n with
  | 0 => 0
  | k + 1 => liveRead m a k * 256 + (m.read (a + k)).toNat

/-- `LiveWrite(a, n, v)`: n bytes, the most significant first (20_memory.md R70). -/
def liveWrite (m : Memory) (a n v : Nat) : Memory :=
  match n with
  | 0 => m
  | k + 1 => liveWrite (m.write a (BitVec.ofNat 8 (v / 256 ^ k))) (a + 1) k v

/-! ### State access (00_scope.md R15) -/

/-- `M[m]`. -/
def State.modAt (s : State) (m : Slot) : MemModule := s.mods[m.val]

/-- `M[m] <- M`. -/
def State.setMod (s : State) (m : Slot) (M : MemModule) : State := { s with mods := s.mods.set m.val M }

/-- `resp[d]`. -/
def State.responder (s : State) (d : DevId) : Option Slot := s.resp[d.toNat]'(d.isLt)

/-- `emit E` (60_exceptions.md R296). -/
def State.emit (s : State) (e : Event) : State := { s with trace := s.trace ++ [e] }

/-- What the operation returns to the host (30_encoding.md R91). -/
def State.returns (s : State) (r : ReadData) : State := { s with result := r }

/-- The slots 0..NMOD-1 in ascending order (00_scope.md R7). -/
def activeSlots (expansion : Bool) : List Slot := if expansion then [0, 1, 2, 3] else [0, 1]

/-- `for i in lo .. lo+n-1: resp[i] <- o`, on the entries from i on. -/
def fillRange (lo n : Nat) (o : Option Slot) (i : Nat) (l : List (Option Slot)) : List (Option Slot) :=
  match l with
  | [] => []
  | x :: xs => (if lo ≤ i ∧ i < lo + n then o else x) :: fillRange lo n o (i + 1) xs

theorem fillRange_length (lo n : Nat) (o : Option Slot) (i : Nat) (l : List (Option Slot)) :
    (fillRange lo n o i l).length = l.length := by
  induction l generalizing i with
  | nil => rfl
  | cons x xs ih => simp only [fillRange, List.length_cons, ih]

/-- `for i in d .. d+n-1: resp[i] <- o` (40_arbitration.md R131, R135). -/
def fillResp (r : Vector (Option Slot) 512) (d n : Nat) (o : Option Slot) : Vector (Option Slot) 512 :=
  ⟨⟨fillRange d n o 0 r.toArray.toList⟩, by
    simp only [List.size_toArray, fillRange_length]; exact r.size_toArray⟩

/-! ### Degraded conditions (60_exceptions.md section 1) -/

/-- Condition NoResponder (R281): the sticky ack error and the diagnostic. -/
def recordNoResponder (k : AccessKind) (d : DevId) (s : State) : State :=
  { s with status := markAckErr s.status }.emit (.noResponder k d)

/-- Condition GateClosed (R282): the diagnostic alone. -/
def recordGateClosed (m : Slot) (sub : BitVec 8) (s : State) : State := s.emit (.gateClosed m sub)

/-! ### Arbitration (40_arbitration.md) -/

/-- Whether the slot of ID d lies in the window (00_scope.md R19). -/
def inWindow (d : DevId) : Bool := decide (d.toNat < windowIds)

/-- Step 1 of `map(m)` (R131): claim the range, then copy the shadow into the window. -/
def claim (c : Config) (m : Slot) (s : State) : State :=
  let d := (s.modAt m).deviceId
  let live := if inWindow d then
      s.live.copy (d.toNat * idSlotBytes) (s.modAt m).shadow 0 c.capBytes
    else s.live
  { s with resp := fillResp s.resp d.toNat c.capMib (some m), live := live }

/-- Step 2, first half, of `unmap(m)` (R135): save the image while it is in the window. -/
def saveImage (c : Config) (m : Slot) (s : State) : State :=
  let M := s.modAt m
  if inWindow M.deviceId then
    s.setMod m { M with
      shadow := M.shadow.copy 0 s.live (M.deviceId.toNat * idSlotBytes) c.capBytes }
  else s

/-- Step 3 of `unmap(m)` (R135): the smallest active module other than m that claims d. -/
def nextClaimant (s : State) (m : Slot) (d : DevId) : Option Slot :=
  (activeSlots s.expansion).find? (fun j => decide (j ≠ m) && decide ((s.modAt j).deviceId = d))

/-- `unmap(m)` (R135), over the `map` that step 3 invokes. -/
def unmapWith (c : Config) (mapNext : Slot → State → State) (m : Slot) (s : State) : State :=
  let d := (s.modAt m).deviceId
  if s.responder d ≠ some m then s
  else
    let saved := saveImage c m s
    let cleared := { saved with resp := fillResp saved.resp d.toNat c.capMib none }
    match nextClaimant cleared m d with
    | some k => mapNext k cleared
    | none =>
      if inWindow d then
        { cleared with live := cleared.live.zero (d.toNat * idSlotBytes) c.capBytes }
      else cleared

/-- `map(m)` (R131) with `fuel` nested calls of `map` left (R141). -/
def mapFuel (c : Config) (fuel : Nat) (m : Slot) (s : State) : State :=
  match fuel with
  | 0 => s
  | f + 1 =>
    match s.responder (s.modAt m).deviceId with
    | none => claim c m s
    | some r => if m < r then unmapWith c (mapFuel c f) r s else s

/-- `map(m)` (R131): the call depth is bounded by the module count, 4 (R141, notes/assumptions/19.md). -/
def mapModule (c : Config) (m : Slot) (s : State) : State := mapFuel c 4 m s

/-- `unmap(m)` (R135). -/
def unmapModule (c : Config) (m : Slot) (s : State) : State := unmapWith c (mapModule c) m s

/-! ### Module register file (41_module_registers.md) -/

/-- The read value of a selected register (R152 to R159, R175 to R179). -/
def readReg (c : Config) (r : ModReg) (M : MemModule) : Word :=
  match r with
  | .deviceType => c.deviceType
  | .deviceId => idEncode c.layout M.idField
  | .delay => packDelay c.layout M
  | .mode => packMode c M
  | .refInterval => 0
  | .refRow => M.refRow
  | .rasInterval => packRas c.layout M
  | .minInterval => c.minInterval
  | .addrSelect => packSwap c.layout M
  | .deviceManuf => c.manufacturer
  | .row0 => packRow0 c.layout M
  | .row1 => packRow1 c.layout M
  | .none => 0

/-- `ModRead(m, upper, idx, gate)` (R150): the state and the value read. -/
def modRead (c : Config) (m : Slot) (upper : Bool) (idx : RegIdx) (gate : Bool) (s : State) :
    State × Word :=
  if gate = false ∧ alwaysOn (sel upper idx) = false then
    (recordGateClosed m (subAddr upper idx) s, 0)
  else (s, readReg c (sel upper idx) (s.modAt m))

/-- A new effective device ID (R161): unmap at the old ID, change it, map at the new one. -/
def moveModule (c : Config) (m : Slot) (new : DevId) (s : State) : State :=
  let left := unmapModule c m s
  mapModule c m (left.setMod m { left.modAt m with deviceId := new })

/-- The device-identity write (R161). -/
def writeDeviceId (c : Config) (m : Slot) (w : Word) (s : State) : State :=
  let f := idDecode c.layout w
  let new := f &&& c.idMask
  let stored := s.setMod m { s.modAt m with idField := f }
  if new = (s.modAt m).deviceId then stored else moveModule c m new stored

/-- `ModWrite(m, upper, idx, w)` (R151). A read-only register and a reserved index keep everything (R160,
R166, R169, R171, R174). -/
def modWrite (c : Config) (m : Slot) (upper : Bool) (idx : RegIdx) (w : Word) (s : State) : State :=
  match sel upper idx with
  | .deviceType => s
  | .deviceId => writeDeviceId c m w s
  | .delay => s.setMod m (storeDelay c.layout w (s.modAt m))
  | .mode => s.setMod m (storeMode c w (s.modAt m))
  | .refInterval => s
  | .refRow => s.setMod m (storeRefRow c w (s.modAt m))
  | .rasInterval => s.setMod m (storeRas c.layout w (s.modAt m))
  | .minInterval => s
  | .addrSelect => s.setMod m (storeSwap c.layout w (s.modAt m))
  | .deviceManuf => s
  | .row0 => s.setMod m (storeRow0 c.layout w (s.modAt m))
  | .row1 => s.setMod m (storeRow1 c.layout w (s.modAt m))
  | .none => s

/-! ### Registry register-word dispatch (42_registry_dispatch.md) -/

/-- `RegRead(a, GATE)` (R201) on the decoded fields of the address. -/
def regRead (c : Config) (id : DevId) (upper : Bool) (idx : RegIdx) (gate : Bool) (s : State) : State :=
  let looked := match s.responder id with
    | none => (recordNoResponder .registerRead id s, 0)
    | some r => modRead c r upper idx gate s
  (looked.1.emit (.hookReg .read (.id id) (subAddr upper idx) looked.2)).returns (.word looked.2)

/-- `RegWrite(a, w)` (R202) on the decoded fields of the address. -/
def regWrite (c : Config) (bc : Bool) (id : DevId) (upper : Bool) (idx : RegIdx) (w : Word) (s : State) :
    State :=
  if bc then
    (((activeSlots s.expansion).foldl (fun t m => modWrite c m upper idx w t) s).emit
      (.hookReg .write .broadcast (subAddr upper idx) w)).returns .nothing
  else
    let done := match s.responder id with
      | none => recordNoResponder .registerWrite id s
      | some r => modWrite c r upper idx w s
    (done.emit (.hookReg .write (.id id) (subAddr upper idx) w)).returns .nothing

/-! ### RI register file (43_ri_registers.md) -/

/-- `RiRead(a)` (R220): the value of the register, and the hook event. -/
def riRead (ridx : BitVec 3) (v : Word) (s : State) : State :=
  (s.emit (.hookReg .read .ri (ridx.setWidth 8) v)).returns (.word v)

/-- `RiWrite(a, w)` (R220): the write rule's state, and the hook event. -/
def riWrite (ridx : BitVec 3) (w : Word) (s : State) : State :=
  (s.emit (.hookReg .write .ri (ridx.setWidth 8) w)).returns .nothing

/-! ### Memory access path (44_memory_access.md) -/

/-- Why a memory-port access of n bytes at a is not admitted, or none (R250, notes/assumptions/13.md). -/
def admission (a : BitVec 32) (n : Nat) : Option Refusal :=
  if memSpaceBytes ≤ a.toNat then some .addressOutOfIdSpace
  else if a.toNat % n ≠ 0 then some .misaligned
  else none

/-- The sensed-row latch of the responder (R254). -/
def latchRow (c : Config) (a : Nat) (M : MemModule) : MemModule :=
  if rowSel c a then { M with row1 := rowVal c.layout a } else { M with row0 := rowVal c.layout a }

/-- The kind of a memory access without a responder (R251). -/
def memKind (dir : Dir) : AccessKind :=
  match dir with
  | .read => .memoryRead
  | .write => .memoryWrite

/-- `Book(a, isWrite)` (R251). -/
def book (c : Config) (a : Nat) (dir : Dir) (s : State) : State :=
  let marked := { s with status := markBank (bank c.layout a) dir s.status }
  match s.responder (memId c.layout a) with
  | none => recordNoResponder (memKind dir) (memId c.layout a) marked
  | some r => marked.setMod r (latchRow c a (s.modAt r))

/-- `Xfer(a, n, resp[MemId(a)])` (R255). -/
def transfers (c : Config) (s : State) (a n : Nat) : Bool :=
  match s.responder (memId c.layout a) with
  | none => false
  | some r => (s.modAt r).valid && decide (a + n ≤ liveBytes)

/-- `if tag is not empty then emit E` (R256 to R258). -/
def hookMemIf (tag : Tag) (e : Event) (s : State) : State := if tag.isEmpty then s else s.emit e

/-- `MemRead(a, n, tag)` (R256): the state and the value read. -/
def memRead (c : Config) (a n : Nat) (tag : Tag) (s : State) : State × Nat :=
  (hookMemIf tag (.hookMem .read a n none) (book c a .read s),
    if transfers c s a n then liveRead s.live a n else 0)

/-- `MemWrite(a, n, v, tag)` (R257). -/
def memWrite (c : Config) (a n v : Nat) (tag : Tag) (s : State) : State :=
  let booked := book c a .write s
  let stored := if transfers c s a n then { booked with live := liveWrite booked.live a n v } else booked
  hookMemIf tag (.hookMem .write a n (some (BitVec.ofNat 64 v))) stored

/-- The words of a burst read from a on, k of them (R260). -/
def burstWords (c : Config) (a k : Nat) (s : State) : State × List Word :=
  match k with
  | 0 => (s, [])
  | k + 1 =>
    let first := memRead c a 4 [] s
    let rest := burstWords c (a + 4) k first.1
    (rest.1, BitVec.ofNat 32 first.2 :: rest.2)

/-- `BurstRead(a, k)` (R260): beyond the live buffer, zeros and no bookkeeping. -/
def burstRead (c : Config) (a k : Nat) (s : State) : State × List Word :=
  if liveBytes ≤ a then (s, List.replicate k 0) else burstWords c a k s

/-- The words of a burst written from a on (R261). -/
def burstStores (c : Config) (a : Nat) (ws : List Word) (s : State) : State :=
  match ws with
  | [] => s
  | w :: rest => burstStores c (a + 4) rest (memWrite c a 4 w.toNat [] s)

/-- `BurstWrite(a, k, in)` (R261): beyond the live buffer, nothing. -/
def burstWrite (c : Config) (a : Nat) (ws : List Word) (s : State) : State :=
  if liveBytes ≤ a then s else burstStores c a ws s

/-- A memory-port operation of n bytes at a: refused where not admitted (R250), else the state it leaves. -/
def memOp (a : BitVec 32) (n : Nat) (t : State) : Host.Outcome State Fault Refusal :=
  match admission a n with
  | some r => .refused r
  | none => .next t

/-- The state of a read that leaves `p.1` and returns the value `p.2` in the shape f. -/
def returning {α : Type} (p : State × α) (f : α → ReadData) : State := p.1.returns (f p.2)

/-- What an external reader sees at a: `LiveRead(a, n)` inside the live buffer, no side effect
(60_exceptions.md R301). No step. -/
def State.peek (s : State) (a n : Nat) : Option Nat :=
  if a + n ≤ liveBytes then some (liveRead s.live a n) else none

/-! ### Reset (70_reset_and_hazards.md R310) -/

/-- The state before the initial maps: everything at its reset value, no responder anywhere. The host's
operations not yet performed are not the block's to drop. -/
def clearedState (c : Config) (exp : Bool) (s : State) : State where
  expansion := exp
  mods := Vector.replicate 4 factoryModule
  live := []
  resp := Vector.replicate 512 none
  status := Status.initial c
  ri := Ri.initial
  trace := s.trace
  result := .nothing
  pending := s.pending

/-- `RESET(exp)` (R310): the initial maps in ascending order, then an empty trace. -/
def resetBlock (c : Config) (exp : Bool) (s : State) : State :=
  { (activeSlots exp).foldl (fun t m => mapModule c m t) (clearedState c exp s) with trace := [] }

end Sys2Proof.Machine
end

