-- ==== Sys2Proof/Machine/Ctrl.lean ====
section
/-! DEFINITION. Reset (70_reset_and_hazards.md). -/

namespace Sys2Proof.Machine

/-- `RESET` (R310). -/
def execReset (exp : Bool) (s : State) : Host.Outcome State Fault Refusal :=
  .next (resetBlock Config.impl exp s)

end Sys2Proof.Machine
end

