-- ==== Sys2Proof/Machine/MemAccess.lean ====
section
/-! DEFINITION. The twelve operations of the memory port (44_memory_access.md section 2). -/

namespace Sys2Proof.Machine

/-- `LD.B` (R262). -/
def execLdB (a : BitVec 32) (tag : Tag) (s : State) : Host.Outcome State Fault Refusal :=
  memOp a 1 (returning (memRead Config.impl a.toNat 1 tag s) (fun v => .byte (BitVec.ofNat 8 v)))

/-- `LD.H` (R263). -/
def execLdH (a : BitVec 32) (tag : Tag) (s : State) : Host.Outcome State Fault Refusal :=
  memOp a 2 (returning (memRead Config.impl a.toNat 2 tag s) (fun v => .half (BitVec.ofNat 16 v)))

/-- `LD.W` (R264). -/
def execLdW (a : BitVec 32) (tag : Tag) (s : State) : Host.Outcome State Fault Refusal :=
  memOp a 4 (returning (memRead Config.impl a.toNat 4 tag s) (fun v => .word (BitVec.ofNat 32 v)))

/-- `LD.D` (R265). -/
def execLdD (a : BitVec 32) (tag : Tag) (s : State) : Host.Outcome State Fault Refusal :=
  memOp a 8 (returning (memRead Config.impl a.toNat 8 tag s) (fun v => .dword (BitVec.ofNat 64 v)))

/-- `LDB4` (R270). -/
def execLdb4 (a : BitVec 32) (s : State) : Host.Outcome State Fault Refusal :=
  memOp a 16 (returning (burstRead Config.impl a.toNat 4 s) (fun ws => .words ws))

/-- `LDB8` (R271). -/
def execLdb8 (a : BitVec 32) (s : State) : Host.Outcome State Fault Refusal :=
  memOp a 32 (returning (burstRead Config.impl a.toNat 8 s) (fun ws => .words ws))

/-- `ST.B` (R266). -/
def execStB (a : BitVec 32) (v : BitVec 8) (tag : Tag) (s : State) : Host.Outcome State Fault Refusal :=
  memOp a 1 ((memWrite Config.impl a.toNat 1 v.toNat tag s).returns .nothing)

/-- `ST.H` (R267). -/
def execStH (a : BitVec 32) (v : BitVec 16) (tag : Tag) (s : State) : Host.Outcome State Fault Refusal :=
  memOp a 2 ((memWrite Config.impl a.toNat 2 v.toNat tag s).returns .nothing)

/-- `ST.W` (R268). -/
def execStW (a : BitVec 32) (v : BitVec 32) (tag : Tag) (s : State) : Host.Outcome State Fault Refusal :=
  memOp a 4 ((memWrite Config.impl a.toNat 4 v.toNat tag s).returns .nothing)

/-- `ST.D` (R269). -/
def execStD (a : BitVec 32) (v : BitVec 64) (tag : Tag) (s : State) : Host.Outcome State Fault Refusal :=
  memOp a 8 ((memWrite Config.impl a.toNat 8 v.toNat tag s).returns .nothing)

/-- `STB4` (R272). -/
def execStb4 (a : BitVec 32) (w0 w1 w2 w3 : Word) (s : State) : Host.Outcome State Fault Refusal :=
  memOp a 16 ((burstWrite Config.impl a.toNat [w0, w1, w2, w3] s).returns .nothing)

/-- `STB8` (R273). -/
def execStb8 (a : BitVec 32) (w0 w1 w2 w3 w4 w5 w6 w7 : Word) (s : State) :
    Host.Outcome State Fault Refusal :=
  memOp a 32 ((burstWrite Config.impl a.toNat [w0, w1, w2, w3, w4, w5, w6, w7] s).returns .nothing)

end Sys2Proof.Machine
end

