-- ==== Sys2Proof/Machine/RegReads.lean ====
section
/-! DEFINITION. The thirteen reads of the Registry register port (41_module_registers.md section 2). -/

namespace Sys2Proof.Machine

/-- `RR.DEVICE_TYPE` (R152). -/
def execRrDeviceType (id : DevId) (gate : Bool) (s : State) : Host.Outcome State Fault Refusal :=
  .next (regRead Config.impl id false 0 gate s)

/-- `RR.DEVICE_ID` (R153). -/
def execRrDeviceId (id : DevId) (gate : Bool) (s : State) : Host.Outcome State Fault Refusal :=
  .next (regRead Config.impl id false 1 gate s)

/-- `RR.DELAY` (R154). -/
def execRrDelay (id : DevId) (upper : Bool) (gate : Bool) (s : State) : Host.Outcome State Fault Refusal :=
  .next (regRead Config.impl id upper 2 gate s)

/-- `RR.MODE` (R155). -/
def execRrMode (id : DevId) (upper : Bool) (gate : Bool) (s : State) : Host.Outcome State Fault Refusal :=
  .next (regRead Config.impl id upper 3 gate s)

/-- `RR.REF_INTERVAL` (R156). -/
def execRrRefInterval (id : DevId) (upper : Bool) (gate : Bool) (s : State) :
    Host.Outcome State Fault Refusal :=
  .next (regRead Config.impl id upper 4 gate s)

/-- `RR.REF_ROW` (R157). -/
def execRrRefRow (id : DevId) (upper : Bool) (gate : Bool) (s : State) : Host.Outcome State Fault Refusal :=
  .next (regRead Config.impl id upper 5 gate s)

/-- `RR.RAS_INTERVAL` (R158). -/
def execRrRasInterval (id : DevId) (upper : Bool) (gate : Bool) (s : State) :
    Host.Outcome State Fault Refusal :=
  .next (regRead Config.impl id upper 6 gate s)

/-- `RR.MIN_INTERVAL` (R159). -/
def execRrMinInterval (id : DevId) (upper : Bool) (gate : Bool) (s : State) :
    Host.Outcome State Fault Refusal :=
  .next (regRead Config.impl id upper 7 gate s)

/-- `RR.ADDR_SELECT` (R175). -/
def execRrAddrSelect (id : DevId) (upper : Bool) (gate : Bool) (s : State) :
    Host.Outcome State Fault Refusal :=
  .next (regRead Config.impl id upper 8 gate s)

/-- `RR.DEVICE_MANUF` (R176). -/
def execRrDeviceManuf (id : DevId) (upper : Bool) (gate : Bool) (s : State) :
    Host.Outcome State Fault Refusal :=
  .next (regRead Config.impl id upper 9 gate s)

/-- `RR.ROW0` (R177). -/
def execRrRow0 (id : DevId) (gate : Bool) (s : State) : Host.Outcome State Fault Refusal :=
  .next (regRead Config.impl id true 0 gate s)

/-- `RR.ROW1` (R178). -/
def execRrRow1 (id : DevId) (gate : Bool) (s : State) : Host.Outcome State Fault Refusal :=
  .next (regRead Config.impl id true 1 gate s)

/-- `RR.NONE` (R179). -/
def execRrNone (id : DevId) (upper : Bool) (idx : RegIdx) (gate : Bool) (s : State) :
    Host.Outcome State Fault Refusal :=
  .next (regRead Config.impl id upper idx gate s)

end Sys2Proof.Machine
end

