-- ==== Sys2Proof/Machine/RegWrites.lean ====
section
/-! DEFINITION. The thirteen writes of the Registry register port (41_module_registers.md section 3). -/

namespace Sys2Proof.Machine

/-- `RW.DEVICE_TYPE` (R160). -/
def execRwDeviceType (bc : Bool) (id : DevId) (w : Word) (s : State) : Host.Outcome State Fault Refusal :=
  .next (regWrite Config.impl bc id false 0 w s)

/-- `RW.DEVICE_ID` (R161). -/
def execRwDeviceId (bc : Bool) (id : DevId) (w : Word) (s : State) : Host.Outcome State Fault Refusal :=
  .next (regWrite Config.impl bc id false 1 w s)

/-- `RW.DELAY` (R163). -/
def execRwDelay (bc : Bool) (id : DevId) (upper : Bool) (w : Word) (s : State) :
    Host.Outcome State Fault Refusal :=
  .next (regWrite Config.impl bc id upper 2 w s)

/-- `RW.MODE` (R165). -/
def execRwMode (bc : Bool) (id : DevId) (upper : Bool) (w : Word) (s : State) :
    Host.Outcome State Fault Refusal :=
  .next (regWrite Config.impl bc id upper 3 w s)

/-- `RW.REF_INTERVAL` (R166). -/
def execRwRefInterval (bc : Bool) (id : DevId) (upper : Bool) (w : Word) (s : State) :
    Host.Outcome State Fault Refusal :=
  .next (regWrite Config.impl bc id upper 4 w s)

/-- `RW.REF_ROW` (R167). -/
def execRwRefRow (bc : Bool) (id : DevId) (upper : Bool) (w : Word) (s : State) :
    Host.Outcome State Fault Refusal :=
  .next (regWrite Config.impl bc id upper 5 w s)

/-- `RW.RAS_INTERVAL` (R168). -/
def execRwRasInterval (bc : Bool) (id : DevId) (upper : Bool) (w : Word) (s : State) :
    Host.Outcome State Fault Refusal :=
  .next (regWrite Config.impl bc id upper 6 w s)

/-- `RW.MIN_INTERVAL` (R169). -/
def execRwMinInterval (bc : Bool) (id : DevId) (upper : Bool) (w : Word) (s : State) :
    Host.Outcome State Fault Refusal :=
  .next (regWrite Config.impl bc id upper 7 w s)

/-- `RW.ADDR_SELECT` (R170). -/
def execRwAddrSelect (bc : Bool) (id : DevId) (upper : Bool) (w : Word) (s : State) :
    Host.Outcome State Fault Refusal :=
  .next (regWrite Config.impl bc id upper 8 w s)

/-- `RW.DEVICE_MANUF` (R171). -/
def execRwDeviceManuf (bc : Bool) (id : DevId) (upper : Bool) (w : Word) (s : State) :
    Host.Outcome State Fault Refusal :=
  .next (regWrite Config.impl bc id upper 9 w s)

/-- `RW.ROW0` (R172). -/
def execRwRow0 (bc : Bool) (id : DevId) (w : Word) (s : State) : Host.Outcome State Fault Refusal :=
  .next (regWrite Config.impl bc id true 0 w s)

/-- `RW.ROW1` (R173). -/
def execRwRow1 (bc : Bool) (id : DevId) (w : Word) (s : State) : Host.Outcome State Fault Refusal :=
  .next (regWrite Config.impl bc id true 1 w s)

/-- `RW.NONE` (R174). -/
def execRwNone (bc : Bool) (id : DevId) (upper : Bool) (idx : RegIdx) (w : Word) (s : State) :
    Host.Outcome State Fault Refusal :=
  .next (regWrite Config.impl bc id upper idx w s)

end Sys2Proof.Machine
end

