-- ==== Sys2Proof/Machine/RiAccess.lean ====
section
/-! DEFINITION. The sixteen operations of the RI register port (43_ri_registers.md). -/

namespace Sys2Proof.Machine

/-- `RIR.MODE` (R221). -/
def execRirMode (s : State) : Host.Outcome State Fault Refusal :=
  .next (riRead 0 (packRiMode Config.impl.layout s.ri) s)

/-- `RIR.CONFIG` (R223). -/
def execRirConfig (s : State) : Host.Outcome State Fault Refusal :=
  .next (riRead 1 (packRiConfig Config.impl.layout s.ri) s)

/-- `RIR.CURRENT_LOAD` (R225). -/
def execRirCurrentLoad (s : State) : Host.Outcome State Fault Refusal :=
  .next (riRead 2 0 s)

/-- `RIR.SELECT` (R227). -/
def execRirSelect (s : State) : Host.Outcome State Fault Refusal :=
  .next (riRead 3 (packRiSelect Config.impl.layout s.ri) s)

/-- `RIR.REFRESH` (R229). -/
def execRirRefresh (s : State) : Host.Outcome State Fault Refusal :=
  .next (riRead 4 (packRiRefresh Config.impl.layout s.ri) s)

/-- `RIR.LATENCY` (R231). -/
def execRirLatency (s : State) : Host.Outcome State Fault Refusal :=
  .next (riRead 5 (packRiLatency Config.impl.layout s.ri) s)

/-- `RIR.ERROR` (R236). -/
def execRirError (s : State) : Host.Outcome State Fault Refusal :=
  .next (riRead 6 (packError Config.impl.layout s.status) s)

/-- `RIR.BANK_STATUS` (R238). -/
def execRirBankStatus (s : State) : Host.Outcome State Fault Refusal :=
  .next (riRead 7 (packBankStatus Config.impl.layout s.status) s)

/-- `RIW.MODE` (R222). -/
def execRiwMode (w : Word) (s : State) : Host.Outcome State Fault Refusal :=
  .next (riWrite 0 w { s with ri := storeRiMode Config.impl.layout w s.ri })

/-- `RIW.CONFIG` (R224). -/
def execRiwConfig (w : Word) (s : State) : Host.Outcome State Fault Refusal :=
  .next (riWrite 1 w { s with ri := storeRiConfig Config.impl.layout w s.ri })

/-- `RIW.CURRENT_LOAD` (R226). -/
def execRiwCurrentLoad (w : Word) (s : State) : Host.Outcome State Fault Refusal :=
  .next (riWrite 2 w s)

/-- `RIW.SELECT` (R228). -/
def execRiwSelect (w : Word) (s : State) : Host.Outcome State Fault Refusal :=
  .next (riWrite 3 w { s with ri := storeRiSelect Config.impl.layout w s.ri })

/-- `RIW.REFRESH` (R230). -/
def execRiwRefresh (w : Word) (s : State) : Host.Outcome State Fault Refusal :=
  .next (riWrite 4 w { s with ri := storeRiRefresh Config.impl.layout w s.ri })

/-- `RIW.LATENCY` (R232). -/
def execRiwLatency (w : Word) (s : State) : Host.Outcome State Fault Refusal :=
  .next (riWrite 5 w { s with ri := storeRiLatency Config.impl.layout w s.ri })

/-- `RIW.ERROR` (R237). -/
def execRiwError (w : Word) (s : State) : Host.Outcome State Fault Refusal :=
  .next (riWrite 6 w { s with status := clearErrors s.status })

/-- `RIW.BANK_STATUS` (R239). -/
def execRiwBankStatus (w : Word) (s : State) : Host.Outcome State Fault Refusal :=
  .next (riWrite 7 w { s with status := clearBanks Config.impl s.status })

end Sys2Proof.Machine
end

