-- ==== Sys2Proof/Machine/Dispatch.lean ====
section
/-! DEFINITION. One arm per operation. -/

namespace Sys2Proof.Machine

def exec (i : Instr) (s : State) : Host.Outcome State Fault Refusal :=
  match i with
  | .ldB a tag => Sys2Proof.Machine.execLdB a tag s
  | .ldH a tag => Sys2Proof.Machine.execLdH a tag s
  | .ldW a tag => Sys2Proof.Machine.execLdW a tag s
  | .ldD a tag => Sys2Proof.Machine.execLdD a tag s
  | .ldb4 a => Sys2Proof.Machine.execLdb4 a s
  | .ldb8 a => Sys2Proof.Machine.execLdb8 a s
  | .stB a v tag => Sys2Proof.Machine.execStB a v tag s
  | .stH a v tag => Sys2Proof.Machine.execStH a v tag s
  | .stW a v tag => Sys2Proof.Machine.execStW a v tag s
  | .stD a v tag => Sys2Proof.Machine.execStD a v tag s
  | .stb4 a w0 w1 w2 w3 => Sys2Proof.Machine.execStb4 a w0 w1 w2 w3 s
  | .stb8 a w0 w1 w2 w3 w4 w5 w6 w7 => Sys2Proof.Machine.execStb8 a w0 w1 w2 w3 w4 w5 w6 w7 s
  | .rrDeviceType id gate => Sys2Proof.Machine.execRrDeviceType id gate s
  | .rrDeviceId id gate => Sys2Proof.Machine.execRrDeviceId id gate s
  | .rrDelay id upper gate => Sys2Proof.Machine.execRrDelay id upper gate s
  | .rrMode id upper gate => Sys2Proof.Machine.execRrMode id upper gate s
  | .rrRefInterval id upper gate => Sys2Proof.Machine.execRrRefInterval id upper gate s
  | .rrRefRow id upper gate => Sys2Proof.Machine.execRrRefRow id upper gate s
  | .rrRasInterval id upper gate => Sys2Proof.Machine.execRrRasInterval id upper gate s
  | .rrMinInterval id upper gate => Sys2Proof.Machine.execRrMinInterval id upper gate s
  | .rrAddrSelect id upper gate => Sys2Proof.Machine.execRrAddrSelect id upper gate s
  | .rrDeviceManuf id upper gate => Sys2Proof.Machine.execRrDeviceManuf id upper gate s
  | .rrRow0 id gate => Sys2Proof.Machine.execRrRow0 id gate s
  | .rrRow1 id gate => Sys2Proof.Machine.execRrRow1 id gate s
  | .rrNone id upper idx gate => Sys2Proof.Machine.execRrNone id upper idx gate s
  | .rwDeviceType bc id w => Sys2Proof.Machine.execRwDeviceType bc id w s
  | .rwDeviceId bc id w => Sys2Proof.Machine.execRwDeviceId bc id w s
  | .rwDelay bc id upper w => Sys2Proof.Machine.execRwDelay bc id upper w s
  | .rwMode bc id upper w => Sys2Proof.Machine.execRwMode bc id upper w s
  | .rwRefInterval bc id upper w => Sys2Proof.Machine.execRwRefInterval bc id upper w s
  | .rwRefRow bc id upper w => Sys2Proof.Machine.execRwRefRow bc id upper w s
  | .rwRasInterval bc id upper w => Sys2Proof.Machine.execRwRasInterval bc id upper w s
  | .rwMinInterval bc id upper w => Sys2Proof.Machine.execRwMinInterval bc id upper w s
  | .rwAddrSelect bc id upper w => Sys2Proof.Machine.execRwAddrSelect bc id upper w s
  | .rwDeviceManuf bc id upper w => Sys2Proof.Machine.execRwDeviceManuf bc id upper w s
  | .rwRow0 bc id w => Sys2Proof.Machine.execRwRow0 bc id w s
  | .rwRow1 bc id w => Sys2Proof.Machine.execRwRow1 bc id w s
  | .rwNone bc id upper idx w => Sys2Proof.Machine.execRwNone bc id upper idx w s
  | .rirMode => Sys2Proof.Machine.execRirMode s
  | .rirConfig => Sys2Proof.Machine.execRirConfig s
  | .rirCurrentLoad => Sys2Proof.Machine.execRirCurrentLoad s
  | .rirSelect => Sys2Proof.Machine.execRirSelect s
  | .rirRefresh => Sys2Proof.Machine.execRirRefresh s
  | .rirLatency => Sys2Proof.Machine.execRirLatency s
  | .rirError => Sys2Proof.Machine.execRirError s
  | .rirBankStatus => Sys2Proof.Machine.execRirBankStatus s
  | .riwMode w => Sys2Proof.Machine.execRiwMode w s
  | .riwConfig w => Sys2Proof.Machine.execRiwConfig w s
  | .riwCurrentLoad w => Sys2Proof.Machine.execRiwCurrentLoad w s
  | .riwSelect w => Sys2Proof.Machine.execRiwSelect w s
  | .riwRefresh w => Sys2Proof.Machine.execRiwRefresh w s
  | .riwLatency w => Sys2Proof.Machine.execRiwLatency w s
  | .riwError w => Sys2Proof.Machine.execRiwError w s
  | .riwBankStatus w => Sys2Proof.Machine.execRiwBankStatus w s
  | .reset exp => Sys2Proof.Machine.execReset exp s

end Sys2Proof.Machine
end

