-- ==== Sys2Proof/Machine/Step.lean ====
section
/-! DEFINITION. One step: the block performs the next operation the host has issued (60_exceptions.md R293,
notes/assumptions/1.md and 2.md). -/

namespace Sys2Proof.Machine

/-- One step. With no operation issued the block does nothing of itself (00_scope.md R2); a command word
that selects no operation is refused (30_encoding.md R93). -/
def step (s : State) : Host.Outcome State Fault Refusal :=
  match s.pending with
  | [] => .next s
  | r :: rest =>
    match decode r with
    | .error e => .refused (.invalidCommandWord e)
    | .ok i => exec i { s with pending := rest }

/-- The state with a table row's word as the next operation the host issues. -/
def State.withFetchWord (s : State) (nbits w : Nat) : State :=
  { s with pending := tableRequest nbits w :: s.pending }

end Sys2Proof.Machine
end

