-- ==== Sys2Proof/Machine/Script.lean ====
section
/-! DEFINITION. The address expressions and pseudo-operations of the script syntax (30_encoding.md R124,
R125): the transactions they expand to. No step uses them. -/

namespace Sys2Proof.Machine

/-- `rw a, w` (R124). -/
def scriptRw (a w : BitVec 32) : Request := ⟨mkCw 1 true 2 a, w.setWidth 256, [], false, false⟩

/-- `rr a` with the gate input the last `gate` line left (R124). -/
def scriptRr (a : BitVec 32) (gate : Bool) : Request := ⟨mkCw 1 false 2 a, 0, [], gate, false⟩

/-- `riw a, w` (R124). -/
def scriptRiw (a w : BitVec 32) : Request := ⟨mkCw 2 true 2 a, w.setWidth 256, [], false, false⟩

/-- `rir a` (R124). -/
def scriptRir (a : BitVec 32) : Request := ⟨mkCw 2 false 2 a, 0, [], false, false⟩

/-- `reset exp=...` (R124). -/
def scriptReset (exp : Bool) : Request :=
  ⟨mkCw 3 true 0 ((BitVec.ofBool exp).setWidth 32), 0, [], false, false⟩

/-- `REG(id, off) = (id << 10) OR off` (R125). -/
def scriptReg (l : Layout) (id : DevId) (off : Word) : Word := scatter l.addrId id ||| off

/-- `BC(off) = 0x8_0000 OR off` (R125). -/
def scriptBc (l : Layout) (off : Word) : Word := placeBit true l.addrBc ||| off

/-- `RIREG(off) = off` (R125). -/
def scriptRireg (off : Word) : Word := off

/-- `ld.b`, `ld.h`, `ld.w`, `ld.d a tag=...` of size code 0 to 3, `ldb4`, `ldb8` of size code 4, 5
without a tag (R124). -/
def scriptLd (sz : BitVec 3) (a : BitVec 32) (tag : Tag) : Request :=
  ⟨mkCw 0 false sz a, 0, tag, false, false⟩

/-- `st.b`, `st.h`, `st.w`, `st.d a, v tag=...` of size code 0 to 3 (R124). -/
def scriptSt (sz : BitVec 3) (a : BitVec 32) (v : BitVec 64) (tag : Tag) : Request :=
  ⟨mkCw 0 true sz a, v.setWidth 256, tag, false, false⟩

/-- `stb4 a, w0, w1, w2, w3` (R124). -/
def scriptStb4 (a : BitVec 32) (w0 w1 w2 w3 : Word) : Request :=
  ⟨mkCw 0 true 4 a, packWords4 w0 w1 w2 w3, [], false, false⟩

/-- `stb8 a, w0, ..., w7` (R124). -/
def scriptStb8 (a : BitVec 32) (w0 w1 w2 w3 w4 w5 w6 w7 : Word) : Request :=
  ⟨mkCw 0 true 5 a, packWords8 w0 w1 w2 w3 w4 w5 w6 w7, [], false, false⟩

/-- `setid id, new` (R125). -/
def setid (l : Layout) (id new : DevId) : Request := scriptRw (scriptReg l id 4) (idEncode l new)

/-- `setid.bc new` (R125). -/
def setidBc (l : Layout) (new : DevId) : Request := scriptRw (scriptBc l 4) (idEncode l new)

/-- `setmode id, ce, x2, de, cc` (R125). -/
def setmode (c : Config) (id : DevId) (ce x2 de : Bool) (cc : BitVec 6) : Request :=
  scriptRw (scriptReg c.layout id 0xC) (modeWord c ce x2 de cc)

/-- `setmode.bc ce, x2, de, cc` (R125). -/
def setmodeBc (c : Config) (ce x2 de : Bool) (cc : BitVec 6) : Request :=
  scriptRw (scriptBc c.layout 0xC) (modeWord c ce x2 de cc)

/-- `clrerr` (R125). -/
def clrerr : Request := scriptRiw 0x18 0

/-- `clrbank` (R125). -/
def clrbank : Request := scriptRiw 0x1C 0

/-- One line of a script that sets an input or issues an operation (R124). A `peek` line is no operation
of the block: it is `State.peek` between two steps. -/
inductive ScriptLine where
  /-- `gate 0` or `gate 1`. -/
  | gate (isOpen : Bool)
  /-- `rr a`: takes the gate input the last `gate` line left. -/
  | rr (a : BitVec 32)
  /-- Any other line, already expanded. -/
  | op (r : Request)
deriving DecidableEq, Repr

/-- The operations a script issues, the gate input being `gate` before its first line (R124). -/
def scriptRequests (gate : Bool) (lines : List ScriptLine) : List Request :=
  match lines with
  | [] => []
  | .gate g :: rest => scriptRequests g rest
  | .rr a :: rest => scriptRr a gate :: scriptRequests gate rest
  | .op r :: rest => r :: scriptRequests gate rest

/-- The operations of the boot sequence (70_reset_and_hazards.md R316), from the reset with four
modules to the two clears; its `gate 1` line is no operation (R124). -/
def bootScript (c : Config) : List Request :=
  let move := setid c.layout
  [scriptReset true, move 0 0x1FE, move 0 0x1FC, move 0 0x1FA, move 0 6, move 0x1FA 4,
    move 0x1FC 2, move 0x1FE 0, setmodeBc c false false true 32, clrerr, clrbank]

end Sys2Proof.Machine
end

