-- ==== Sys2Proof/Safety.lean ====
section
/-! DEFINITION. The terms the statements use: the invariants of 10_state.md R47 and R48 and of
40_arbitration.md R138, what an access is to leave behind, and a module's image. -/

namespace Sys2Proof.Machine

/-- NMOD (00_scope.md R7). -/
def nmod (expansion : Bool) : Nat := if expansion then 4 else 2

/-- Module m exists (R7). -/
def Active (s : State) (m : Slot) : Prop := m.val < nmod s.expansion

/-- The claimed range of a module (00_scope.md R19). -/
def Claims (c : Config) (M : MemModule) (i : Nat) : Prop :=
  M.deviceId.toNat ≤ i ∧ i < M.deviceId.toNat + c.capMib

/-! ### Invariants -/

/-- The derived fields of one module (10_state.md R48). -/
structure ModuleInv (c : Config) (M : MemModule) : Prop where
  deviceId_eq : M.deviceId = M.idField &&& c.idMask
  valid_eq : M.valid = (M.de && decide (c.ccWinLo.val ≤ M.cc.toNat ∧ M.cc.toNat ≤ c.ccWinHi.val))

/-- The derived fields of every module (R48). -/
def ModulesInv (c : Config) (s : State) : Prop := ∀ m, Active s m → ModuleInv c (s.modAt m)

/-- The responder invariant (10_state.md R47): (b) a module answers at no ID or at exactly its claimed
range, and (c) a claimed ID has its smallest claimant as responder. Clause (a) is the type of `resp`. -/
structure ResponderInv (c : Config) (s : State) : Prop where
  range : ∀ (i : Fin 512) (m : Slot), s.resp[i] = some m →
    Active s m ∧ ∀ j : Fin 512, s.resp[j] = some m ↔ Claims c (s.modAt m) j.val
  least : ∀ k, Active s k → ∃ r, s.responder (s.modAt k).deviceId = some r ∧ Active s r ∧
    (s.modAt r).deviceId = (s.modAt k).deviceId ∧
    ∀ j, Active s j → (s.modAt j).deviceId = (s.modAt k).deviceId → r ≤ j

/-- Every buffer is in canonical form and lists no byte beyond its size (10_state.md R36, R37). -/
structure BufferInv (c : Config) (s : State) : Prop where
  live_wf : s.live.wf
  live_size : ∀ x ∈ s.live, x.1 < liveBytes
  shadow_wf : ∀ m, (s.modAt m).shadow.wf
  shadow_size : ∀ m, ∀ x ∈ (s.modAt m).shadow, x.1 < c.capBytes

/-- A slot of the window without a responder holds only zero bytes (40_arbitration.md R138). -/
def ZeroSlots (s : State) : Prop :=
  ∀ i : Fin 512, i.val < windowIds → s.resp[i] = none →
    ∀ a, i.val * idSlotBytes ≤ a → a < (i.val + 1) * idSlotBytes → s.live.read a = 0#8

/-- All of them together. -/
structure Inv (c : Config) (s : State) : Prop where
  modules : ModulesInv c s
  responders : ResponderInv c s
  buffers : BufferInv c s
  zeroSlots : ZeroSlots s

/-! ### Images -/

/-- Byte o of a module's contents: in the window where the module is visible, else in its shadow
(10_state.md R36). -/
def imageByte (s : State) (m : Slot) (o : Nat) : Byte :=
  if s.responder (s.modAt m).deviceId = some m ∧ (s.modAt m).deviceId.toNat < windowIds then
    s.live.read ((s.modAt m).deviceId.toNat * idSlotBytes + o)
  else (s.modAt m).shadow.read o

/-- Two modules agree in every register field (all but the shadow). -/
def SameRegisters (M N : MemModule) : Prop := { M with shadow := [] } = { N with shadow := [] }

/-- Two modules agree in every register field but the identity. -/
def SameButId (M N : MemModule) : Prop :=
  SameRegisters { M with deviceId := 0, idField := 0 } { N with deviceId := 0, idField := 0 }

/-! ### Memory accesses -/

/-- The data of an access of n bytes at a is transferred (44_memory_access.md R255). -/
def DataMoves (s : State) (a n : Nat) : Prop :=
  ∃ r, s.responder (memId specLayout a) = some r ∧ (s.modAt r).valid = true ∧ a + n ≤ liveBytes

/-- The four bookkeeping effects of an access at a, and all they leave alone (44_memory_access.md R251,
R253, R254). -/
structure Booked (c : Config) (dir : Dir) (a : Nat) (s t : State) : Prop where
  valid : ∀ b < 8, t.status.valid.getLsbD b = (s.status.valid.getLsbD b || decide (a / 2 ^ 20 = b))
  dirty : ∀ b < 8, t.status.dirty.getLsbD b =
    (s.status.dirty.getLsbD b || (decide (dir = .write) && decide (a / 2 ^ 20 = b)))
  overErr : t.status.overErr = (s.status.overErr || decide (8 ≤ a / 2 ^ 20))
  ackErr : t.status.ackErr = (s.status.ackErr || (s.responder (memId specLayout a)).isNone)
  nackErr : t.status.nackErr = s.status.nackErr
  latch : ∀ m, t.modAt m =
    if s.responder (memId specLayout a) ≠ some m then s.modAt m
    else if c.capLog.val = 0 ∨ a.testBit (19 + c.capLog.val) = false then
      { s.modAt m with row0 := BitVec.ofNat 9 (a / 2 ^ 11) }
    else { s.modAt m with row1 := BitVec.ofNat 9 (a / 2 ^ 11) }
  expansion : t.expansion = s.expansion
  resp : t.resp = s.resp
  ri : t.ri = s.ri
  pending : t.pending = s.pending

/-- The diagnostic of an access at a: one where no responder answers, else none (R281). -/
def missEvents (dir : Dir) (a : Nat) (s : State) : List Event :=
  if s.responder (memId specLayout a) = none then [.noResponder (memKind dir) (memId specLayout a)] else []

/-- The hook event of a tagged access; none for the empty tag (R298). -/
def tagEvents (tag : Tag) (e : Event) : List Event := if tag = [] then [] else [e]

/-- Outcome o is that of a single read of n bytes at a from s: `data` where the data moves, `zero`
elsewhere (R256). -/
def LoadOutcome (o : Host.Outcome State Fault Refusal) (a n : Nat) (tag : Tag) (s : State)
    (data zero : ReadData) : Prop :=
  ∃ t, o = .next t ∧ Booked Config.impl .read a s t ∧ t.live = s.live ∧
    t.trace = s.trace ++ missEvents .read a s ++ tagEvents tag (.hookMem .read a n none) ∧
    (DataMoves s a n → t.result = data) ∧ (¬ DataMoves s a n → t.result = zero)

/-- Outcome o is that of a single write of the n-byte value v at a to s: the bytes of v at a..a+n-1, the
most significant first, where the data moves; no byte elsewhere and none where it does not (R257, R70). -/
def StoreOutcome (o : Host.Outcome State Fault Refusal) (a n v : Nat) (tag : Tag) (s : State) : Prop :=
  ∃ t, o = .next t ∧ Booked Config.impl .write a s t ∧ t.result = .nothing ∧
    t.trace = s.trace ++ missEvents .write a s
      ++ tagEvents tag (.hookMem .write a n (some (BitVec.ofNat 64 v))) ∧
    (DataMoves s a n → ∀ x, t.live.read x =
      if a ≤ x ∧ x < a + n then BitVec.ofNat 8 (v / 2 ^ (8 * (a + n - 1 - x))) else s.live.read x) ∧
    (¬ DataMoves s a n → t.live = s.live)

/-- The big-endian word at a (20_memory.md R70). -/
def wordAt (m : Memory) (a : Nat) : Word :=
  m.read a ++ m.read (a + 1) ++ m.read (a + 2) ++ m.read (a + 3)

/-- Outcome o is that of a burst read of k words at a from s, inside the live buffer (R260). -/
def BurstLoadOutcome (o : Host.Outcome State Fault Refusal) (a k : Nat) (s : State) : Prop :=
  ∃ t, o = .next t ∧ Booked Config.impl .read a s t ∧ t.live = s.live ∧
    t.trace = s.trace ++ (List.replicate k (missEvents .read a s)).flatten ∧
    (DataMoves s a (4 * k) →
      t.result = .words ((List.range k).map (fun i => wordAt s.live (a + 4 * i)))) ∧
    (¬ DataMoves s a (4 * k) → t.result = .words (List.replicate k 0))

/-- Outcome o is that of a burst write of the words ws at a to s, inside the live buffer (R261). -/
def BurstStoreOutcome (o : Host.Outcome State Fault Refusal) (a : Nat) (ws : List Word) (s : State) :
    Prop :=
  ∃ t, o = .next t ∧ Booked Config.impl .write a s t ∧ t.result = .nothing ∧
    t.trace = s.trace ++ (List.replicate ws.length (missEvents .write a s)).flatten ∧
    (DataMoves s a (4 * ws.length) →
      (∀ i (h : i < ws.length), wordAt t.live (a + 4 * i) = ws[i]) ∧
      ∀ x, (x < a ∨ a + 4 * ws.length ≤ x) → t.live.read x = s.live.read x) ∧
    (¬ DataMoves s a (4 * ws.length) → t.live = s.live)

/-- The bytes an operation names as its store destination: address and length. -/
def storeSpan (i : Instr) : Option (Nat × Nat) :=
  match i with
  | .stB a _ _ => some (a.toNat, 1)
  | .stH a _ _ => some (a.toNat, 2)
  | .stW a _ _ => some (a.toNat, 4)
  | .stD a _ _ => some (a.toNat, 8)
  | .stb4 a _ _ _ _ => some (a.toNat, 16)
  | .stb8 a _ _ _ _ _ _ _ _ => some (a.toNat, 32)
  | _ => none

/-- The address and the size of a memory-port operation (44_memory_access.md R250). -/
def accessSpan (i : Instr) : Option (BitVec 32 × Nat) :=
  match i with
  | .ldB a _ => some (a, 1)
  | .ldH a _ => some (a, 2)
  | .ldW a _ => some (a, 4)
  | .ldD a _ => some (a, 8)
  | .ldb4 a => some (a, 16)
  | .ldb8 a => some (a, 32)
  | .stB a _ _ => some (a, 1)
  | .stH a _ _ => some (a, 2)
  | .stW a _ _ => some (a, 4)
  | .stD a _ _ => some (a, 8)
  | .stb4 a _ _ _ _ => some (a, 16)
  | .stb8 a _ _ _ _ _ _ _ _ => some (a, 32)
  | _ => none

/-- The operation writes the device-identity register. -/
def isIdWrite (i : Instr) : Bool :=
  match i with
  | .rwDeviceId _ _ _ => true
  | _ => false

/-- The operation writes the mode register. -/
def isModeWrite (i : Instr) : Bool :=
  match i with
  | .rwMode _ _ _ _ => true
  | _ => false

/-- The operation is RESET. -/
def isReset (i : Instr) : Bool :=
  match i with
  | .reset _ => true
  | _ => false

/-- The operation writes the RI error register. -/
def isErrorWrite (i : Instr) : Bool :=
  match i with
  | .riwError _ => true
  | _ => false

/-- The operation writes the RI bank-status register. -/
def isBankWrite (i : Instr) : Bool :=
  match i with
  | .riwBankStatus _ => true
  | _ => false

/-- The operation accesses the RI port. -/
def isRiAccess (i : Instr) : Bool :=
  match i with
  | .rirMode | .rirConfig | .rirCurrentLoad | .rirSelect | .rirRefresh | .rirLatency | .rirError
  | .rirBankStatus
  | .riwMode _ | .riwConfig _ | .riwCurrentLoad _ | .riwSelect _ | .riwRefresh _ | .riwLatency _
  | .riwError _ | .riwBankStatus _ => true
  | _ => false

/-! ### Register accesses -/

/-- A register read that answers v from s at device ID id: the value, the hook event, nothing else (R201). -/
def readDone (s : State) (id : DevId) (sub : BitVec 8) (v : Word) : Host.Outcome State Fault Refusal :=
  .next { s with trace := s.trace ++ [.hookReg .read (.id id) sub v], result := .word v }

/-- A register read that the gate turns away (R282). -/
def readGated (s : State) (id : DevId) (r : Slot) (sub : BitVec 8) : Host.Outcome State Fault Refusal :=
  .next { s with
    trace := s.trace ++ [.gateClosed r sub, .hookReg .read (.id id) sub 0], result := .word 0 }

/-- A register read that finds no responder (R204). -/
def readMissed (s : State) (id : DevId) (sub : BitVec 8) : Host.Outcome State Fault Refusal :=
  .next { s with
    status := { s.status with ackErr := true }
    trace := s.trace ++ [.noResponder .registerRead id, .hookReg .read (.id id) sub 0]
    result := .word 0 }

/-- A register write to module r of s, which becomes M: the module, the hook event, nothing else (R202). -/
def writeDone (s : State) (id : DevId) (r : Slot) (sub : BitVec 8) (w : Word) (M : MemModule) :
    Host.Outcome State Fault Refusal :=
  .next { s with
    mods := s.mods.set r.val M
    trace := s.trace ++ [.hookReg .write (.id id) sub w], result := .nothing }

/-- A register write that changes no register (R160, R166, R169, R171, R174). -/
def writeIgnored (s : State) (target : Target) (sub : BitVec 8) (w : Word) :
    Host.Outcome State Fault Refusal :=
  .next { s with trace := s.trace ++ [.hookReg .write target sub w], result := .nothing }

/-- A register write that finds no responder (R204). -/
def writeMissed (s : State) (id : DevId) (sub : BitVec 8) (w : Word) : Host.Outcome State Fault Refusal :=
  .next { s with
    status := { s.status with ackErr := true }
    trace := s.trace ++ [.noResponder .registerWrite id, .hookReg .write (.id id) sub w]
    result := .nothing }

/-- Outcome o is that of a broadcast write that makes f of every existing module of s (R205). -/
def BroadcastDone (o : Host.Outcome State Fault Refusal) (s : State) (sub : BitVec 8) (w : Word)
    (f : MemModule → MemModule) : Prop :=
  ∃ t, o = .next t ∧ (∀ m, Active s m → t.modAt m = f (s.modAt m)) ∧
    (∀ m, ¬ Active s m → t.modAt m = s.modAt m) ∧
    t = { s with mods := t.mods, trace := s.trace ++ [.hookReg .write .broadcast sub w], result := .nothing }

/-- The module after a mode write of w (41_module_registers.md R165), its calibration value given. -/
def modeWritten (c : Config) (w : Word) (cc : BitVec 6) (M : MemModule) : MemModule :=
  { M with
    ce := w.getLsbD 31, x2 := w.getLsbD 30, de := w.getLsbD 25, cc := cc
    valid := w.getLsbD 25 && decide (c.ccWinLo.val ≤ cc.toNat ∧ cc.toNat ≤ c.ccWinHi.val) }

/-- An RI read that answers v: the value and the hook event (43_ri_registers.md R220). -/
def riReadDone (s : State) (ridx : BitVec 8) (v : Word) : Host.Outcome State Fault Refusal :=
  .next { s with trace := s.trace ++ [.hookReg .read .ri ridx v], result := .word v }

/-- An RI write that leaves the register file r: the hook event, nothing else (43_ri_registers.md R220). -/
def riWriteDone (s : State) (ridx : BitVec 8) (w : Word) (r : Ri) : Host.Outcome State Fault Refusal :=
  .next { s with ri := r, trace := s.trace ++ [.hookReg .write .ri ridx w], result := .nothing }

/-- An RI write that leaves the status block st: the hook event, nothing else. -/
def riClearDone (s : State) (ridx : BitVec 8) (w : Word) (st : Status) : Host.Outcome State Fault Refusal :=
  .next { s with status := st, trace := s.trace ++ [.hookReg .write .ri ridx w], result := .nothing }

/-- What is left of a state when the hidden inverted swap fields are taken out (10_state.md R33). -/
def hideSwapInv (s : State) : State :=
  { s with mods := s.mods.map (fun M => { M with swapInv := 0 }) }

/-- Two outcomes agree, their states compared through f. -/
def SameOutcome (f : State → State) (o p : Host.Outcome State Fault Refusal) : Prop :=
  match o, p with
  | .next t, .next u => f t = f u
  | .refused r, .refused q => r = q
  | _, _ => False

end Sys2Proof.Machine
end

