-- ==== Sys2Proof/Certificates/Slice0/Obligations.lean ====
section
/-! DEFINITION. The statements for the provers. Each docstring names the rules of spec/ it formalises. -/

open Sys2Proof Sys2Proof.Machine

/-! ### Decoding -/

/-- Decoding the encoding of a well-formed operation gives it back, with every operand at every value
(30_encoding.md R90 to R92, R100, R101, R112). -/
def Obligations.DecodeEncodeRoundTrip : Prop :=
  ∀ i : Instr, wellFormed i = true → decode (encode i) = .ok i

/-- The command words that select no operation are the three kinds of 30_encoding.md R93. -/
def Obligations.DecodeRefusesExactlyReservedWords : Prop :=
  ∀ r : Request, (∃ e, decode r = .error e) ↔
    ((r.cw.toNat / 2 ^ 36 = 0 ∧ (r.cw.toNat / 2 ^ 32 % 8 = 6 ∨ r.cw.toNat / 2 ^ 32 % 8 = 7)) ∨
      ((r.cw.toNat / 2 ^ 36 = 1 ∨ r.cw.toNat / 2 ^ 36 = 2) ∧ r.cw.toNat / 2 ^ 32 % 8 ≠ 2) ∨
      (r.cw.toNat / 2 ^ 36 = 3 ∧
        (r.cw.getLsbD 35 = false ∨ r.cw.toNat / 2 ^ 32 % 8 ≠ 0 ∨ r.cw.toNat % 2 ^ 32 / 2 ≠ 0)))

/-- Words written out from the encodings decode to their operations (30_encoding.md R90, R92, R93, R100,
R101, R112; 95_test_vectors.md section 2.0, E-3, E-8, E-10, E-17, E-23, E-28, E-31, E-33). -/
def Obligations.SampleWordsDecode : Prop :=
  decodeTableWord 40 0x0200200000 = some (.ldW 0x200000#32 []) ∧
  decodeTableWord 40 0x0B1FFFFFF8 = some (.stD 0x1FFFFFF8#32 0#64 []) ∧
  decodeTableWord 40 0x0504000000 = some (.ldb8 0x4000000#32) ∧
  decodeTableWord 40 0x120000020C = some (.rrMode 0#9 true false) ∧
  decodeTableWord 40 0x1A0007E804 = some (.rwDeviceId false 506#9 0#32) ∧
  decodeTableWord 40 0x2200000034 = some .rirLatency ∧
  decodeTableWord 40 0x3800000001 = some (.reset true) ∧
  decodeTableWord 40 0x0600000000 = none

/-- EXT_DIAG decides nothing on any port (00_scope.md R12). Address bits 31..20 and 1..0 of the RDRAM port,
bit 19 too on a read, and all address bits but 4..2 of the RI port decide nothing (20_memory.md R62, R63,
42_registry_dispatch.md R206). -/
def Obligations.UndecodedBitsDecideNothing : Prop :=
  ∀ r q : Request, r.data = q.data → r.tag = q.tag → r.gate = q.gate →
    (r.cw = q.cw → decode r = decode q) ∧
    (cwPort r.cw = 1#2 →
      (∀ k < 38, 2 ≤ k → (k < 20 ∨ 32 ≤ k) → r.cw.getLsbD k = q.cw.getLsbD k) → decode r = decode q) ∧
    (cwPort r.cw = 1#2 → cwDir r.cw = false →
      (∀ k < 38, 2 ≤ k → (k < 19 ∨ 32 ≤ k) → r.cw.getLsbD k = q.cw.getLsbD k) → decode r = decode q) ∧
    (cwPort r.cw = 2#2 →
      (∀ k < 38, 2 ≤ k → (k < 5 ∨ 32 ≤ k) → r.cw.getLsbD k = q.cw.getLsbD k) → decode r = decode q)

/-! ### Steps -/

/-- A step performs the operation its first transaction decodes to, and takes it off the list; with no
transaction it does nothing, with one that selects no operation it refuses (60_exceptions.md R293). The
list, the idle step and the refusal are the model's (notes/assumptions/1.md, 2.md, 14.md). -/
def Obligations.StepRunsDecodedOperation : Prop :=
  ∀ s : State, (s.pending = [] → step s = .next s) ∧
    ∀ r rest, s.pending = r :: rest →
      (∀ i, decode r = .ok i → step s = exec i { s with pending := rest }) ∧
      (∀ e, decode r = .error e → step s = .refused (.invalidCommandWord e))

/-- No operation reads or writes the list of operations still to come, and a step advances it by one
(10_state.md R21). -/
def Obligations.OperationsLeavePendingAlone : Prop :=
  (∀ (i : Instr) (s : State) (p : List Request),
    SameOutcome (fun t => { t with pending := [] }) (exec i s) (exec i { s with pending := p }) ∧
    ∀ t, exec i s = .next t → t.pending = s.pending) ∧
  ∀ (s t : State) (r : Request) (rest : List Request),
    s.pending = r :: rest → step s = .next t → t.pending = rest

/-- Two states that differ only in the trace behave alike: the same outcome, and the same events appended;
RESET leaves an empty trace in both (60_exceptions.md R296, 70_reset_and_hazards.md R310). -/
def Obligations.TraceIsOutputOnly : Prop :=
  ∀ (i : Instr) (s : State) (l : List Event),
    SameOutcome (fun t => { t with trace := [] }) (exec i s) (exec i { s with trace := l }) ∧
    ∀ t u, exec i s = .next t → exec i { s with trace := l } = .next u →
      (isReset i = false → ∃ e, t.trace = s.trace ++ e ∧ u.trace = l ++ e) ∧
      (isReset i = true → t.trace = [] ∧ u.trace = [])

/-- Two states that differ only in the inverted swap fields behave alike (10_state.md R33). -/
def Obligations.SwapInverseIsNeverRead : Prop :=
  ∀ (i : Instr) (s u : State), hideSwapInv s = hideSwapInv u →
    SameOutcome hideSwapInv (exec i s) (exec i u)

/-- Every admitted operation completes, in every state (60_exceptions.md R280). -/
def Obligations.EveryAdmittedOperationCompletes : Prop :=
  ∀ (i : Instr) (s : State), wellFormed i = true → ∃ t, exec i s = .next t

/-- A memory-port operation is refused when its address is beyond the ID space or no multiple of its size
(20_memory.md R61, R72). Which of the two is named when both hold is left open (notes/assumptions/13.md). -/
def Obligations.InadmissibleAccessesRefused : Prop :=
  ∀ (i : Instr) (a : BitVec 32) (n : Nat) (s : State), accessSpan i = some (a, n) →
    (2 ^ 29 ≤ a.toNat → a.toNat % n = 0 → exec i s = .refused .addressOutOfIdSpace) ∧
    (a.toNat < 2 ^ 29 → a.toNat % n ≠ 0 → exec i s = .refused .misaligned) ∧
    (2 ^ 29 ≤ a.toNat → a.toNat % n ≠ 0 → ∃ r, exec i s = .refused r)

/-! ### Memory port -/

/-- The four single reads: big-endian data where it moves and zero elsewhere, the bookkeeping either way,
nothing else (44_memory_access.md R262 to R265, R251, R253 to R256, R258). -/
def Obligations.SingleLoadsReturnBigEndianData : Prop :=
  ∀ (s : State) (a : BitVec 32) (tag : Tag), a.toNat < 2 ^ 29 →
    LoadOutcome (exec (.ldB a tag) s) a.toNat 1 tag s (.byte (s.live.read a.toNat)) (.byte 0) ∧
    (a.toNat % 2 = 0 → LoadOutcome (exec (.ldH a tag) s) a.toNat 2 tag s
      (.half (s.live.read a.toNat ++ s.live.read (a.toNat + 1))) (.half 0)) ∧
    (a.toNat % 4 = 0 → LoadOutcome (exec (.ldW a tag) s) a.toNat 4 tag s
      (.word (wordAt s.live a.toNat)) (.word 0)) ∧
    (a.toNat % 8 = 0 → LoadOutcome (exec (.ldD a tag) s) a.toNat 8 tag s
      (.dword (wordAt s.live a.toNat ++ wordAt s.live (a.toNat + 4))) (.dword 0))

/-- The four single writes: the bytes of the value at the operand address, most significant first, where
the data moves, every other byte as before; the bookkeeping either way (44_memory_access.md R266 to R269,
R251, R253 to R255, R257, R258). -/
def Obligations.SingleStoresWriteBigEndianData : Prop :=
  ∀ (s : State) (a : BitVec 32) (tag : Tag), s.live.wf → a.toNat < 2 ^ 29 →
    (∀ v, StoreOutcome (exec (.stB a v tag) s) a.toNat 1 v.toNat tag s) ∧
    (a.toNat % 2 = 0 → ∀ v, StoreOutcome (exec (.stH a v tag) s) a.toNat 2 v.toNat tag s) ∧
    (a.toNat % 4 = 0 → ∀ v, StoreOutcome (exec (.stW a v tag) s) a.toNat 4 v.toNat tag s) ∧
    (a.toNat % 8 = 0 → ∀ v, StoreOutcome (exec (.stD a v tag) s) a.toNat 8 v.toNat tag s)

/-- The two burst reads inside the live buffer: word i of the result is the word at a + 4i, and the k runs
of the bookkeeping have the effect of one (44_memory_access.md R260, R270, R271). -/
def Obligations.BurstLoadsReturnWords : Prop :=
  ∀ (s : State) (a : BitVec 32), a.toNat < liveBytes →
    (a.toNat % 16 = 0 → BurstLoadOutcome (exec (.ldb4 a) s) a.toNat 4 s) ∧
    (a.toNat % 32 = 0 → BurstLoadOutcome (exec (.ldb8 a) s) a.toNat 8 s)

/-- The two burst writes inside the live buffer: the word at a + 4i is element i, every byte outside the
span as before (44_memory_access.md R261, R272, R273). -/
def Obligations.BurstStoresWriteWords : Prop :=
  ∀ (s : State) (a : BitVec 32), s.live.wf → a.toNat < liveBytes →
    (a.toNat % 16 = 0 → ∀ w0 w1 w2 w3,
      BurstStoreOutcome (exec (.stb4 a w0 w1 w2 w3) s) a.toNat [w0, w1, w2, w3] s) ∧
    (a.toNat % 32 = 0 → ∀ w0 w1 w2 w3 w4 w5 w6 w7,
      BurstStoreOutcome (exec (.stb8 a w0 w1 w2 w3 w4 w5 w6 w7) s) a.toNat
        [w0, w1, w2, w3, w4, w5, w6, w7] s)

/-- A burst that starts beyond the live buffer reads zeros or stores nothing, and does no bookkeeping
(44_memory_access.md R260, R261). -/
def Obligations.BurstsBeyondLiveShortCircuit : Prop :=
  ∀ (s : State) (a : BitVec 32), liveBytes ≤ a.toNat → a.toNat < 2 ^ 29 →
    (a.toNat % 16 = 0 → exec (.ldb4 a) s = .next { s with result := .words [0, 0, 0, 0] }) ∧
    (a.toNat % 32 = 0 → exec (.ldb8 a) s = .next { s with result := .words [0, 0, 0, 0, 0, 0, 0, 0] }) ∧
    (a.toNat % 16 = 0 → ∀ w0 w1 w2 w3,
      exec (.stb4 a w0 w1 w2 w3) s = .next { s with result := .nothing }) ∧
    (a.toNat % 32 = 0 → ∀ w0 w1 w2 w3 w4 w5 w6 w7,
      exec (.stb8 a w0 w1 w2 w3 w4 w5 w6 w7) s = .next { s with result := .nothing })

/-- A read returns the bytes the last write stored there (20_memory.md R71, R76): each width, each burst. -/
def Obligations.LoadReturnsStoredValue : Prop :=
  ∀ (s t : State) (a : BitVec 32) (tag tag' : Tag), s.live.wf →
    (∀ v, DataMoves s a.toNat 1 → exec (.stB a v tag) s = .next t →
      ∃ u, exec (.ldB a tag') t = .next u ∧ u.result = .byte v) ∧
    (∀ v, DataMoves s a.toNat 2 → exec (.stH a v tag) s = .next t →
      ∃ u, exec (.ldH a tag') t = .next u ∧ u.result = .half v) ∧
    (∀ v, DataMoves s a.toNat 4 → exec (.stW a v tag) s = .next t →
      ∃ u, exec (.ldW a tag') t = .next u ∧ u.result = .word v) ∧
    (∀ v, DataMoves s a.toNat 8 → exec (.stD a v tag) s = .next t →
      ∃ u, exec (.ldD a tag') t = .next u ∧ u.result = .dword v) ∧
    (∀ w0 w1 w2 w3, DataMoves s a.toNat 16 → exec (.stb4 a w0 w1 w2 w3) s = .next t →
      ∃ u, exec (.ldb4 a) t = .next u ∧ u.result = .words [w0, w1, w2, w3]) ∧
    (∀ w0 w1 w2 w3 w4 w5 w6 w7, DataMoves s a.toNat 32 →
      exec (.stb8 a w0 w1 w2 w3 w4 w5 w6 w7) s = .next t →
      ∃ u, exec (.ldb8 a) t = .next u ∧ u.result = .words [w0, w1, w2, w3, w4, w5, w6, w7])

/-! ### Status block -/

/-- The status bits are sticky: only a write to RI error or RESET clears an error bit, only a write to RI
bank-status or RESET clears a valid or dirty bit (10_state.md R39). -/
def Obligations.StatusBitsAreSticky : Prop :=
  ∀ (i : Instr) (s t : State), exec i s = .next t → isReset i = false →
    (isErrorWrite i = false →
      (s.status.ackErr = true → t.status.ackErr = true) ∧
      (s.status.overErr = true → t.status.overErr = true) ∧
      (s.status.nackErr = true → t.status.nackErr = true)) ∧
    (isBankWrite i = false → ∀ b,
      (s.status.valid.getLsbD b = true → t.status.valid.getLsbD b = true) ∧
      (s.status.dirty.getLsbD b = true → t.status.dirty.getLsbD b = true))

/-- The RI only reads and clears the status block: no RI access sets an error bit or a valid bit, or a
dirty bit but to its clear value (43_ri_registers.md R241, R239). -/
def Obligations.RiAccessesNeverSetStatus : Prop :=
  ∀ (i : Instr) (s t : State), isRiAccess i = true → exec i s = .next t →
    (t.status.ackErr = true → s.status.ackErr = true) ∧
    (t.status.overErr = true → s.status.overErr = true) ∧
    (t.status.nackErr = true → s.status.nackErr = true) ∧
    (∀ b, t.status.valid.getLsbD b = true → s.status.valid.getLsbD b = true) ∧
    (t.status.dirty = s.status.dirty ∨ t.status.dirty = Config.impl.bankDirtyClear)

/-- The third error bit is set by nothing (10_state.md R39). -/
def Obligations.NackErrorIsNeverSet : Prop :=
  ∀ (s t : State), s.status.nackErr = false → step s = .next t → t.status.nackErr = false

/-! ### Registry register reads -/

/-- A register read whose ID has no responder answers 0, whatever the gate, sets the ack error and leaves
the two events (42_registry_dispatch.md R201, R204). All thirteen reads. -/
def Obligations.RegisterReadsWithoutResponder : Prop :=
  ∀ (s : State) (id : DevId) (upper gate : Bool) (idx : RegIdx), s.responder id = none →
    exec (.rrDeviceType id gate) s = readMissed s id 0x00 ∧
    exec (.rrDeviceId id gate) s = readMissed s id 0x01 ∧
    exec (.rrDelay id upper gate) s = readMissed s id (BitVec.ofBool upper ++ 2#7) ∧
    exec (.rrMode id upper gate) s = readMissed s id (BitVec.ofBool upper ++ 3#7) ∧
    exec (.rrRefInterval id upper gate) s = readMissed s id (BitVec.ofBool upper ++ 4#7) ∧
    exec (.rrRefRow id upper gate) s = readMissed s id (BitVec.ofBool upper ++ 5#7) ∧
    exec (.rrRasInterval id upper gate) s = readMissed s id (BitVec.ofBool upper ++ 6#7) ∧
    exec (.rrMinInterval id upper gate) s = readMissed s id (BitVec.ofBool upper ++ 7#7) ∧
    exec (.rrAddrSelect id upper gate) s = readMissed s id (BitVec.ofBool upper ++ 8#7) ∧
    exec (.rrDeviceManuf id upper gate) s = readMissed s id (BitVec.ofBool upper ++ 9#7) ∧
    exec (.rrRow0 id gate) s = readMissed s id 0x80 ∧
    exec (.rrRow1 id gate) s = readMissed s id 0x81 ∧
    exec (.rrNone id upper idx gate) s = readMissed s id (BitVec.ofBool upper ++ idx)

/-- With the gate closed the ten registers outside the always-on set read 0 and leave the gate diagnostic;
no other state changes (41_module_registers.md R150, 60_exceptions.md R282). -/
def Obligations.ClosedGateReadsZero : Prop :=
  ∀ (s : State) (id : DevId) (r : Slot) (upper : Bool) (idx : RegIdx), s.responder id = some r →
    10 ≤ idx.toNat →
    exec (.rrDeviceId id false) s = readGated s id r 0x01 ∧
    exec (.rrMode id upper false) s = readGated s id r (BitVec.ofBool upper ++ 3#7) ∧
    exec (.rrRefInterval id upper false) s = readGated s id r (BitVec.ofBool upper ++ 4#7) ∧
    exec (.rrRefRow id upper false) s = readGated s id r (BitVec.ofBool upper ++ 5#7) ∧
    exec (.rrMinInterval id upper false) s = readGated s id r (BitVec.ofBool upper ++ 7#7) ∧
    exec (.rrAddrSelect id upper false) s = readGated s id r (BitVec.ofBool upper ++ 8#7) ∧
    exec (.rrDeviceManuf id upper false) s = readGated s id r (BitVec.ofBool upper ++ 9#7) ∧
    exec (.rrRow0 id false) s = readGated s id r 0x80 ∧
    exec (.rrRow1 id false) s = readGated s id r 0x81 ∧
    exec (.rrNone id upper idx false) s = readGated s id r (BitVec.ofBool upper ++ idx)

/-- The three always-on registers read whatever the gate (41_module_registers.md R152, R154, R158,
30_encoding.md R102, R105, R109). -/
def Obligations.AlwaysOnReadsReturnFields : Prop :=
  ∀ (s : State) (id : DevId) (r : Slot) (upper gate : Bool), s.responder id = some r →
    let M := s.modAt r
    exec (.rrDeviceType id gate) s = readDone s id 0x00 Config.impl.deviceType ∧
    exec (.rrDelay id upper gate) s = readDone s id (BitVec.ofBool upper ++ 2#7)
      (0#2 ++ M.dlyAckWin ++ 0#5 ++ M.dlyRead ++ 0#5 ++ M.dlyAck ++ 0#5 ++ M.dlyWrite ++ 0#3) ∧
    exec (.rrRasInterval id upper gate) s = readDone s id (BitVec.ofBool upper ++ 6#7)
      (0#3 ++ M.rasPrecharge ++ 0#3 ++ M.rasSense ++ 0#3 ++ M.rasImpRestore ++ 0#3 ++ M.rasExpRestore)

/-- With the gate open the other ten reads return the packed field values (41_module_registers.md R153,
R155 to R157, R159, R175 to R179, 30_encoding.md R103, R106 to R108, R110, R111). -/
def Obligations.OpenGateReadsReturnFields : Prop :=
  ∀ (s : State) (id : DevId) (r : Slot) (upper : Bool) (idx : RegIdx), s.responder id = some r →
    10 ≤ idx.toNat →
    let M := s.modAt r
    let f := M.idField
    let x := M.cc ^^^ Config.impl.ccXor
    let bit := fun (k : Nat) => BitVec.ofBool (x.getLsbD k)
    exec (.rrDeviceId id true) s = readDone s id 0x01
      (f.extractLsb' 0 6 ++ 0#2 ++ f.extractLsb' 6 1 ++ 0#13 ++ f.extractLsb' 7 2 ++ 0#8) ∧
    exec (.rrMode id upper true) s = readDone s id (BitVec.ofBool upper ++ 3#7)
      (BitVec.ofBool M.ce ++ BitVec.ofBool M.x2 ++ 0#4 ++ BitVec.ofBool M.de ++ 0#1 ++ bit 5 ++ bit 2
        ++ 0#6 ++ bit 4 ++ bit 1 ++ 0#6 ++ bit 3 ++ bit 0 ++ 0#6) ∧
    exec (.rrRefInterval id upper true) s = readDone s id (BitVec.ofBool upper ++ 4#7) 0 ∧
    exec (.rrRefRow id upper true) s = readDone s id (BitVec.ofBool upper ++ 5#7) M.refRow ∧
    exec (.rrMinInterval id upper true) s =
      readDone s id (BitVec.ofBool upper ++ 7#7) Config.impl.minInterval ∧
    exec (.rrAddrSelect id upper true) s =
      readDone s id (BitVec.ofBool upper ++ 8#7) (0#23 ++ M.swap) ∧
    exec (.rrDeviceManuf id upper true) s =
      readDone s id (BitVec.ofBool upper ++ 9#7) Config.impl.manufacturer ∧
    exec (.rrRow0 id true) s = readDone s id 0x80 (0#23 ++ M.row0) ∧
    exec (.rrRow1 id true) s = readDone s id 0x81 (0#23 ++ M.row1) ∧
    exec (.rrNone id upper idx true) s = readDone s id (BitVec.ofBool upper ++ idx) 0

/-! ### Registry register writes -/

/-- A non-broadcast register write whose ID has no responder is dropped, sets the ack error and leaves the
two events (42_registry_dispatch.md R202, R204). All thirteen writes. -/
def Obligations.RegisterWritesWithoutResponder : Prop :=
  ∀ (s : State) (id : DevId) (upper : Bool) (idx : RegIdx) (w : Word), s.responder id = none →
    exec (.rwDeviceType false id w) s = writeMissed s id 0x00 w ∧
    exec (.rwDeviceId false id w) s = writeMissed s id 0x01 w ∧
    exec (.rwDelay false id upper w) s = writeMissed s id (BitVec.ofBool upper ++ 2#7) w ∧
    exec (.rwMode false id upper w) s = writeMissed s id (BitVec.ofBool upper ++ 3#7) w ∧
    exec (.rwRefInterval false id upper w) s = writeMissed s id (BitVec.ofBool upper ++ 4#7) w ∧
    exec (.rwRefRow false id upper w) s = writeMissed s id (BitVec.ofBool upper ++ 5#7) w ∧
    exec (.rwRasInterval false id upper w) s = writeMissed s id (BitVec.ofBool upper ++ 6#7) w ∧
    exec (.rwMinInterval false id upper w) s = writeMissed s id (BitVec.ofBool upper ++ 7#7) w ∧
    exec (.rwAddrSelect false id upper w) s = writeMissed s id (BitVec.ofBool upper ++ 8#7) w ∧
    exec (.rwDeviceManuf false id upper w) s = writeMissed s id (BitVec.ofBool upper ++ 9#7) w ∧
    exec (.rwRow0 false id w) s = writeMissed s id 0x80 w ∧
    exec (.rwRow1 false id w) s = writeMissed s id 0x81 w ∧
    exec (.rwNone false id upper idx w) s = writeMissed s id (BitVec.ofBool upper ++ idx) w

/-- The writes of the plain registers store their fields in the responder and change nothing else
(41_module_registers.md R163, R165, R167, R168, R170, R172, R173). The gate has no part in it (R151). -/
def Obligations.RegisterWritesStoreFields : Prop :=
  ∀ (s : State) (id : DevId) (r : Slot) (upper : Bool) (w : Word), s.responder id = some r →
    let M := s.modAt r
    exec (.rwDelay false id upper w) s = writeDone s id r (BitVec.ofBool upper ++ 2#7) w
      { M with
        dlyAckWin := w.extractLsb' 27 3, dlyRead := w.extractLsb' 19 3
        dlyAck := w.extractLsb' 11 3, dlyWrite := w.extractLsb' 3 3 } ∧
    exec (.rwMode false id upper w) s = writeDone s id r (BitVec.ofBool upper ++ 3#7) w
      (modeWritten Config.impl w
        (if w.getLsbD 31 then BitVec.ofNat 6 (min 63 (Config.impl.autoCal (ccDecode Config.impl w)))
          else ccDecode Config.impl w) M) ∧
    exec (.rwRefRow false id upper w) s = writeDone s id r (BitVec.ofBool upper ++ 5#7) w
      { M with refRow := w &&& Config.impl.refRowMask } ∧
    exec (.rwRasInterval false id upper w) s = writeDone s id r (BitVec.ofBool upper ++ 6#7) w
      { M with
        rasPrecharge := w.extractLsb' 24 5, rasSense := w.extractLsb' 16 5
        rasImpRestore := w.extractLsb' 8 5, rasExpRestore := w.extractLsb' 0 5 } ∧
    exec (.rwAddrSelect false id upper w) s = writeDone s id r (BitVec.ofBool upper ++ 8#7) w
      { M with swap := w.extractLsb' 0 9, swapInv := ~~~ (w.extractLsb' 0 9) } ∧
    exec (.rwRow0 false id w) s = writeDone s id r 0x80 w { M with row0 := w.extractLsb' 0 9 } ∧
    exec (.rwRow1 false id w) s = writeDone s id r 0x81 w { M with row1 := w.extractLsb' 0 9 }

/-- A write of a read-only register or a reserved index is accepted and changes nothing, broadcast or to a
responder (41_module_registers.md R160, R166, R169, R171, R174). -/
def Obligations.ReadOnlyWritesChangeNothing : Prop :=
  ∀ (s : State) (bc : Bool) (id : DevId) (upper : Bool) (idx : RegIdx) (w : Word),
    (bc = false → s.responder id ≠ none) → 10 ≤ idx.toNat →
    let target : Target := if bc then .broadcast else .id id
    exec (.rwDeviceType bc id w) s = writeIgnored s target 0x00 w ∧
    exec (.rwRefInterval bc id upper w) s = writeIgnored s target (BitVec.ofBool upper ++ 4#7) w ∧
    exec (.rwMinInterval bc id upper w) s = writeIgnored s target (BitVec.ofBool upper ++ 7#7) w ∧
    exec (.rwDeviceManuf bc id upper w) s = writeIgnored s target (BitVec.ofBool upper ++ 9#7) w ∧
    exec (.rwNone bc id upper idx w) s = writeIgnored s target (BitVec.ofBool upper ++ idx) w

/-- A broadcast write reaches every existing module, whatever the responder table holds; it sets no status
bit and leaves one event (42_registry_dispatch.md R202, R205). The writes of plain registers. -/
def Obligations.BroadcastWritesReachEveryModule : Prop :=
  ∀ (s : State) (id : DevId) (upper : Bool) (w : Word),
    BroadcastDone (exec (.rwDelay true id upper w) s) s (BitVec.ofBool upper ++ 2#7) w
      (fun M => { M with
        dlyAckWin := w.extractLsb' 27 3, dlyRead := w.extractLsb' 19 3
        dlyAck := w.extractLsb' 11 3, dlyWrite := w.extractLsb' 3 3 }) ∧
    BroadcastDone (exec (.rwMode true id upper w) s) s (BitVec.ofBool upper ++ 3#7) w
      (modeWritten Config.impl w
        (if w.getLsbD 31 then BitVec.ofNat 6 (min 63 (Config.impl.autoCal (ccDecode Config.impl w)))
          else ccDecode Config.impl w)) ∧
    BroadcastDone (exec (.rwRefRow true id upper w) s) s (BitVec.ofBool upper ++ 5#7) w
      (fun M => { M with refRow := w &&& Config.impl.refRowMask }) ∧
    BroadcastDone (exec (.rwRasInterval true id upper w) s) s (BitVec.ofBool upper ++ 6#7) w
      (fun M => { M with
        rasPrecharge := w.extractLsb' 24 5, rasSense := w.extractLsb' 16 5
        rasImpRestore := w.extractLsb' 8 5, rasExpRestore := w.extractLsb' 0 5 }) ∧
    BroadcastDone (exec (.rwAddrSelect true id upper w) s) s (BitVec.ofBool upper ++ 8#7) w
      (fun M => { M with swap := w.extractLsb' 0 9, swapInv := ~~~ (w.extractLsb' 0 9) }) ∧
    BroadcastDone (exec (.rwRow0 true id w) s) s 0x80 w (fun M => { M with row0 := w.extractLsb' 0 9 }) ∧
    BroadcastDone (exec (.rwRow1 true id w) s) s 0x81 w (fun M => { M with row1 := w.extractLsb' 0 9 })

/-- What is written to a register reads back in its stored bits (30_encoding.md R103, R105, R106, R108, R109,
R111): the mode register in manual mode, the device-identity register wherever the module answers after the
write, the field as written and not its capacity-masked part (41_module_registers.md R153). -/
def Obligations.WrittenFieldsReadBack : Prop :=
  ∀ (s t : State) (id : DevId) (r : Slot) (upper up gate : Bool) (w : Word), s.responder id = some r →
    (exec (.rwDeviceId false id w) s = .next t → ∀ d, t.responder d = some r →
      ∃ u, exec (.rrDeviceId d true) t = .next u ∧ u.result = .word (w &&& 0xFC800300#32)) ∧
    (exec (.rwDelay false id upper w) s = .next t →
      ∃ u, exec (.rrDelay id up gate) t = .next u ∧ u.result = .word (w &&& 0x38383838#32)) ∧
    (exec (.rwRasInterval false id upper w) s = .next t →
      ∃ u, exec (.rrRasInterval id up gate) t = .next u ∧ u.result = .word (w &&& 0x1F1F1F1F#32)) ∧
    (exec (.rwMode false id upper w) s = .next t → w.getLsbD 31 = false →
      ∃ u, exec (.rrMode id up true) t = .next u ∧ u.result = .word (w &&& 0xC2C0C0C0#32)) ∧
    (exec (.rwRefRow false id upper w) s = .next t →
      ∃ u, exec (.rrRefRow id up true) t = .next u ∧
        u.result = .word (w &&& Config.impl.refRowMask)) ∧
    (exec (.rwAddrSelect false id upper w) s = .next t →
      ∃ u, exec (.rrAddrSelect id up true) t = .next u ∧ u.result = .word (w &&& 0x1FF#32)) ∧
    (exec (.rwRow0 false id w) s = .next t →
      ∃ u, exec (.rrRow0 id true) t = .next u ∧ u.result = .word (w &&& 0x1FF#32)) ∧
    (exec (.rwRow1 false id w) s = .next t →
      ∃ u, exec (.rrRow1 id true) t = .next u ∧ u.result = .word (w &&& 0x1FF#32))

/-- In auto-calibration mode the stored value is the transform of the written one, clamped to 63
(41_module_registers.md R164, R180). -/
def Obligations.AutoCalibrationIsClampedTransform : Prop :=
  ∀ (s t : State) (id : DevId) (r : Slot) (upper : Bool) (w : Word), s.responder id = some r →
    w.getLsbD 31 = true → exec (.rwMode false id upper w) s = .next t →
    (t.modAt r).cc.toNat = min 63 (Config.impl.autoCal (ccGather specLayout w ^^^ Config.impl.ccXor))

/-- Every operation but a mode write and RESET leaves every module's mode bits, calibration value and
validity alone (10_state.md R25, R28). -/
def Obligations.OnlyModeWriteAndResetChangeValidity : Prop :=
  ∀ (i : Instr) (s t : State) (m : Slot), exec i s = .next t → isModeWrite i = false →
    isReset i = false →
    (t.modAt m).valid = (s.modAt m).valid ∧ (t.modAt m).de = (s.modAt m).de ∧
    (t.modAt m).cc = (s.modAt m).cc ∧ (t.modAt m).ce = (s.modAt m).ce ∧
    (t.modAt m).x2 = (s.modAt m).x2

/-! ### Device identity and arbitration -/

/-- A device-identity write that leaves the effective ID alone stores the field and remaps nothing
(41_module_registers.md R161, R162 (a)). -/
def Obligations.SameIdWriteStoresFieldOnly : Prop :=
  ∀ (s : State) (id : DevId) (r : Slot) (w : Word), s.responder id = some r →
    idDecode specLayout w &&& Config.impl.idMask = (s.modAt r).deviceId →
    exec (.rwDeviceId false id w) s =
      writeDone s id r 0x01 w { s.modAt r with idField := idDecode specLayout w }

/-- A device-identity write to a responder: the module claims the written ID, capacity-masked; the
responder table again has the smallest claimant at every claimed ID; no module loses a byte of its image;
every other register, every byte outside the old and the new region, the status block and the RI are as
before (41_module_registers.md R161, R162, 40_arbitration.md R140). -/
def Obligations.IdWriteMovesModuleWithoutDataLoss : Prop :=
  ∀ (s : State) (id : DevId) (r : Slot) (w : Word), Inv Config.impl s → s.responder id = some r →
    ∃ t, exec (.rwDeviceId false id w) s = .next t ∧ ResponderInv Config.impl t ∧
      (t.modAt r).idField = idDecode specLayout w ∧
      (t.modAt r).deviceId = idDecode specLayout w &&& Config.impl.idMask ∧
      SameButId (t.modAt r) (s.modAt r) ∧
      (∀ m, m ≠ r → SameRegisters (t.modAt m) (s.modAt m)) ∧
      (∀ m, Active s m → ∀ o < Config.impl.capBytes, imageByte t m o = imageByte s m o) ∧
      (∀ a, (a < (s.modAt r).deviceId.toNat * idSlotBytes ∨
          (s.modAt r).deviceId.toNat * idSlotBytes + Config.impl.capBytes ≤ a) →
        (a < (t.modAt r).deviceId.toNat * idSlotBytes ∨
          (t.modAt r).deviceId.toNat * idSlotBytes + Config.impl.capBytes ≤ a) →
        t.live.read a = s.live.read a) ∧
      t.expansion = s.expansion ∧ t.status = s.status ∧ t.ri = s.ri ∧ t.pending = s.pending ∧
      t.result = .nothing ∧ t.trace = s.trace ++ [.hookReg .write (.id id) 0x01 w]

/-- A broadcast device-identity write: every existing module claims the new ID, module 0 alone answers
there, no module loses a byte of its image, and no byte outside the old and the new regions changes
(42_registry_dispatch.md R205). -/
def Obligations.BroadcastIdWriteLeavesModuleZero : Prop :=
  ∀ (s : State) (id : DevId) (w : Word), Inv Config.impl s →
    ∃ t, exec (.rwDeviceId true id w) s = .next t ∧
      (∀ m, Active s m → (t.modAt m).idField = idDecode specLayout w ∧
        (t.modAt m).deviceId = idDecode specLayout w &&& Config.impl.idMask ∧
        SameButId (t.modAt m) (s.modAt m) ∧
        ∀ o < Config.impl.capBytes, imageByte t m o = imageByte s m o) ∧
      (∀ m, ¬ Active s m → t.modAt m = s.modAt m) ∧
      (∀ i : Fin 512, (Claims Config.impl (t.modAt 0) i.val → t.resp[i] = some 0) ∧
        (¬ Claims Config.impl (t.modAt 0) i.val → t.resp[i] = none)) ∧
      (∀ a, (∀ m, Active s m → a < (s.modAt m).deviceId.toNat * idSlotBytes ∨
          (s.modAt m).deviceId.toNat * idSlotBytes + Config.impl.capBytes ≤ a) →
        (a < (t.modAt 0).deviceId.toNat * idSlotBytes ∨
          (t.modAt 0).deviceId.toNat * idSlotBytes + Config.impl.capBytes ≤ a) →
        t.live.read a = s.live.read a) ∧
      t.expansion = s.expansion ∧ t.status = s.status ∧ t.ri = s.ri ∧ t.pending = s.pending ∧
      t.result = .nothing ∧ t.trace = s.trace ++ [.hookReg .write .broadcast 0x01 w]

/-- The responder table, the identities and the shadows change only in a device-identity write and in RESET
(10_state.md R23, R36, R38). -/
def Obligations.OnlyIdWriteAndResetRemap : Prop :=
  ∀ (i : Instr) (s t : State), exec i s = .next t → isIdWrite i = false → isReset i = false →
    t.resp = s.resp ∧ ∀ m, (t.modAt m).deviceId = (s.modAt m).deviceId ∧
      (t.modAt m).idField = (s.modAt m).idField ∧ (t.modAt m).shadow = (s.modAt m).shadow

/-- A module's image changes only where a store of its own lands: no remap, no access and no register write
of any other kind changes a byte of it (40_arbitration.md R140, 70_reset_and_hazards.md R322, R323). -/
def Obligations.ImagesChangeOnlyByOwnStores : Prop :=
  ∀ (i : Instr) (s t : State) (m : Slot) (o : Nat), Inv Config.impl s → exec i s = .next t →
    isReset i = false → Active s m → o < Config.impl.capBytes →
    imageByte t m o = imageByte s m o ∨
    ∃ a n, storeSpan i = some (a, n) ∧ DataMoves s a n ∧ s.responder (memId specLayout a) = some m ∧
      a ≤ (s.modAt m).deviceId.toNat * idSlotBytes + o ∧
      (s.modAt m).deviceId.toNat * idSlotBytes + o < a + n

/-- `map` of a module whose ID is unclaimed claims exactly its range and, in the window, shows its shadow
there; nothing else changes (40_arbitration.md R131 step 1, R143). -/
def Obligations.MapClaimsUnclaimedId : Prop :=
  ∀ (c : Config) (s : State) (m : Slot), s.responder (s.modAt m).deviceId = none →
    let M := s.modAt m
    let t := mapModule c m s
    (∀ i : Fin 512, (Claims c M i.val → t.resp[i] = some m) ∧
      (¬ Claims c M i.val → t.resp[i] = s.resp[i])) ∧
    (M.deviceId.toNat < windowIds →
      (∀ o < c.capBytes, t.live.read (M.deviceId.toNat * idSlotBytes + o) = M.shadow.read o) ∧
      ∀ a, (a < M.deviceId.toNat * idSlotBytes ∨
        M.deviceId.toNat * idSlotBytes + c.capBytes ≤ a) → t.live.read a = s.live.read a) ∧
    (windowIds ≤ M.deviceId.toNat → t.live = s.live) ∧
    t = { s with resp := t.resp, live := t.live }

/-- `map` of a module whose ID an equal or higher priority holds changes nothing (40_arbitration.md R131
step 3). -/
def Obligations.MapYieldsToHigherPriority : Prop :=
  ∀ (c : Config) (s : State) (m r : Slot), s.responder (s.modAt m).deviceId = some r → r ≤ m →
    mapModule c m s = s

/-- Priority swap: `map` of a module whose ID a lower priority holds evicts it, saves its image and shows
the arriving module's; no other module and no byte outside the region changes (40_arbitration.md R131
step 2, R140 (b)). -/
def Obligations.MapEvictsLowerPriority : Prop :=
  ∀ (c : Config) (s : State) (m r : Slot), Active s m → Active s r →
    s.responder (s.modAt m).deviceId = some r → m < r →
    (s.modAt r).deviceId = (s.modAt m).deviceId →
    (∀ j, Active s j → j ≠ m → (s.modAt j).deviceId = (s.modAt m).deviceId → r ≤ j) →
    let d := (s.modAt m).deviceId.toNat
    let t := mapModule c m s
    (∀ i : Fin 512, (Claims c (s.modAt m) i.val → t.resp[i] = some m) ∧
      (¬ Claims c (s.modAt m) i.val → t.resp[i] = s.resp[i])) ∧
    (d < windowIds → ∀ o < c.capBytes,
      t.live.read (d * idSlotBytes + o) = (s.modAt m).shadow.read o ∧
      (t.modAt r).shadow.read o = s.live.read (d * idSlotBytes + o)) ∧
    (windowIds ≤ d → (t.modAt r).shadow = (s.modAt r).shadow) ∧
    (∀ a, (windowIds ≤ d ∨ a < d * idSlotBytes ∨ d * idSlotBytes + c.capBytes ≤ a) →
      t.live.read a = s.live.read a) ∧
    SameRegisters (t.modAt r) (s.modAt r) ∧ (∀ j, j ≠ r → t.modAt j = s.modAt j) ∧
    t = { s with resp := t.resp, live := t.live, mods := t.mods }

/-- `unmap` of a module that is not the responder of its ID is a no-op (40_arbitration.md R135 step 1). -/
def Obligations.UnmapOfNonResponderIsNoOp : Prop :=
  ∀ (c : Config) (s : State) (m : Slot), s.responder (s.modAt m).deviceId ≠ some m →
    unmapModule c m s = s

/-- Vacating an ID that no other module claims clears its range, saves the image and zero-fills the region
in the window; a second `unmap` is a no-op (40_arbitration.md R135 steps 2 to 4, R146). -/
def Obligations.VacatedIdIsZeroFilled : Prop :=
  ∀ (c : Config) (s : State) (m : Slot), s.responder (s.modAt m).deviceId = some m →
    (∀ j, Active s j → j ≠ m → (s.modAt j).deviceId ≠ (s.modAt m).deviceId) →
    let d := (s.modAt m).deviceId.toNat
    let t := unmapModule c m s
    (∀ i : Fin 512, (Claims c (s.modAt m) i.val → t.resp[i] = none) ∧
      (¬ Claims c (s.modAt m) i.val → t.resp[i] = s.resp[i])) ∧
    (d < windowIds → ∀ o < c.capBytes, t.live.read (d * idSlotBytes + o) = 0#8 ∧
      (t.modAt m).shadow.read o = s.live.read (d * idSlotBytes + o)) ∧
    (windowIds ≤ d → (t.modAt m).shadow = (s.modAt m).shadow) ∧
    (∀ a, (windowIds ≤ d ∨ a < d * idSlotBytes ∨ d * idSlotBytes + c.capBytes ≤ a) →
      t.live.read a = s.live.read a) ∧
    SameRegisters (t.modAt m) (s.modAt m) ∧ (∀ j, j ≠ m → t.modAt j = s.modAt j) ∧
    t = { s with resp := t.resp, live := t.live, mods := t.mods } ∧
    unmapModule c m t = t

/-- `unmap` followed by `map` of a responder restores the responder table and the live buffer
(40_arbitration.md R144). -/
def Obligations.UnmapThenMapRestores : Prop :=
  ∀ (s : State) (m : Slot), Inv Config.impl s → Active s m →
    s.responder (s.modAt m).deviceId = some m →
    (mapModule Config.impl m (unmapModule Config.impl m s)).resp = s.resp ∧
    (mapModule Config.impl m (unmapModule Config.impl m s)).live = s.live

/-- The chain of `map` and `unmap` calls is bounded: more than two nested calls of `map` never happen, so
the bound the model sets changes nothing (40_arbitration.md R141). -/
def Obligations.ArbitrationDepthIsBounded : Prop :=
  ∀ (c : Config) (fuel : Nat) (m : Slot) (s : State), 2 ≤ fuel → mapFuel c fuel m s = mapModule c m s

/-- The end-to-end scenario: after RESET with four modules, module 0 alone answers, at ID 0, and all
shadows are zero; an identity write to it moves it to the new ID, and module 1 answers at ID 0
(42_registry_dispatch.md R210). -/
def Obligations.EndToEndScenario : Prop :=
  ∀ (s t : State) (w : Word), exec (.reset true) s = .next t →
    t.responder 0 = some 0 ∧ (∀ (i : Fin 512) (m : Slot), t.resp[i] = some m → m = 0) ∧
    (∀ m o, (t.modAt m).shadow.read o = 0#8) ∧
    (idDecode specLayout w &&& Config.impl.idMask ≠ 0 → ∃ u, exec (.rwDeviceId false 0 w) t = .next u ∧
      u.responder 0 = some 1 ∧ u.responder (idDecode specLayout w &&& Config.impl.idMask) = some 0 ∧
      ∀ i : Fin 512, u.resp[i] = some 0 ↔ Claims Config.impl (u.modAt 0) i.val)

/-! ### RI -/

/-- The eight RI reads return the packed fields and change nothing (43_ri_registers.md R221, R223, R225,
R227, R229, R231, R236, R238, 30_encoding.md R113 to R120). -/
def Obligations.RiReadsReturnFields : Prop :=
  ∀ s : State,
    exec .rirMode s = riReadDone s 0
      (0#28 ++ BitVec.ofBool s.ri.stopR ++ BitVec.ofBool s.ri.stopT ++ s.ri.opMode) ∧
    exec .rirConfig s = riReadDone s 1 (0#25 ++ BitVec.ofBool s.ri.ccEn ++ s.ri.ccIn) ∧
    exec .rirCurrentLoad s = riReadDone s 2 0 ∧
    exec .rirSelect s = riReadDone s 3 (0#24 ++ s.ri.tsel ++ s.ri.rsel) ∧
    exec .rirRefresh s = riReadDone s 4
      (0#9 ++ s.ri.refMultibank ++ BitVec.ofBool s.ri.refOptimize ++ BitVec.ofBool s.ri.refEnable
        ++ BitVec.ofBool s.ri.refBank ++ s.ri.refDirtyDelay ++ s.ri.refCleanDelay) ∧
    exec .rirLatency s = riReadDone s 5 (0#28 ++ s.ri.latency) ∧
    exec .rirError s = riReadDone s 6
      (0#29 ++ BitVec.ofBool s.status.overErr ++ BitVec.ofBool s.status.ackErr
        ++ BitVec.ofBool s.status.nackErr) ∧
    exec .rirBankStatus s = riReadDone s 7 (0#16 ++ s.status.dirty ++ s.status.valid)

/-- The six RI writes that are not write-to-clear store their fields, current-load none, and change nothing
else (43_ri_registers.md R222, R224, R226, R228, R230, R232). -/
def Obligations.RiWritesStoreFields : Prop :=
  ∀ (s : State) (w : Word),
    exec (.riwMode w) s = riWriteDone s 0 w
      { s.ri with opMode := w.extractLsb' 0 2, stopT := w.getLsbD 2, stopR := w.getLsbD 3 } ∧
    exec (.riwConfig w) s = riWriteDone s 1 w
      { s.ri with ccIn := w.extractLsb' 0 6, ccEn := w.getLsbD 6 } ∧
    exec (.riwCurrentLoad w) s = riWriteDone s 2 w s.ri ∧
    exec (.riwSelect w) s = riWriteDone s 3 w
      { s.ri with rsel := w.extractLsb' 0 4, tsel := w.extractLsb' 4 4 } ∧
    exec (.riwRefresh w) s = riWriteDone s 4 w
      { s.ri with
        refCleanDelay := w.extractLsb' 0 8, refDirtyDelay := w.extractLsb' 8 8
        refBank := w.getLsbD 16, refEnable := w.getLsbD 17, refOptimize := w.getLsbD 18
        refMultibank := w.extractLsb' 19 4 } ∧
    exec (.riwLatency w) s = riWriteDone s 5 w { s.ri with latency := w.extractLsb' 0 4 }

/-- A write to RI error clears the three error bits, a write to RI bank-status clears the valid bits and
resets the dirty bits, whatever the data (43_ri_registers.md R237, R239, R240). -/
def Obligations.WriteToClearIgnoresData : Prop :=
  ∀ (s : State) (w : Word),
    exec (.riwError w) s = riClearDone s 6 w
      { s.status with nackErr := false, ackErr := false, overErr := false } ∧
    exec (.riwBankStatus w) s = riClearDone s 7 w
      { s.status with valid := 0, dirty := Config.impl.bankDirtyClear }

/-- What is written to an RI register reads back in its stored bits (30_encoding.md R113, R114, R116 to
R118). -/
def Obligations.RiWrittenFieldsReadBack : Prop :=
  ∀ (s t : State) (w : Word),
    (exec (.riwMode w) s = .next t →
      ∃ u, exec .rirMode t = .next u ∧ u.result = .word (w &&& 0xF#32)) ∧
    (exec (.riwConfig w) s = .next t →
      ∃ u, exec .rirConfig t = .next u ∧ u.result = .word (w &&& 0x7F#32)) ∧
    (exec (.riwSelect w) s = .next t →
      ∃ u, exec .rirSelect t = .next u ∧ u.result = .word (w &&& 0xFF#32)) ∧
    (exec (.riwRefresh w) s = .next t →
      ∃ u, exec .rirRefresh t = .next u ∧ u.result = .word (w &&& 0x7FFFFF#32)) ∧
    (exec (.riwLatency w) s = .next t →
      ∃ u, exec .rirLatency t = .next u ∧ u.result = .word (w &&& 0xF#32))

/-! ### Reset -/

/-- RESET from any state leaves every piece of state at its reset value (70_reset_and_hazards.md R310, R311,
10_state.md R50). The model's own choices: the host's operations still to come stay, the result is emptied,
the slots that do not exist hold reset data too (notes/assumptions/1.md, 3.md, 6.md). -/
def Obligations.ResetRestoresEveryField : Prop :=
  ∀ (s : State) (exp : Bool),
    exec (.reset exp) s = .next { State.afterReset Config.impl exp with pending := s.pending }

/-- After power-on reset module 0 answers at IDs 0..CAP_MIB-1 and nothing else does; every module is
disabled at ID 0; every byte is zero; the status bits are clear, dirty at its clear value
(10_state.md R50, 70_reset_and_hazards.md R311). That a slot that does not exist holds the same data is the
model's choice (notes/assumptions/6.md). -/
def Obligations.PowerOnStateIsFactoryState : Prop :=
  (∀ i : Fin 512, State.reset.resp[i] = if i.val < Config.impl.capMib then some 0 else none) ∧
  (∀ m, (State.reset.modAt m).deviceId = 0 ∧ (State.reset.modAt m).valid = false ∧
    (State.reset.modAt m).de = false ∧ ∀ o, (State.reset.modAt m).shadow.read o = 0#8) ∧
  (∀ a, State.reset.live.read a = 0#8) ∧
  State.reset.status.valid = 0 ∧ State.reset.status.dirty = Config.impl.bankDirtyClear ∧
  State.reset.status.ackErr = false ∧ State.reset.status.overErr = false ∧
  State.reset.status.nackErr = false ∧ State.reset.trace = []

/-- EXPANSION_PRESENT is sampled by RESET only (70_reset_and_hazards.md R312). -/
def Obligations.ExpansionSampledByResetOnly : Prop :=
  (∀ (i : Instr) (s t : State), exec i s = .next t → isReset i = false → t.expansion = s.expansion) ∧
  ∀ (s t : State) (exp : Bool), exec (.reset exp) s = .next t → t.expansion = exp

/-! ### Invariants -/

/-- The invariants hold after power-on reset (10_state.md R47, R48, 40_arbitration.md R138, and every buffer
inside its size, 10_state.md R36, R37). That every buffer is in canonical form is about the model's own way
of holding it (notes/assumptions/22.md). -/
def Obligations.PowerOnStateSatisfiesInvariants : Prop := Inv Config.impl State.reset

/-- Every step keeps the derived fields of every module (10_state.md R48): the masked identity, a claimed
range that never leaves the table nor, in the window, the live buffer, and the validity flag. -/
def Obligations.StepKeepsDerivedFields : Prop :=
  ∀ s t : State, ModulesInv Config.impl s → step s = .next t →
    ∀ m, Active t m →
      (t.modAt m).deviceId = (t.modAt m).idField &&& Config.impl.idMask ∧
      (t.modAt m).deviceId.toNat % Config.impl.capMib = 0 ∧
      (t.modAt m).deviceId.toNat + Config.impl.capMib ≤ 512 ∧
      ((t.modAt m).deviceId.toNat < 64 → (t.modAt m).deviceId.toNat + Config.impl.capMib ≤ 64) ∧
      (t.modAt m).valid = ((t.modAt m).de && decide
        (Config.impl.ccWinLo.val ≤ (t.modAt m).cc.toNat ∧
          (t.modAt m).cc.toNat ≤ Config.impl.ccWinHi.val)) ∧
      (t.modAt m).cc.toNat ≤ 63

/-- Every step keeps the responder invariant (10_state.md R47). -/
def Obligations.StepKeepsResponderInvariant : Prop :=
  ∀ s t : State, ModulesInv Config.impl s → ResponderInv Config.impl s → step s = .next t →
    ResponderInv Config.impl t

/-- Every step keeps a slot of the window without a responder all zero, so that an external reader sees
zeros there (40_arbitration.md R138, 20_memory.md R81, 60_exceptions.md R301). -/
def Obligations.StepKeepsUnmappedSlotsZero : Prop :=
  ∀ s t : State, Inv Config.impl s → step s = .next t → ZeroSlots t ∧
    ∀ i : Fin 512, i.val < 64 → t.resp[i] = none → ∀ o < 2 ^ 20,
      t.peek (i.val * 2 ^ 20 + o) 1 = some 0

/-- Every step keeps all the invariants together: the two above, every buffer in canonical form and inside
its size (10_state.md R36, R37), and the zero slots. The canonical form is the model's
(notes/assumptions/22.md). -/
def Obligations.StepKeepsInvariants : Prop :=
  ∀ s t : State, Inv Config.impl s → step s = .next t → Inv Config.impl t
end

