-- ==== Sys2Proof/Laws/Memory.lean ====
section
/-! SUPPORT. The byte buffers: what a read gives after each operation, and that each operation keeps the
canonical form. -/

namespace Sys2Proof.Machine

/-! ### Reads -/

@[simp] theorem Memory.read_nil (a : Nat) : Memory.read [] a = 0#8 := rfl

theorem Memory.read_cons (b : Nat) (v : Byte) (t : Memory) (a : Nat) :
    Memory.read ((b, v) :: t) a = if a = b then v else Memory.read t a := rfl

/-- A buffer that lists no byte at a reads as unlisted there. -/
theorem Memory.read_of_not_listed (m : Memory) (a : Nat) (h : ∀ x ∈ m, x.1 ≠ a) : m.read a = 0#8 := by
  induction m with
  | nil => rfl
  | cons x t ih =>
    obtain ⟨b, v⟩ := x
    have hb : a ≠ b := fun e => h (b, v) (by simp) e.symm
    rw [Memory.read_cons, if_neg hb]
    exact ih fun y hy => h y (by simp [hy])

/-- A read of two buffers in a row: the first where it lists the byte, else the second. -/
theorem Memory.read_append (m n : Memory) (a : Nat) :
    Memory.read (m ++ n) a = if ∃ x ∈ m, x.1 = a then m.read a else n.read a := by
  induction m with
  | nil => simp
  | cons x t ih =>
    obtain ⟨b, v⟩ := x
    rw [List.cons_append, Memory.read_cons, Memory.read_cons, ih]
    by_cases h : a = b
    · simp [h]
    · have h' : ¬ b = a := fun e => h e.symm
      simp [h, h']

/-- A read of the cells that a test on addresses keeps. -/
theorem Memory.read_filter (m : Memory) (p : Nat → Bool) (a : Nat) :
    Memory.read (m.filter (fun c => p c.1)) a = if p a then m.read a else 0#8 := by
  induction m with
  | nil => simp
  | cons x t ih =>
    obtain ⟨b, v⟩ := x
    by_cases hp : p b
    · rw [List.filter_cons_of_pos (by simpa using hp), Memory.read_cons, Memory.read_cons, ih]
      by_cases h : a = b
      · simp [h, hp]
      · simp [h]
    · rw [List.filter_cons_of_neg (by simpa using hp), Memory.read_cons, ih]
      by_cases h : a = b
      · subst h; simp [hp]
      · simp [h]

@[simp] theorem Memory.read_below (m : Memory) (n a : Nat) :
    (m.below n).read a = if a < n then m.read a else 0#8 := by
  simpa [Memory.below] using Memory.read_filter m (fun x => decide (x < n)) a

@[simp] theorem Memory.read_fromAddr (m : Memory) (n a : Nat) :
    (m.fromAddr n).read a = if n ≤ a then m.read a else 0#8 := by
  simpa [Memory.fromAddr] using Memory.read_filter m (fun x => decide (n ≤ x)) a

theorem Memory.mem_below {m : Memory} {n : Nat} {x : Host.Cell} : x ∈ m.below n ↔ x ∈ m ∧ x.1 < n := by
  simp [Memory.below]

theorem Memory.mem_fromAddr {m : Memory} {n : Nat} {x : Host.Cell} :
    x ∈ m.fromAddr n ↔ x ∈ m ∧ n ≤ x.1 := by
  simp [Memory.fromAddr]

/-- A read across a boundary: below it the first buffer, from it on the second. -/
theorem Memory.read_append_split (m n : Memory) (b a : Nat) (hm : ∀ x ∈ m, x.1 < b)
    (hn : ∀ x ∈ n, b ≤ x.1) : Memory.read (m ++ n) a = if a < b then m.read a else n.read a := by
  rw [Memory.read_append]
  by_cases h : ∃ x ∈ m, x.1 = a
  · obtain ⟨x, hx, rfl⟩ := h
    rw [if_pos ⟨x, hx, rfl⟩, if_pos (hm x hx)]
  · rw [if_neg h]
    by_cases hab : a < b
    · rw [if_pos hab, Memory.read_of_not_listed m a fun x hx e => h ⟨x, hx, e⟩]
      exact Memory.read_of_not_listed n a fun x hx e => by have := hn x hx; omega
    · rw [if_neg hab]

/-- `zero` (00_scope.md R16): zero inside the region, unchanged outside. -/
theorem Memory.read_zero (m : Memory) (base n a : Nat) :
    (m.zero base n).read a = if base ≤ a ∧ a < base + n then 0#8 else m.read a := by
  rw [Memory.zero, Memory.read_append_split _ _ (base + n)]
  · rw [Memory.read_below, Memory.read_fromAddr]
    split_ifs <;> first | rfl | omega
  · intro x hx; have := (Memory.mem_below.1 hx).2; omega
  · intro x hx; exact (Memory.mem_fromAddr.1 hx).2

/-- Cells moved from one base address to another. -/
theorem Memory.read_shift (m : Memory) (src dst a : Nat) (h : ∀ x ∈ m, src ≤ x.1) :
    Memory.read (m.map (fun c => (c.1 - src + dst, c.2))) a
      = if dst ≤ a then m.read (a - dst + src) else 0#8 := by
  induction m with
  | nil => simp
  | cons x t ih =>
    obtain ⟨b, v⟩ := x
    have hb : src ≤ b := h (b, v) (by simp)
    rw [List.map_cons, Memory.read_cons, Memory.read_cons, ih fun y hy => h y (by simp [hy])]
    split_ifs <;> first | rfl | omega

theorem Memory.mem_shift {m : Memory} {src dst : Nat} {x : Host.Cell} :
    x ∈ m.map (fun c => (c.1 - src + dst, c.2)) ↔ ∃ y ∈ m, y.1 - src + dst = x.1 ∧ y.2 = x.2 := by
  obtain ⟨a, v⟩ := x
  constructor
  · rintro h
    obtain ⟨y, hy, e⟩ := List.mem_map.1 h
    exact ⟨y, hy, by simpa using e⟩
  · rintro ⟨y, hy, e1, e2⟩
    exact List.mem_map.2 ⟨y, hy, by simp_all⟩

/-- `copy` (00_scope.md R16): the source's bytes inside the region, the destination's outside. -/
theorem Memory.read_copy (dst src : Memory) (dstBase srcBase n a : Nat) :
    (dst.copy dstBase src srcBase n).read a
      = if dstBase ≤ a ∧ a < dstBase + n then src.read (a - dstBase + srcBase) else dst.read a := by
  have hmid : ∀ x ∈ ((src.fromAddr srcBase).below (srcBase + n)), srcBase ≤ x.1 ∧ x.1 < srcBase + n := by
    intro x hx
    have h1 := Memory.mem_below.1 hx
    have h2 := Memory.mem_fromAddr.1 h1.1
    exact ⟨h2.2, h1.2⟩
  rw [Memory.copy, Memory.read_append_split _ _ (dstBase + n), Memory.read_append_split _ _ dstBase,
    Memory.read_shift _ _ _ _ fun x hx => (hmid x hx).1]
  · simp only [Memory.read_below, Memory.read_fromAddr]
    split_ifs <;> first | rfl | omega
  · intro x hx; exact (Memory.mem_below.1 hx).2
  · intro x hx
    obtain ⟨y, -, e, -⟩ := Memory.mem_shift.1 hx
    omega
  · intro x hx
    rcases List.mem_append.1 hx with h | h
    · have := (Memory.mem_below.1 h).2; omega
    · obtain ⟨y, hy, e, -⟩ := Memory.mem_shift.1 h
      have := hmid y hy
      omega
  · intro x hx; exact (Memory.mem_fromAddr.1 hx).2

/-! ### The canonical form -/

theorem Memory.wf_nil : Memory.wf [] := ⟨List.Pairwise.nil, by simp⟩

theorem Memory.wf_cons {x : Host.Cell} {t : Memory} :
    Memory.wf (x :: t) ↔ (∀ y ∈ t, x.1 < y.1) ∧ x.2 ≠ 0#8 ∧ Memory.wf t := by
  simp only [Memory.wf, List.pairwise_cons, List.forall_mem_cons, unlistedByte]
  tauto

/-- Two buffers in a row are canonical when each is and the first ends before the second begins. -/
theorem Memory.wf_append {m n : Memory} (hm : m.wf) (hn : n.wf)
    (h : ∀ x ∈ m, ∀ y ∈ n, x.1 < y.1) : Memory.wf (m ++ n) := by
  refine ⟨List.pairwise_append.2 ⟨hm.1, hn.1, h⟩, ?_⟩
  intro x hx
  rcases List.mem_append.1 hx with hx | hx
  · exact hm.2 x hx
  · exact hn.2 x hx

theorem Memory.wf_below {m : Memory} (h : m.wf) (n : Nat) : (m.below n).wf :=
  ⟨h.1.filter _, fun x hx => h.2 x (Memory.mem_below.1 hx).1⟩

theorem Memory.wf_fromAddr {m : Memory} (h : m.wf) (n : Nat) : (m.fromAddr n).wf :=
  ⟨h.1.filter _, fun x hx => h.2 x (Memory.mem_fromAddr.1 hx).1⟩

theorem Memory.wf_shift {m : Memory} (h : m.wf) (src dst : Nat) (hs : ∀ x ∈ m, src ≤ x.1) :
    Memory.wf (m.map (fun c => (c.1 - src + dst, c.2))) := by
  refine ⟨?_, ?_⟩
  · rw [List.pairwise_map]
    refine h.1.imp_of_mem ?_
    intro x y hx hy hxy
    have := hs x hx
    have := hs y hy
    show x.1 - src + dst < y.1 - src + dst
    omega
  · intro x hx
    obtain ⟨y, hy, -, e⟩ := Memory.mem_shift.1 hx
    rw [← e]
    exact h.2 y hy

/-- `zero` keeps the canonical form. -/
theorem Memory.wf_zero {m : Memory} (h : m.wf) (base n : Nat) : (m.zero base n).wf := by
  refine Memory.wf_append (Memory.wf_below h _) (Memory.wf_fromAddr h _) ?_
  intro x hx y hy
  have := (Memory.mem_below.1 hx).2
  have := (Memory.mem_fromAddr.1 hy).2
  omega

/-- `copy` keeps the canonical form. -/
theorem Memory.wf_copy {dst src : Memory} (hd : dst.wf) (hs : src.wf) (dstBase srcBase n : Nat) :
    (dst.copy dstBase src srcBase n).wf := by
  have hmid : ∀ x ∈ ((src.fromAddr srcBase).below (srcBase + n)), srcBase ≤ x.1 ∧ x.1 < srcBase + n := by
    intro x hx
    have h1 := Memory.mem_below.1 hx
    exact ⟨(Memory.mem_fromAddr.1 h1.1).2, h1.2⟩
  refine Memory.wf_append (Memory.wf_append (Memory.wf_below hd _)
    (Memory.wf_shift (Memory.wf_below (Memory.wf_fromAddr hs _) _) _ _ fun x hx => (hmid x hx).1) ?_)
    (Memory.wf_fromAddr hd _) ?_
  · intro x hx y hy
    have := (Memory.mem_below.1 hx).2
    obtain ⟨z, -, e, -⟩ := Memory.mem_shift.1 hy
    omega
  · intro x hx y hy
    have hy' := (Memory.mem_fromAddr.1 hy).2
    rcases List.mem_append.1 hx with h | h
    · have := (Memory.mem_below.1 h).2; omega
    · obtain ⟨z, hz, e, -⟩ := Memory.mem_shift.1 h
      have := hmid z hz
      omega

/-- A byte listed after a write is the byte written or was listed before. -/
theorem Memory.mem_write {m : Memory} {a : Nat} {v : Byte} {x : Host.Cell} (h : x ∈ m.write a v) :
    x = (a, v) ∨ x ∈ m := by
  induction m with
  | nil =>
    rw [Memory.write] at h
    split_ifs at h
    · exact absurd h (by simp)
    · exact .inl (by simpa using h)
  | cons y t ih =>
    obtain ⟨b, w⟩ := y
    rw [Memory.write] at h
    split_ifs at h with h1 h2 h3 h4
    · exact .inr h
    · rcases List.mem_cons.1 h with h | h
      · exact .inl h
      · exact .inr h
    · exact .inr (by simp [h])
    · subst h3
      rcases List.mem_cons.1 h with h | h
      · exact .inl h
      · exact .inr (by simp [h])
    · rcases List.mem_cons.1 h with h | h
      · exact .inr (by simp [h])
      · rcases ih h with h | h
        · exact .inl h
        · exact .inr (by simp [h])

/-- A write keeps the canonical form (20_memory.md R71, notes/assumptions/22.md). -/
theorem Memory.wf_write {m : Memory} (h : m.wf) (a : Nat) (v : Byte) : (m.write a v).wf := by
  induction m with
  | nil =>
    rw [Memory.write]
    split_ifs with hv
    · exact h
    · exact Memory.wf_cons.2 ⟨by simp, hv, h⟩
  | cons y t ih =>
    obtain ⟨b, w⟩ := y
    obtain ⟨hb, hw, ht⟩ := Memory.wf_cons.1 h
    rw [Memory.write]
    split_ifs with h1 h2 h3 h4
    · exact h
    · refine Memory.wf_cons.2 ⟨?_, h2, h⟩
      intro y hy
      rcases List.mem_cons.1 hy with e | hy
      · rw [e]; exact h1
      · have := hb y hy
        exact Nat.lt_trans h1 this
    · exact ht
    · exact Memory.wf_cons.2 ⟨hb, h4, ht⟩
    · refine Memory.wf_cons.2 ⟨?_, hw, ih ht⟩
      intro y hy
      rcases Memory.mem_write hy with e | hy
      · rw [e]; show b < a; omega
      · exact hb y hy

/-- A read after a write: the byte written there, every other byte as before (20_memory.md R71). -/
theorem Memory.read_write {m : Memory} (h : m.wf) (a b : Nat) (v : Byte) :
    (m.write a v).read b = if b = a then v else m.read b := by
  induction m with
  | nil =>
    rw [Memory.write]
    by_cases hv : v = unlistedByte
    · rw [if_pos hv]; split_ifs with hb
      · rw [hv]; rfl
      · rfl
    · rw [if_neg hv, Memory.read_cons]
  | cons y t ih =>
    obtain ⟨c, w⟩ := y
    obtain ⟨hc, hw, ht⟩ := Memory.wf_cons.1 h
    have hfree : ∀ e, e ≤ c → Memory.read t e = 0#8 := fun e he =>
      Memory.read_of_not_listed t e fun x hx => by have := hc x hx; simp only at this; omega
    have hzero : v = unlistedByte → v = 0#8 := fun e => e
    rw [Memory.write]
    by_cases h1 : a < c
    · rw [if_pos h1]
      by_cases hv : v = unlistedByte
      · rw [if_pos hv]
        by_cases hb : b = a
        · rw [if_pos hb, hzero hv, Memory.read_cons, if_neg (by omega), hfree b (by omega)]
        · rw [if_neg hb]
      · rw [if_neg hv, Memory.read_cons]
    · rw [if_neg h1]
      by_cases h2 : a = c
      · subst h2
        rw [if_pos rfl]
        by_cases hv : v = unlistedByte
        · rw [if_pos hv]
          by_cases hb : b = a
          · rw [if_pos hb, hzero hv, hfree b (by omega)]
          · rw [if_neg hb, Memory.read_cons, if_neg hb]
        · rw [if_neg hv]
          by_cases hb : b = a
          · rw [if_pos hb, Memory.read_cons, if_pos hb]
          · rw [if_neg hb, Memory.read_cons, if_neg hb, Memory.read_cons, if_neg hb]
      · rw [if_neg h2, Memory.read_cons, Memory.read_cons, ih ht]
        by_cases hb : b = c
        · rw [if_pos hb, if_neg (by omega), if_pos hb]
        · rw [if_neg hb, if_neg hb]

/-- Two canonical buffers that read alike are equal. -/
theorem Memory.ext_read {m n : Memory} (hm : m.wf) (hn : n.wf) (h : ∀ a, m.read a = n.read a) : m = n := by
  induction m generalizing n with
  | nil =>
    cases n with
    | nil => rfl
    | cons y u =>
      obtain ⟨c, w⟩ := y
      have := h c
      rw [Memory.read_cons, if_pos rfl] at this
      exact absurd this.symm (Memory.wf_cons.1 hn).2.1
  | cons x t ih =>
    obtain ⟨b, v⟩ := x
    obtain ⟨hb, hv, ht⟩ := Memory.wf_cons.1 hm
    have hbv : Memory.read ((b, v) :: t) b = v := by rw [Memory.read_cons, if_pos rfl]
    cases n with
    | nil =>
      have := h b
      rw [hbv] at this
      exact absurd this hv
    | cons y u =>
      obtain ⟨c, w⟩ := y
      obtain ⟨hc, hw, hu⟩ := Memory.wf_cons.1 hn
      have hcw : Memory.read ((c, w) :: u) c = w := by rw [Memory.read_cons, if_pos rfl]
      have hlowt : ∀ e, e ≤ b → Memory.read t e = 0#8 := fun e he =>
        Memory.read_of_not_listed t e fun z hz => by have := hb z hz; simp only at this; omega
      have hlowu : ∀ e, e ≤ c → Memory.read u e = 0#8 := fun e he =>
        Memory.read_of_not_listed u e fun z hz => by have := hc z hz; simp only at this; omega
      have hbc : b = c := by
        rcases Nat.lt_trichotomy b c with hlt | heq | hgt
        · exfalso
          have := h b
          rw [hbv, Memory.read_cons, if_neg (by omega), hlowu b (by omega)] at this
          exact hv this
        · exact heq
        · exfalso
          have := h c
          rw [hcw, Memory.read_cons, if_neg (by omega), hlowt c (by omega)] at this
          exact hw this.symm
      subst hbc
      have hvw : v = w := by have := h b; rwa [hbv, hcw] at this
      subst hvw
      congr 1
      refine ih ht hu fun a => ?_
      by_cases ha : a = b
      · rw [ha, hlowt b (by omega), hlowu b (by omega)]
      · have := h a
        rwa [Memory.read_cons, if_neg ha, Memory.read_cons, if_neg ha] at this

/-! ### Sizes: the largest listed address -/

theorem Memory.bound_write {m : Memory} {n : Nat} (h : ∀ x ∈ m, x.1 < n) {a : Nat} (ha : a < n) (v : Byte) :
    ∀ x ∈ m.write a v, x.1 < n := by
  intro x hx
  rcases Memory.mem_write hx with e | hx
  · rw [e]; exact ha
  · exact h x hx

theorem Memory.bound_zero {m : Memory} {k : Nat} (h : ∀ x ∈ m, x.1 < k) (base n : Nat) :
    ∀ x ∈ m.zero base n, x.1 < k := by
  intro x hx
  rcases List.mem_append.1 hx with hx | hx
  · exact h x (Memory.mem_below.1 hx).1
  · exact h x (Memory.mem_fromAddr.1 hx).1

theorem Memory.bound_copy {dst src : Memory} {k : Nat} (h : ∀ x ∈ dst, x.1 < k) {dstBase srcBase n : Nat}
    (hk : dstBase + n ≤ k) : ∀ x ∈ dst.copy dstBase src srcBase n, x.1 < k := by
  intro x hx
  rcases List.mem_append.1 hx with hx | hx
  · rcases List.mem_append.1 hx with hx | hx
    · exact h x (Memory.mem_below.1 hx).1
    · obtain ⟨y, hy, e, -⟩ := Memory.mem_shift.1 hx
      have h1 := (Memory.mem_below.1 hy).2
      have h2 := (Memory.mem_fromAddr.1 (Memory.mem_below.1 hy).1).2
      omega
  · exact h x (Memory.mem_fromAddr.1 hx).1

/-! ### Wide accesses -/

/-- `LiveRead` is a number of n bytes. -/
theorem liveRead_lt (m : Memory) (a n : Nat) : liveRead m a n < 256 ^ n := by
  induction n with
  | zero => simp [liveRead]
  | succ k ih =>
    have := (m.read (a + k)).isLt
    simp only [liveRead, Nat.pow_succ]
    omega

/-- `LiveRead` looks at the n bytes from a on alone. -/
theorem liveRead_congr {m m' : Memory} {a n : Nat} (h : ∀ x, a ≤ x → x < a + n → m.read x = m'.read x) :
    liveRead m a n = liveRead m' a n := by
  induction n with
  | zero => rfl
  | succ k ih =>
    simp only [liveRead]
    rw [ih fun x h1 h2 => h x h1 (by omega), h (a + k) (by omega) (by omega)]

/-- `LiveWrite` keeps the canonical form. -/
theorem wf_liveWrite {m : Memory} (h : m.wf) (a n v : Nat) : (liveWrite m a n v).wf := by
  induction n generalizing m a with
  | zero => exact h
  | succ k ih => exact ih (Memory.wf_write h _ _) _

/-- `LiveWrite` lists no byte beyond the ones it stores. -/
theorem bound_liveWrite {m : Memory} {k : Nat} (h : ∀ x ∈ m, x.1 < k) {a n : Nat} (hk : a + n ≤ k) (v : Nat) :
    ∀ x ∈ liveWrite m a n v, x.1 < k := by
  induction n generalizing m a with
  | zero => exact h
  | succ j ih => exact ih (Memory.bound_write h (by omega) _) (by omega)

/-- `LiveWrite` (20_memory.md R70): the bytes of v, the most significant first; every other byte as
before. -/
theorem read_liveWrite {m : Memory} (h : m.wf) (a n v x : Nat) :
    (liveWrite m a n v).read x
      = if a ≤ x ∧ x < a + n then BitVec.ofNat 8 (v / 256 ^ (a + n - 1 - x)) else m.read x := by
  induction n generalizing m a with
  | zero =>
    rw [if_neg (by omega)]; rfl
  | succ k ih =>
    rw [liveWrite, ih (Memory.wf_write h _ _), Memory.read_write h]
    by_cases hx : x = a
    · subst hx
      rw [if_neg (by omega), if_pos rfl, if_pos (by omega)]
      congr 3
      omega
    · rw [if_neg hx]
      by_cases h2 : a ≤ x ∧ x < a + (k + 1)
      · rw [if_pos h2, if_pos (by omega)]
        congr 3
        omega
      · rw [if_neg h2, if_neg (by omega)]

/-- What `LiveRead` gives after a `LiveWrite` at the same place. -/
theorem liveRead_liveWrite {m : Memory} (h : m.wf) (a n v : Nat) :
    liveRead (liveWrite m a n v) a n = v % 256 ^ n := by
  have key : ∀ k ≤ n, liveRead (liveWrite m a n v) a k = v / 256 ^ (n - k) % 256 ^ k := by
    intro k
    induction k with
    | zero => intro _; simp [liveRead, Nat.mod_one]
    | succ j ih =>
      intro hj
      have e1 : a + n - 1 - (a + j) = n - (j + 1) := by omega
      have e2 : n - j = n - (j + 1) + 1 := by omega
      rw [liveRead, ih (by omega), read_liveWrite h, if_pos (by omega), e1, BitVec.toNat_ofNat, e2,
        Nat.pow_succ 256 (n - (j + 1)), ← Nat.div_div_eq_div_mul, show 256 ^ (j + 1) = 256 * 256 ^ j by ring, Nat.mod_mul]
      norm_num
      ring
  simpa using key n (le_refl n)

end Sys2Proof.Machine
end

