-- ==== Sys2Proof/Laws/State.lean ====
section
/-! SUPPORT. What each named update of the state leaves in each field. -/

namespace Sys2Proof.Machine

/-! ### `returns` -/

@[simp] theorem State.returns_expansion (s : State) (r : ReadData) : (s.returns r).expansion = s.expansion := rfl
@[simp] theorem State.returns_mods (s : State) (r : ReadData) : (s.returns r).mods = s.mods := rfl
@[simp] theorem State.returns_live (s : State) (r : ReadData) : (s.returns r).live = s.live := rfl
@[simp] theorem State.returns_resp (s : State) (r : ReadData) : (s.returns r).resp = s.resp := rfl
@[simp] theorem State.returns_status (s : State) (r : ReadData) : (s.returns r).status = s.status := rfl
@[simp] theorem State.returns_ri (s : State) (r : ReadData) : (s.returns r).ri = s.ri := rfl
@[simp] theorem State.returns_trace (s : State) (r : ReadData) : (s.returns r).trace = s.trace := rfl
@[simp] theorem State.returns_result (s : State) (r : ReadData) : (s.returns r).result = r := rfl
@[simp] theorem State.returns_pending (s : State) (r : ReadData) : (s.returns r).pending = s.pending := rfl
@[simp] theorem State.returns_modAt (s : State) (r : ReadData) (m : Slot) :
    (s.returns r).modAt m = s.modAt m := rfl
@[simp] theorem State.returns_responder (s : State) (r : ReadData) (d : DevId) :
    (s.returns r).responder d = s.responder d := rfl

/-! ### `emit` -/

@[simp] theorem State.emit_expansion (s : State) (e : Event) : (s.emit e).expansion = s.expansion := rfl
@[simp] theorem State.emit_mods (s : State) (e : Event) : (s.emit e).mods = s.mods := rfl
@[simp] theorem State.emit_live (s : State) (e : Event) : (s.emit e).live = s.live := rfl
@[simp] theorem State.emit_resp (s : State) (e : Event) : (s.emit e).resp = s.resp := rfl
@[simp] theorem State.emit_status (s : State) (e : Event) : (s.emit e).status = s.status := rfl
@[simp] theorem State.emit_ri (s : State) (e : Event) : (s.emit e).ri = s.ri := rfl
@[simp] theorem State.emit_trace (s : State) (e : Event) : (s.emit e).trace = s.trace ++ [e] := rfl
@[simp] theorem State.emit_result (s : State) (e : Event) : (s.emit e).result = s.result := rfl
@[simp] theorem State.emit_pending (s : State) (e : Event) : (s.emit e).pending = s.pending := rfl
@[simp] theorem State.emit_modAt (s : State) (e : Event) (m : Slot) : (s.emit e).modAt m = s.modAt m := rfl
@[simp] theorem State.emit_responder (s : State) (e : Event) (d : DevId) :
    (s.emit e).responder d = s.responder d := rfl

/-! ### `setMod` -/

@[simp] theorem State.setMod_expansion (s : State) (m : Slot) (M : MemModule) :
    (s.setMod m M).expansion = s.expansion := rfl
@[simp] theorem State.setMod_live (s : State) (m : Slot) (M : MemModule) : (s.setMod m M).live = s.live := rfl
@[simp] theorem State.setMod_resp (s : State) (m : Slot) (M : MemModule) : (s.setMod m M).resp = s.resp := rfl
@[simp] theorem State.setMod_status (s : State) (m : Slot) (M : MemModule) :
    (s.setMod m M).status = s.status := rfl
@[simp] theorem State.setMod_ri (s : State) (m : Slot) (M : MemModule) : (s.setMod m M).ri = s.ri := rfl
@[simp] theorem State.setMod_trace (s : State) (m : Slot) (M : MemModule) :
    (s.setMod m M).trace = s.trace := rfl
@[simp] theorem State.setMod_result (s : State) (m : Slot) (M : MemModule) :
    (s.setMod m M).result = s.result := rfl
@[simp] theorem State.setMod_pending (s : State) (m : Slot) (M : MemModule) :
    (s.setMod m M).pending = s.pending := rfl
@[simp] theorem State.setMod_responder (s : State) (m : Slot) (M : MemModule) (d : DevId) :
    (s.setMod m M).responder d = s.responder d := rfl

/-- A module set is the module read there; every other one reads as before. -/
theorem State.modAt_setMod (s : State) (m j : Slot) (M : MemModule) :
    (s.setMod m M).modAt j = if j = m then M else s.modAt j := by
  simp only [State.modAt, State.setMod, Vector.getElem_set, Fin.ext_iff, eq_comm]

@[simp] theorem State.modAt_setMod_self (s : State) (m : Slot) (M : MemModule) :
    (s.setMod m M).modAt m = M := by simp [State.modAt_setMod]

@[simp] theorem State.modAt_setMod_ne (s : State) {m j : Slot} (M : MemModule) (h : j ≠ m) :
    (s.setMod m M).modAt j = s.modAt j := by simp [State.modAt_setMod, h]

@[simp] theorem State.setMod_mods (s : State) (m : Slot) (M : MemModule) :
    (s.setMod m M).mods = s.mods.set m.val M := rfl

/-- Setting a module to what it is changes nothing. -/
theorem State.setMod_modAt (s : State) (m : Slot) : s.setMod m (s.modAt m) = s := by
  simp [State.setMod, State.modAt]

/-- Two lists of modules that agree at every slot are equal. -/
theorem State.mods_ext {s t : State} (h : ∀ m, s.modAt m = t.modAt m) : s.mods = t.mods := by
  apply Vector.ext
  intro i hi
  exact h ⟨i, hi⟩

/-- Two responder tables that agree at every entry are equal. -/
theorem State.resp_ext {s t : State} (h : ∀ i : Fin 512, s.resp[i] = t.resp[i]) : s.resp = t.resp := by
  apply Vector.ext
  intro i hi
  exact h ⟨i, hi⟩

/-- The responder of an ID is the table's entry. -/
theorem State.responder_eq (s : State) (d : DevId) : s.responder d = s.resp[d.toFin] := rfl

/-! ### Degraded conditions -/

@[simp] theorem recordNoResponder_expansion (k : AccessKind) (d : DevId) (s : State) :
    (recordNoResponder k d s).expansion = s.expansion := rfl
@[simp] theorem recordNoResponder_mods (k : AccessKind) (d : DevId) (s : State) :
    (recordNoResponder k d s).mods = s.mods := rfl
@[simp] theorem recordNoResponder_live (k : AccessKind) (d : DevId) (s : State) :
    (recordNoResponder k d s).live = s.live := rfl
@[simp] theorem recordNoResponder_resp (k : AccessKind) (d : DevId) (s : State) :
    (recordNoResponder k d s).resp = s.resp := rfl
@[simp] theorem recordNoResponder_status (k : AccessKind) (d : DevId) (s : State) :
    (recordNoResponder k d s).status = { s.status with ackErr := true } := rfl
@[simp] theorem recordNoResponder_ri (k : AccessKind) (d : DevId) (s : State) :
    (recordNoResponder k d s).ri = s.ri := rfl
@[simp] theorem recordNoResponder_trace (k : AccessKind) (d : DevId) (s : State) :
    (recordNoResponder k d s).trace = s.trace ++ [.noResponder k d] := rfl
@[simp] theorem recordNoResponder_result (k : AccessKind) (d : DevId) (s : State) :
    (recordNoResponder k d s).result = s.result := rfl
@[simp] theorem recordNoResponder_pending (k : AccessKind) (d : DevId) (s : State) :
    (recordNoResponder k d s).pending = s.pending := rfl
@[simp] theorem recordNoResponder_modAt (k : AccessKind) (d : DevId) (s : State) (m : Slot) :
    (recordNoResponder k d s).modAt m = s.modAt m := rfl
@[simp] theorem recordNoResponder_responder (k : AccessKind) (d e : DevId) (s : State) :
    (recordNoResponder k d s).responder e = s.responder e := rfl

/-- A closed gate leaves one event and nothing else (60_exceptions.md R282). -/
theorem recordGateClosed_eq (m : Slot) (sub : BitVec 8) (s : State) :
    recordGateClosed m sub s = { s with trace := s.trace ++ [.gateClosed m sub] } := rfl

/-! ### `hookMemIf` -/

/-- The hook of a memory access changes the trace alone, and only for a tag that is not empty. -/
theorem hookMemIf_eq (tag : Tag) (e : Event) (s : State) :
    hookMemIf tag e s = { s with trace := s.trace ++ (if tag = [] then [] else [e]) } := by
  cases tag <;> simp [hookMemIf, State.emit]

@[simp] theorem hookMemIf_expansion (tag : Tag) (e : Event) (s : State) :
    (hookMemIf tag e s).expansion = s.expansion := by rw [hookMemIf_eq]
@[simp] theorem hookMemIf_mods (tag : Tag) (e : Event) (s : State) : (hookMemIf tag e s).mods = s.mods := by
  rw [hookMemIf_eq]
@[simp] theorem hookMemIf_live (tag : Tag) (e : Event) (s : State) : (hookMemIf tag e s).live = s.live := by
  rw [hookMemIf_eq]
@[simp] theorem hookMemIf_resp (tag : Tag) (e : Event) (s : State) : (hookMemIf tag e s).resp = s.resp := by
  rw [hookMemIf_eq]
@[simp] theorem hookMemIf_status (tag : Tag) (e : Event) (s : State) :
    (hookMemIf tag e s).status = s.status := by rw [hookMemIf_eq]
@[simp] theorem hookMemIf_ri (tag : Tag) (e : Event) (s : State) : (hookMemIf tag e s).ri = s.ri := by
  rw [hookMemIf_eq]
@[simp] theorem hookMemIf_trace (tag : Tag) (e : Event) (s : State) :
    (hookMemIf tag e s).trace = s.trace ++ (if tag = [] then [] else [e]) := by rw [hookMemIf_eq]
@[simp] theorem hookMemIf_result (tag : Tag) (e : Event) (s : State) :
    (hookMemIf tag e s).result = s.result := by rw [hookMemIf_eq]
@[simp] theorem hookMemIf_pending (tag : Tag) (e : Event) (s : State) :
    (hookMemIf tag e s).pending = s.pending := by rw [hookMemIf_eq]
@[simp] theorem hookMemIf_modAt (tag : Tag) (e : Event) (s : State) (m : Slot) :
    (hookMemIf tag e s).modAt m = s.modAt m := by rw [hookMemIf_eq]; rfl
@[simp] theorem hookMemIf_responder (tag : Tag) (e : Event) (s : State) (d : DevId) :
    (hookMemIf tag e s).responder d = s.responder d := by rw [hookMemIf_eq]; rfl

end Sys2Proof.Machine
end

