-- ==== Sys2Proof/Laws/Arbitration.lean ====
section
/-! SUPPORT. The capacity and the claimed ranges, the responder table, and what `map` and `unmap` do. -/

namespace Sys2Proof

/-! ### The capacity (00_scope.md R8, 10_state.md R23) -/

theorem Config.capMib_pos (c : Config) : 0 < c.capMib := Nat.two_pow_pos _

theorem Config.capMib_le (c : Config) : c.capMib ≤ 64 :=
  Nat.pow_le_pow_right (n := 2) (by decide) (show c.capLog.val ≤ 6 by have := c.capLog.isLt; omega)

/-- CAP_MIB divides the number of device IDs. -/
theorem Config.capMib_dvd (c : Config) : c.capMib ∣ 512 :=
  show 2 ^ c.capLog.val ∣ 2 ^ 9 from Nat.pow_dvd_pow 2 (by have := c.capLog.isLt; omega)

/-- CAP_MIB divides the number of IDs of the window. -/
theorem Config.capMib_dvd_window (c : Config) : c.capMib ∣ windowIds :=
  show 2 ^ c.capLog.val ∣ 2 ^ 6 from Nat.pow_dvd_pow 2 (by have := c.capLog.isLt; omega)

theorem Config.capBytes_eq (c : Config) : c.capBytes = c.capMib * 0x100000 := rfl

/-- The capacity mask rounds an ID down to a multiple of CAP_MIB. -/
theorem Config.and_idMask_toNat (c : Config) (f : DevId) :
    (f &&& c.idMask).toNat = f.toNat / c.capMib * c.capMib := by
  have h : ∀ k : Fin 7, ∀ f : BitVec 9,
      (f &&& ~~~(BitVec.ofNat 9 (2 ^ k.val - 1))).toNat = f.toNat / 2 ^ k.val * 2 ^ k.val := by
    decide +kernel
  exact h c.capLog f

theorem Config.and_idMask_mod (c : Config) (f : DevId) : (f &&& c.idMask).toNat % c.capMib = 0 := by
  rw [c.and_idMask_toNat]; exact Nat.mul_mod_left _ _

end Sys2Proof

namespace Sys2Proof.Machine

/-- A multiple of n below a multiple of n leaves room for n. -/
theorem room_of_mod {d n b : Nat} (hd : d % n = 0) (hb : n ∣ b) (h : d < b) : d + n ≤ b := by
  obtain ⟨k, rfl⟩ := Nat.dvd_of_mod_eq_zero hd
  obtain ⟨j, rfl⟩ := hb
  have hkj : k < j := Nat.lt_of_mul_lt_mul_left h
  calc n * k + n = n * (k + 1) := by ring
    _ ≤ n * j := Nat.mul_le_mul_left n hkj

/-- Two multiples of n whose ranges of n meet are equal. -/
theorem eq_of_mod_meet {d e n i : Nat} (hd : d % n = 0) (he : e % n = 0) (h1 : d ≤ i) (h2 : i < d + n)
    (h3 : e ≤ i) (h4 : i < e + n) : d = e := by
  rcases Nat.lt_trichotomy d e with h | h | h
  · have := room_of_mod hd (Nat.dvd_of_mod_eq_zero he) h; omega
  · exact h
  · have := room_of_mod he (Nat.dvd_of_mod_eq_zero hd) h; omega

/-! ### The responder table -/

theorem getElem_fillRange (lo n : Nat) (o : Option Slot) (i : Nat) (l : List (Option Slot)) (k : Nat)
    (h : k < (fillRange lo n o i l).length) :
    (fillRange lo n o i l)[k]
      = if lo ≤ i + k ∧ i + k < lo + n then o else l[k]'(by rwa [fillRange_length] at h) := by
  induction l generalizing i k with
  | nil => simp [fillRange] at h
  | cons x xs ih =>
    cases k with
    | zero => simp [fillRange]
    | succ j =>
      simp only [fillRange, List.getElem_cons_succ]
      rw [ih]
      simp only [Nat.add_assoc, Nat.add_comm 1 j]

/-- A filled table: the new entry inside the range, the old one outside (40_arbitration.md R131, R135). -/
theorem getElem_fillResp (r : Vector (Option Slot) 512) (d n : Nat) (o : Option Slot) (k : Nat) (h : k < 512) :
    (fillResp r d n o)[k] = if d ≤ k ∧ k < d + n then o else r[k] := by
  have := getElem_fillRange d n o 0 r.toArray.toList k (by simpa [fillRange_length] using h)
  simpa [fillResp] using this

/-- Filling a range twice is filling it the second time. -/
theorem fillResp_fillResp (r : Vector (Option Slot) 512) (d n : Nat) (o p : Option Slot) :
    fillResp (fillResp r d n o) d n p = fillResp r d n p := by
  apply Vector.ext
  intro i hi
  simp only [getElem_fillResp]
  split_ifs <;> rfl

/-- Filling a range with what it holds changes nothing. -/
theorem fillResp_same (r : Vector (Option Slot) 512) (d n : Nat) (o : Option Slot)
    (h : ∀ k (hk : k < 512), d ≤ k → k < d + n → r[k] = o) : fillResp r d n o = r := by
  apply Vector.ext
  intro i hi
  rw [getElem_fillResp]
  split_ifs with hc
  · exact (h i hi hc.1 hc.2).symm
  · rfl

/-- The table after reset (70_reset_and_hazards.md R311). -/
theorem getElem_initialResp (c : Config) (k : Nat) (h : k < 512) :
    (initialResp c)[k] = if k < c.capMib then some 0 else none := by
  have e : (initialResp c)[k]
      = (List.replicate c.capMib (some (0 : Slot)) ++ List.replicate (512 - c.capMib) none)[k]'(by
        have := c.capMib_le; simp; omega) := rfl
  rw [e, List.getElem_append]
  by_cases h1 : k < c.capMib
  · rw [if_pos h1, dif_pos (by simpa using h1), List.getElem_replicate]
  · rw [if_neg h1, dif_neg (by simpa using h1), List.getElem_replicate]

/-! ### The existing modules (00_scope.md R7) -/

theorem mem_activeSlots (e : Bool) (m : Slot) : m ∈ activeSlots e ↔ m.val < nmod e := by
  revert e m; decide

theorem activeSlots_pairwise (e : Bool) : (activeSlots e).Pairwise (· < ·) := by
  revert e; decide

/-- Step 3 of `unmap`: the smallest existing module other than m that claims d, if there is one. -/
theorem nextClaimant_eq_some {s : State} {m : Slot} {d : DevId} {k : Slot} :
    nextClaimant s m d = some k ↔ (Active s k ∧ k ≠ m ∧ (s.modAt k).deviceId = d ∧
      ∀ j, Active s j → j ≠ m → (s.modAt j).deviceId = d → k ≤ j) := by
  have hp := activeSlots_pairwise s.expansion
  have hmem := mem_activeSlots s.expansion
  rw [nextClaimant, List.find?_eq_some_iff_append]
  constructor
  · rintro ⟨hk, as, bs, hl, has⟩
    have hk' : k ≠ m ∧ (s.modAt k).deviceId = d := by simpa using hk
    refine ⟨(hmem k).1 (by rw [hl]; simp), hk'.1, hk'.2, ?_⟩
    intro j hj hjm hjd
    have hin : j ∈ as ++ k :: bs := hl ▸ (hmem j).2 hj
    rcases List.mem_append.1 hin with h | h
    · have := has j h; simp [hjm, hjd] at this
    · rcases List.mem_cons.1 h with h | h
      · exact le_of_eq h.symm
      · rw [hl, List.pairwise_append] at hp
        exact le_of_lt ((List.pairwise_cons.1 hp.2.1).1 j h)
  · rintro ⟨hk, hkm, hkd, hleast⟩
    refine ⟨by simp [hkm, hkd], ?_⟩
    obtain ⟨as, bs, hl⟩ := List.append_of_mem ((hmem k).2 hk)
    refine ⟨as, bs, hl, ?_⟩
    intro j hj
    have hja : Active s j := (hmem j).1 (by rw [hl]; simp [hj])
    have hjk : j < k := by
      rw [hl, List.pairwise_append] at hp
      exact hp.2.2 j hj k (by simp)
    by_contra hc
    have : j ≠ m ∧ (s.modAt j).deviceId = d := by simpa using hc
    exact absurd (hleast j hja this.1 this.2) (not_le.2 hjk)

theorem nextClaimant_eq_none {s : State} {m : Slot} {d : DevId} :
    nextClaimant s m d = none ↔ ∀ j, Active s j → j ≠ m → (s.modAt j).deviceId ≠ d := by
  rw [nextClaimant, List.find?_eq_none]
  constructor
  · intro h j hj hjm hjd
    exact h j ((mem_activeSlots _ _).2 hj) (by simp [hjm, hjd])
  · intro h j hj hc
    have : j ≠ m ∧ (s.modAt j).deviceId = d := by simpa using hc
    exact h j ((mem_activeSlots _ _).1 hj) this.1 this.2

/-! ### `claim` and `saveImage` -/

@[simp] theorem claim_mods (c : Config) (m : Slot) (s : State) : (claim c m s).mods = s.mods := rfl
@[simp] theorem claim_modAt (c : Config) (m j : Slot) (s : State) : (claim c m s).modAt j = s.modAt j := rfl
@[simp] theorem claim_expansion (c : Config) (m : Slot) (s : State) : (claim c m s).expansion = s.expansion := rfl
@[simp] theorem claim_status (c : Config) (m : Slot) (s : State) : (claim c m s).status = s.status := rfl
@[simp] theorem claim_ri (c : Config) (m : Slot) (s : State) : (claim c m s).ri = s.ri := rfl
@[simp] theorem claim_trace (c : Config) (m : Slot) (s : State) : (claim c m s).trace = s.trace := rfl
@[simp] theorem claim_result (c : Config) (m : Slot) (s : State) : (claim c m s).result = s.result := rfl
@[simp] theorem claim_pending (c : Config) (m : Slot) (s : State) : (claim c m s).pending = s.pending := rfl
@[simp] theorem claim_resp (c : Config) (m : Slot) (s : State) :
    (claim c m s).resp = fillResp s.resp (s.modAt m).deviceId.toNat c.capMib (some m) := rfl
@[simp] theorem claim_live (c : Config) (m : Slot) (s : State) :
    (claim c m s).live = if inWindow (s.modAt m).deviceId then
      s.live.copy ((s.modAt m).deviceId.toNat * idSlotBytes) (s.modAt m).shadow 0 c.capBytes
      else s.live := rfl

/-- Saving an image changes the shadow of that one module. -/
theorem saveImage_eq (c : Config) (m : Slot) (s : State) :
    saveImage c m s = s.setMod m { s.modAt m with
      shadow := if inWindow (s.modAt m).deviceId then
        (s.modAt m).shadow.copy 0 s.live ((s.modAt m).deviceId.toNat * idSlotBytes) c.capBytes
        else (s.modAt m).shadow } := by
  by_cases h : inWindow (s.modAt m).deviceId = true
  · simp only [saveImage, if_pos h]
  · simp only [saveImage, if_neg h]
    exact (State.setMod_modAt s m).symm

@[simp] theorem saveImage_live (c : Config) (m : Slot) (s : State) : (saveImage c m s).live = s.live := by
  rw [saveImage_eq]; rfl
@[simp] theorem saveImage_resp (c : Config) (m : Slot) (s : State) : (saveImage c m s).resp = s.resp := by
  rw [saveImage_eq]; rfl
@[simp] theorem saveImage_expansion (c : Config) (m : Slot) (s : State) :
    (saveImage c m s).expansion = s.expansion := by rw [saveImage_eq]; rfl
@[simp] theorem saveImage_status (c : Config) (m : Slot) (s : State) : (saveImage c m s).status = s.status := by
  rw [saveImage_eq]; rfl
@[simp] theorem saveImage_ri (c : Config) (m : Slot) (s : State) : (saveImage c m s).ri = s.ri := by
  rw [saveImage_eq]; rfl
@[simp] theorem saveImage_trace (c : Config) (m : Slot) (s : State) : (saveImage c m s).trace = s.trace := by
  rw [saveImage_eq]; rfl
@[simp] theorem saveImage_result (c : Config) (m : Slot) (s : State) : (saveImage c m s).result = s.result := by
  rw [saveImage_eq]; rfl
@[simp] theorem saveImage_pending (c : Config) (m : Slot) (s : State) :
    (saveImage c m s).pending = s.pending := by rw [saveImage_eq]; rfl

@[simp] theorem saveImage_deviceId (c : Config) (m j : Slot) (s : State) :
    ((saveImage c m s).modAt j).deviceId = (s.modAt j).deviceId := by
  rw [saveImage_eq, State.modAt_setMod]
  by_cases h : j = m
  · rw [if_pos h, h]
  · rw [if_neg h]

theorem saveImage_modAt_ne (c : Config) {m j : Slot} (s : State) (h : j ≠ m) :
    (saveImage c m s).modAt j = s.modAt j := by
  rw [saveImage_eq, State.modAt_setMod_ne _ _ h]

/-! ### `map` and `unmap` -/

/-- The state that an eviction of m leaves: its image saved, its range handed to the next claimant, whose
shadow replaces the image in the window, or cleared and zeroed (40_arbitration.md R135 steps 2 to 4). -/
def evicted (c : Config) (m : Slot) (s : State) : State :=
  let d := (s.modAt m).deviceId
  { saveImage c m s with
    resp := fillResp s.resp d.toNat c.capMib (nextClaimant s m d)
    live :=
      if inWindow d then
        match nextClaimant s m d with
        | some k => s.live.copy (d.toNat * idSlotBytes) (s.modAt k).shadow 0 c.capBytes
        | none => s.live.zero (d.toNat * idSlotBytes) c.capBytes
      else s.live }

/-- `map` of a module whose ID is unclaimed, at any depth but 0. -/
theorem mapFuel_claim {c : Config} {f : Nat} {m : Slot} {s : State}
    (h : s.responder (s.modAt m).deviceId = none) : mapFuel c (f + 1) m s = claim c m s := by
  simp only [mapFuel, h]

/-- `unmap` of a responder does all of `evicted`, whatever depth is left to the nested `map`. -/
theorem unmapWith_mapFuel {c : Config} {f : Nat} {m : Slot} {s : State}
    (h : s.responder (s.modAt m).deviceId = some m) :
    unmapWith c (mapFuel c (f + 1)) m s = evicted c m s := by
  have hcap := c.capMib_pos
  set d := (s.modAt m).deviceId with hd
  have hn : nextClaimant { saveImage c m s with
      resp := fillResp (saveImage c m s).resp d.toNat c.capMib none } m d = nextClaimant s m d := by
    simp only [nextClaimant, saveImage_expansion]
    congr 1
    funext j
    congr 2
    exact congrArg (· = d) (saveImage_deviceId c m j s)
  simp only [unmapWith, ← hd, h, ne_eq, not_true_eq_false, if_false, hn]
  cases hk : nextClaimant s m d with
  | none =>
    simp only [evicted, ← hd, hk, saveImage_resp, saveImage_live]
    split_ifs
    · rfl
    · rw [← saveImage_live c m s, ← saveImage_resp c m s]
  | some k =>
    obtain ⟨-, hkm, hkd, -⟩ := nextClaimant_eq_some.1 hk
    have hmod : (saveImage c m s).modAt k = s.modAt k := saveImage_modAt_ne c s hkm
    simp only []
    rw [mapFuel_claim]
    · simp only [claim, evicted, ← hd, hk, saveImage_resp, saveImage_live]
      simp only [State.modAt] at hmod hkd
      simp only [State.modAt, hmod, hkd, fillResp_fillResp]
    · show State.responder _ ((saveImage c m s).modAt k).deviceId = none
      rw [hmod, hkd]
      simp only [State.responder, saveImage_resp]
      rw [getElem_fillResp, if_pos (by omega)]

/-- `unmap(m)` (40_arbitration.md R135): nothing for a module that is not the responder of its ID, the
eviction for one that is. -/
theorem unmapModule_eq (c : Config) (m : Slot) (s : State) :
    unmapModule c m s =
      if s.responder (s.modAt m).deviceId = some m then evicted c m s else s := by
  split_ifs with h
  · exact unmapWith_mapFuel h
  · simp only [unmapModule, unmapWith, ne_eq, h, not_false_eq_true, if_true]

/-- `map(m)` (40_arbitration.md R131): the claim of an unclaimed ID, the eviction of a responder of lower
priority, or nothing. -/
theorem mapModule_eq (c : Config) (m : Slot) (s : State) :
    mapModule c m s =
      match s.responder (s.modAt m).deviceId with
      | none => claim c m s
      | some r => if m < r then unmapModule c r s else s := by
  have h4 : mapModule c m s = mapFuel c (3 + 1) m s := rfl
  rw [h4, mapFuel]
  cases hr : s.responder (s.modAt m).deviceId with
  | none => rfl
  | some r =>
    simp only []
    split_ifs
    · rw [unmapModule_eq]
      split_ifs with h
      · exact unmapWith_mapFuel h
      · simp only [unmapWith, ne_eq, h, not_false_eq_true, if_true]
    · rfl

/-- What `evicted` leaves in each field. -/
@[simp] theorem evicted_expansion (c : Config) (m : Slot) (s : State) :
    (evicted c m s).expansion = s.expansion := saveImage_expansion c m s
@[simp] theorem evicted_status (c : Config) (m : Slot) (s : State) : (evicted c m s).status = s.status :=
  saveImage_status c m s
@[simp] theorem evicted_ri (c : Config) (m : Slot) (s : State) : (evicted c m s).ri = s.ri :=
  saveImage_ri c m s
@[simp] theorem evicted_trace (c : Config) (m : Slot) (s : State) : (evicted c m s).trace = s.trace :=
  saveImage_trace c m s
@[simp] theorem evicted_result (c : Config) (m : Slot) (s : State) : (evicted c m s).result = s.result :=
  saveImage_result c m s
@[simp] theorem evicted_pending (c : Config) (m : Slot) (s : State) : (evicted c m s).pending = s.pending :=
  saveImage_pending c m s
@[simp] theorem evicted_mods (c : Config) (m : Slot) (s : State) :
    (evicted c m s).mods = (saveImage c m s).mods := rfl
@[simp] theorem evicted_modAt (c : Config) (m j : Slot) (s : State) :
    (evicted c m s).modAt j = (saveImage c m s).modAt j := rfl
@[simp] theorem evicted_resp (c : Config) (m : Slot) (s : State) :
    (evicted c m s).resp = fillResp s.resp (s.modAt m).deviceId.toNat c.capMib
      (nextClaimant s m (s.modAt m).deviceId) := rfl

theorem evicted_live_outside {c : Config} {m : Slot} {s : State}
    (hw : ¬ inWindow (s.modAt m).deviceId = true) : (evicted c m s).live = s.live := if_neg hw

theorem evicted_live_none {c : Config} {m : Slot} {s : State} (hw : inWindow (s.modAt m).deviceId = true)
    (h : nextClaimant s m (s.modAt m).deviceId = none) :
    (evicted c m s).live = s.live.zero ((s.modAt m).deviceId.toNat * idSlotBytes) c.capBytes := by
  simp only [evicted, h, if_pos hw]

theorem evicted_live_some {c : Config} {m k : Slot} {s : State} (hw : inWindow (s.modAt m).deviceId = true)
    (h : nextClaimant s m (s.modAt m).deviceId = some k) :
    (evicted c m s).live
      = s.live.copy ((s.modAt m).deviceId.toNat * idSlotBytes) (s.modAt k).shadow 0 c.capBytes := by
  simp only [evicted, h, if_pos hw]

/-- A byte of the live buffer after an eviction. -/
theorem read_evicted_live (c : Config) (m : Slot) (s : State) (a : Nat) :
    (evicted c m s).live.read a =
      if inWindow (s.modAt m).deviceId = true ∧ (s.modAt m).deviceId.toNat * idSlotBytes ≤ a ∧
          a < (s.modAt m).deviceId.toNat * idSlotBytes + c.capBytes then
        match nextClaimant s m (s.modAt m).deviceId with
        | some k => (s.modAt k).shadow.read (a - (s.modAt m).deviceId.toNat * idSlotBytes)
        | none => 0#8
      else s.live.read a := by
  by_cases hw : inWindow (s.modAt m).deviceId = true
  · cases hk : nextClaimant s m (s.modAt m).deviceId with
    | none =>
      rw [evicted_live_none hw hk, Memory.read_zero]
      by_cases hr : (s.modAt m).deviceId.toNat * idSlotBytes ≤ a ∧
          a < (s.modAt m).deviceId.toNat * idSlotBytes + c.capBytes
      · rw [if_pos hr, if_pos ⟨hw, hr⟩]
      · rw [if_neg hr, if_neg fun h => hr h.2]
    | some k =>
      rw [evicted_live_some hw hk, Memory.read_copy, Nat.add_zero]
      by_cases hr : (s.modAt m).deviceId.toNat * idSlotBytes ≤ a ∧
          a < (s.modAt m).deviceId.toNat * idSlotBytes + c.capBytes
      · rw [if_pos hr, if_pos ⟨hw, hr⟩]
      · rw [if_neg hr, if_neg fun h => hr h.2]
  · rw [evicted_live_outside hw, if_neg fun h => hw h.1]

/-- A byte of a shadow after an image was saved. -/
theorem read_saveImage_shadow (c : Config) (m : Slot) (s : State) (o : Nat) :
    ((saveImage c m s).modAt m).shadow.read o =
      if inWindow (s.modAt m).deviceId = true ∧ o < c.capBytes then
        s.live.read ((s.modAt m).deviceId.toNat * idSlotBytes + o)
      else (s.modAt m).shadow.read o := by
  rw [saveImage_eq, State.modAt_setMod_self]
  generalize (s.modAt m).deviceId.toNat * idSlotBytes = base
  by_cases hw : inWindow (s.modAt m).deviceId = true
  · simp only [hw, if_true, true_and, Memory.read_copy, Nat.zero_add, Nat.zero_le, Nat.sub_zero,
      Nat.add_comm o]
  · simp only [if_neg hw, if_neg fun h => hw (And.left h)]

/-- A byte of the live buffer after a claim. -/
theorem read_claim_live (c : Config) (m : Slot) (s : State) (a : Nat) :
    (claim c m s).live.read a =
      if inWindow (s.modAt m).deviceId = true ∧ (s.modAt m).deviceId.toNat * idSlotBytes ≤ a ∧
          a < (s.modAt m).deviceId.toNat * idSlotBytes + c.capBytes then
        (s.modAt m).shadow.read (a - (s.modAt m).deviceId.toNat * idSlotBytes)
      else s.live.read a := by
  by_cases hw : inWindow (s.modAt m).deviceId = true
  · rw [claim_live, if_pos hw, Memory.read_copy, Nat.add_zero]
    by_cases hr : (s.modAt m).deviceId.toNat * idSlotBytes ≤ a ∧
        a < (s.modAt m).deviceId.toNat * idSlotBytes + c.capBytes
    · rw [if_pos hr, if_pos ⟨hw, hr⟩]
    · rw [if_neg hr, if_neg fun h => hr h.2]
  · rw [claim_live, if_neg hw, if_neg fun h => hw h.1]

end Sys2Proof.Machine
end

