-- ==== Sys2Proof/Laws/Layout.lean ====
section
/-! SUPPORT. Fields of a word: what `gather` reads and `scatter` places, and both over consecutive bits. -/

namespace Sys2Proof

@[simp] theorem Config.impl_layout : Config.impl.layout = specLayout := rfl

@[simp] theorem Config.ref_layout : Config.ref.layout = specLayout := rfl

/-- Bit i of a gathered field is the word's bit at the field's position i. -/
theorem getLsbD_gather {n : Nat} (p : Bits n) (f : Nat → Bool) (i : Fin n) :
    (gather p f).getLsbD i = f (p i) := by
  induction n with
  | zero => exact i.elim0
  | succ k ih =>
    rw [gather, BitVec.getLsbD_cons]
    by_cases h : i.val = k
    · have e : i = Fin.last k := Fin.ext h
      rw [if_pos h, e]
    · have e : i = (⟨i.val, by omega⟩ : Fin k).castSucc := rfl
      rw [if_neg h]
      exact ih (fun j => p j.castSucc) ⟨i.val, by omega⟩

/-- A gathered field is settled by the word's bits at its positions. -/
theorem gather_congr {n : Nat} {p : Bits n} {f g : Nat → Bool} (h : ∀ i, f (p i) = g (p i)) :
    gather p f = gather p g := by
  apply BitVec.eq_of_getLsbD_eq
  intro i hi
  rw [getLsbD_gather p f ⟨i, hi⟩, getLsbD_gather p g ⟨i, hi⟩, h]

/-- Consecutive bits of a word. -/
@[simp] theorem gather_run {n m : Nat} (k : Nat) (w : BitVec m) :
    gather (Bits.run k : Bits n) w.getLsbD = w.extractLsb' k n := by
  apply BitVec.eq_of_getLsbD_eq
  intro i hi
  rw [getLsbD_gather _ _ ⟨i, hi⟩, BitVec.getLsbD_extractLsb']
  simp [Bits.run, hi]

/-- Consecutive bits of a number. -/
@[simp] theorem gather_run_nat {n : Nat} (k a : Nat) :
    gather (Bits.run k : Bits n) a.testBit = BitVec.ofNat n (a / 2 ^ k) := by
  apply BitVec.eq_of_getLsbD_eq
  intro i hi
  rw [getLsbD_gather _ _ ⟨i, hi⟩, BitVec.getLsbD_ofNat, ← Nat.shiftRight_eq_div_pow, Nat.testBit_shiftRight]
  simp [Bits.run, hi]

theorem getLsbD_placeBit (b : Bool) (k i : Nat) :
    (placeBit b k).getLsbD i = (decide (i < 32) && (decide (i = k) && b)) := by
  rw [placeBit, BitVec.getLsbD_shiftLeft, BitVec.getLsbD_setWidth, BitVec.getLsbD_ofBool]
  by_cases h : i < 32 <;> by_cases hk : i < k <;> by_cases he : i = k <;>
    (simp [h, hk, he]; try omega)

/-- A bit of a word with one field placed: the field's bit whose position it is. -/
theorem getLsbD_scatter {n : Nat} (p : Bits n) (v : BitVec n) (j : Nat) :
    (scatter p v).getLsbD j = (decide (j < 32) && decide (∃ i : Fin n, p i = j ∧ v.getLsbD i = true)) := by
  induction n with
  | zero => simp [scatter]
  | succ k ih =>
    rw [scatter, BitVec.getLsbD_or, ih, getLsbD_placeBit, ← Bool.and_or_distrib_left]
    congr 1
    rw [Bool.eq_iff_iff, Bool.or_eq_true, decide_eq_true_eq, Bool.and_eq_true, decide_eq_true_eq,
      decide_eq_true_eq, Fin.exists_fin_succ']
    refine or_congr (exists_congr fun i => ?_) (and_congr_left fun _ => eq_comm)
    rw [BitVec.getLsbD_setWidth, decide_eq_true i.isLt, Bool.true_and]
    rfl

/-- A field placed in consecutive bits from k up, bit by bit. -/
theorem getLsbD_scatter_run {n : Nat} (k : Nat) (v : BitVec n) (j : Nat) :
    (scatter (Bits.run k) v).getLsbD j = (decide (j < 32) && (decide (k ≤ j) && v.getLsbD (j - k))) := by
  rw [getLsbD_scatter]
  congr 1
  rw [Bool.eq_iff_iff, decide_eq_true_eq, Bool.and_eq_true, decide_eq_true_eq]
  constructor
  · rintro ⟨i, rfl, hv⟩
    exact ⟨Nat.le_add_right _ _, by simpa [Bits.run] using hv⟩
  · rintro ⟨hk, hv⟩
    exact ⟨⟨j - k, BitVec.lt_of_getLsbD hv⟩, Nat.add_sub_cancel' hk, hv⟩

/-- A field whose bits stand at distinct positions of the word reads back. -/
theorem gather_scatter {n : Nat} {p : Bits n} (hp : Function.Injective p) (hlt : ∀ i, p i < 32)
    (v : BitVec n) : gather p (scatter p v).getLsbD = v := by
  apply BitVec.eq_of_getLsbD_eq
  intro i hi
  rw [getLsbD_gather _ _ ⟨i, hi⟩, getLsbD_scatter, decide_eq_true (hlt _), Bool.true_and, Bool.eq_iff_iff,
    decide_eq_true_eq]
  refine ⟨?_, fun hv => ⟨⟨i, hi⟩, rfl, hv⟩⟩
  rintro ⟨j, hj, hv⟩
  rwa [hp hj] at hv

end Sys2Proof
end

