-- ==== Sys2Proof/Laws/Decode.lean ====
section
/-! SUPPORT. The fields of an encoded command word (30_encoding.md R90, R100, R112). -/

namespace Sys2Proof

@[simp] theorem cwPort_mkCw (p : BitVec 2) (d : Bool) (z : BitVec 3) (a : BitVec 32) :
    cwPort (mkCw p d z a) = p := by
  apply BitVec.eq_of_getLsbD_eq
  intro i hi
  simp only [cwPort, mkCw, BitVec.getLsbD_append, BitVec.getLsbD_extractLsb']
  interval_cases i <;> simp

@[simp] theorem cwDir_mkCw (p : BitVec 2) (d : Bool) (z : BitVec 3) (a : BitVec 32) :
    cwDir (mkCw p d z a) = d := by
  simp only [cwDir, mkCw, BitVec.getLsbD_append]
  simp

@[simp] theorem cwSz_mkCw (p : BitVec 2) (d : Bool) (z : BitVec 3) (a : BitVec 32) :
    cwSz (mkCw p d z a) = z := by
  apply BitVec.eq_of_getLsbD_eq
  intro i hi
  simp only [cwSz, mkCw, BitVec.getLsbD_append, BitVec.getLsbD_extractLsb']
  interval_cases i <;> simp

@[simp] theorem cwAddr_mkCw (p : BitVec 2) (d : Bool) (z : BitVec 3) (a : BitVec 32) :
    cwAddr (mkCw p d z a) = a := by
  apply BitVec.eq_of_getLsbD_eq
  intro i hi
  simp only [cwAddr, mkCw, BitVec.getLsbD_append, BitVec.getLsbD_extractLsb']
  simp [hi]

/-- The RDRAM-port address as a row of fields, most significant first (R100). -/
theorem mkRegAddr_fields (b : Bool) (d : DevId) (u : Bool) (x : RegIdx) :
    mkRegAddr specLayout b d u x = 0#12 ++ BitVec.ofBool b ++ d ++ BitVec.ofBool u ++ x ++ 0#2 := by
  apply BitVec.eq_of_getLsbD_eq
  intro i hi
  simp only [mkRegAddr, specLayout, BitVec.getLsbD_or, getLsbD_placeBit, getLsbD_scatter_run,
    BitVec.getLsbD_append, BitVec.getLsbD_zero]
  interval_cases i <;> simp

/-- The RI-port address as a row of fields, most significant first (R112). -/
theorem mkRiAddr_fields (x : BitVec 3) : mkRiAddr specLayout x = 0#27 ++ x ++ 0#2 := by
  apply BitVec.eq_of_getLsbD_eq
  intro i hi
  simp only [mkRiAddr, specLayout, getLsbD_scatter_run, BitVec.getLsbD_append, BitVec.getLsbD_zero]
  interval_cases i <;> simp

/-- The fields of an RDRAM-port address (R100). -/
theorem regFields (a : BitVec 32) :
    regBc specLayout a = a.getLsbD 19 ∧ regId specLayout a = a.extractLsb' 10 9 ∧
    regUpper specLayout a = a.getLsbD 9 ∧ regIdx specLayout a = a.extractLsb' 2 7 :=
  ⟨rfl, gather_run 10 a, rfl, gather_run 2 a⟩

/-- The field of an RI-port address (R112). -/
theorem riIdx_eq (a : BitVec 32) : riIdx specLayout a = a.extractLsb' 2 3 := gather_run 2 a

@[simp] theorem regBc_mkRegAddr (b : Bool) (d : DevId) (u : Bool) (x : RegIdx) :
    regBc specLayout (mkRegAddr specLayout b d u x) = b := by
  rw [(regFields _).1, mkRegAddr_fields]
  simp only [BitVec.getLsbD_append]
  simp

@[simp] theorem regId_mkRegAddr (b : Bool) (d : DevId) (u : Bool) (x : RegIdx) :
    regId specLayout (mkRegAddr specLayout b d u x) = d := by
  rw [(regFields _).2.1, mkRegAddr_fields]
  apply BitVec.eq_of_getLsbD_eq
  intro i hi
  simp only [BitVec.getLsbD_append, BitVec.getLsbD_extractLsb']
  interval_cases i <;> simp

@[simp] theorem regUpper_mkRegAddr (b : Bool) (d : DevId) (u : Bool) (x : RegIdx) :
    regUpper specLayout (mkRegAddr specLayout b d u x) = u := by
  rw [(regFields _).2.2.1, mkRegAddr_fields]
  simp only [BitVec.getLsbD_append]
  simp

@[simp] theorem regIdx_mkRegAddr (b : Bool) (d : DevId) (u : Bool) (x : RegIdx) :
    regIdx specLayout (mkRegAddr specLayout b d u x) = x := by
  rw [(regFields _).2.2.2, mkRegAddr_fields]
  apply BitVec.eq_of_getLsbD_eq
  intro i hi
  simp only [BitVec.getLsbD_append, BitVec.getLsbD_extractLsb']
  interval_cases i <;> simp

@[simp] theorem riIdx_mkRiAddr (x : BitVec 3) : riIdx specLayout (mkRiAddr specLayout x) = x := by
  rw [riIdx_eq, mkRiAddr_fields]
  apply BitVec.eq_of_getLsbD_eq
  intro i hi
  simp only [BitVec.getLsbD_append, BitVec.getLsbD_extractLsb']
  interval_cases i <;> simp

/-- A narrow operand is the low bits of the 256. -/
theorem setWidth_widen {n : Nat} (h : n ≤ 256) (v : BitVec n) : (v.setWidth 256).setWidth n = v := by
  apply BitVec.eq_of_getLsbD_eq
  intro i hi
  simp [hi]
  omega

/-- Word i of four burst words. -/
theorem dataWord_packWords4 (w0 w1 w2 w3 : Word) :
    dataWord (packWords4 w0 w1 w2 w3) 0 = w0 ∧ dataWord (packWords4 w0 w1 w2 w3) 1 = w1 ∧
    dataWord (packWords4 w0 w1 w2 w3) 2 = w2 ∧ dataWord (packWords4 w0 w1 w2 w3) 3 = w3 := by
  refine ⟨?_, ?_, ?_, ?_⟩ <;>
  · apply BitVec.eq_of_getLsbD_eq
    intro i hi
    simp only [dataWord, packWords4, BitVec.getLsbD_extractLsb', BitVec.getLsbD_setWidth,
      BitVec.getLsbD_append]
    interval_cases i <;> simp

/-- Word i of eight burst words. -/
theorem dataWord_packWords8 (w0 w1 w2 w3 w4 w5 w6 w7 : Word) :
    dataWord (packWords8 w0 w1 w2 w3 w4 w5 w6 w7) 0 = w0 ∧
    dataWord (packWords8 w0 w1 w2 w3 w4 w5 w6 w7) 1 = w1 ∧
    dataWord (packWords8 w0 w1 w2 w3 w4 w5 w6 w7) 2 = w2 ∧
    dataWord (packWords8 w0 w1 w2 w3 w4 w5 w6 w7) 3 = w3 ∧
    dataWord (packWords8 w0 w1 w2 w3 w4 w5 w6 w7) 4 = w4 ∧
    dataWord (packWords8 w0 w1 w2 w3 w4 w5 w6 w7) 5 = w5 ∧
    dataWord (packWords8 w0 w1 w2 w3 w4 w5 w6 w7) 6 = w6 ∧
    dataWord (packWords8 w0 w1 w2 w3 w4 w5 w6 w7) 7 = w7 := by
  refine ⟨?_, ?_, ?_, ?_, ?_, ?_, ?_, ?_⟩ <;>
  · apply BitVec.eq_of_getLsbD_eq
    intro i hi
    simp only [dataWord, packWords8, BitVec.getLsbD_extractLsb', BitVec.getLsbD_append]
    interval_cases i <;> simp

end Sys2Proof
end

