-- ==== Sys2Proof/Laws/Remap.lean ====
section
/-! SUPPORT. `map` and `unmap` of one module: what they keep of the invariants of Safety.lean. Between the
two halves of a device-identity write the module takes no part in the arbitration: `ResponderInvBut` is the
responder invariant of all the others. -/

namespace Sys2Proof.Machine

/-- The effective IDs of the existing modules are capacity-masked (10_state.md R23). -/
def Aligned (c : Config) (s : State) : Prop :=
  ∀ m, Active s m → (s.modAt m).deviceId.toNat % c.capMib = 0

/-- The responder invariant of all modules but x, which answers nowhere. -/
structure ResponderInvBut (c : Config) (s : State) (x : Slot) : Prop where
  absent : ∀ i : Fin 512, s.resp[i] ≠ some x
  range : ∀ (i : Fin 512) (m : Slot), s.resp[i] = some m →
    Active s m ∧ ∀ j : Fin 512, s.resp[j] = some m ↔ Claims c (s.modAt m) j.val
  least : ∀ k, k ≠ x → Active s k → ∃ r, s.responder (s.modAt k).deviceId = some r ∧ Active s r ∧
    (s.modAt r).deviceId = (s.modAt k).deviceId ∧
    ∀ j, j ≠ x → Active s j → (s.modAt j).deviceId = (s.modAt k).deviceId → r ≤ j

theorem ModulesInv.aligned {c : Config} {s : State} (h : ModulesInv c s) : Aligned c s := fun m hm => by
  rw [(h m hm).deviceId_eq]; exact c.and_idMask_mod _

theorem Claims.self (c : Config) (M : MemModule) : Claims c M M.deviceId.toNat :=
  ⟨le_refl _, by have := c.capMib_pos; omega⟩

/-- A module claims as another does when their effective IDs are equal. -/
theorem Claims.congr {c : Config} {M N : MemModule} (h : M.deviceId = N.deviceId) (i : Nat) :
    Claims c M i ↔ Claims c N i := by simp only [Claims, h]

/-- Two existing modules whose claimed ranges meet claim the same ID. -/
theorem Aligned.eq_of_claims {c : Config} {s : State} (ha : Aligned c s) {m k : Slot} (hm : Active s m)
    (hk : Active s k) {i : Nat} (h1 : Claims c (s.modAt m) i) (h2 : Claims c (s.modAt k) i) :
    (s.modAt m).deviceId = (s.modAt k).deviceId :=
  BitVec.eq_of_toNat_eq (eq_of_mod_meet (ha m hm) (ha k hk) h1.1 h1.2 h2.1 h2.2)

/-- The claimed range of an existing module ends inside the window when it begins there. -/
theorem Aligned.window {c : Config} {s : State} (ha : Aligned c s) {m : Slot} (hm : Active s m)
    (hw : inWindow (s.modAt m).deviceId = true) :
    (s.modAt m).deviceId.toNat * idSlotBytes + c.capBytes ≤ liveBytes := by
  have h1 : (s.modAt m).deviceId.toNat + c.capMib ≤ windowIds :=
    room_of_mod (ha m hm) c.capMib_dvd_window (by simpa [inWindow] using hw)
  simp only [Config.capBytes, idSlotBytes, liveBytes, windowIds] at *
  omega

/-- The regions of two aligned IDs that differ have no byte in common. -/
theorem region_disjoint {n d e o p : Nat} (hd : d % n = 0) (he : e % n = 0) (hne : d ≠ e)
    (ho : o < n * idSlotBytes) (hp : p < n * idSlotBytes) : d * idSlotBytes + o ≠ e * idSlotBytes + p := by
  have h : d + n ≤ e ∨ e + n ≤ d := by
    rcases Nat.lt_or_gt_of_ne hne with h | h
    · exact .inl (room_of_mod hd (Nat.dvd_of_mod_eq_zero he) h)
    · exact .inr (room_of_mod he (Nat.dvd_of_mod_eq_zero hd) h)
  simp only [idSlotBytes] at *
  rcases h with h | h
  · have := Nat.mul_le_mul_right 0x100000 h
    rw [Nat.add_mul] at this
    omega
  · have := Nat.mul_le_mul_right 0x100000 h
    rw [Nat.add_mul] at this
    omega

/-! ### The responder table -/

theorem evicted_resp_get (c : Config) (m : Slot) (s : State) (i : Fin 512) :
    ((Claims c (s.modAt m) i.val → (evicted c m s).resp[i] = nextClaimant s m (s.modAt m).deviceId) ∧
      (¬ Claims c (s.modAt m) i.val → (evicted c m s).resp[i] = s.resp[i])) := by
  have e : (evicted c m s).resp[i] = (fillResp s.resp (s.modAt m).deviceId.toNat c.capMib
      (nextClaimant s m (s.modAt m).deviceId))[i.val] := rfl
  rw [e, getElem_fillResp]
  exact ⟨fun h => if_pos h, fun h => if_neg h⟩

theorem claim_resp_get (c : Config) (m : Slot) (s : State) (i : Fin 512) :
    ((Claims c (s.modAt m) i.val → (claim c m s).resp[i] = some m) ∧
      (¬ Claims c (s.modAt m) i.val → (claim c m s).resp[i] = s.resp[i])) := by
  have e : (claim c m s).resp[i]
      = (fillResp s.resp (s.modAt m).deviceId.toNat c.capMib (some m))[i.val] := rfl
  rw [e, getElem_fillResp]
  exact ⟨fun h => if_pos h, fun h => if_neg h⟩

/-- An entry of the table names the responder of the effective ID of the module it names. -/
theorem responder_of_entry {c : Config} {s : State} {m : Slot} {i : Fin 512}
    (h : ∀ j : Fin 512, s.resp[j] = some m ↔ Claims c (s.modAt m) j.val) (_hi : s.resp[i] = some m) :
    s.responder (s.modAt m).deviceId = some m := by
  rw [State.responder_eq]; exact (h _).2 (Claims.self c _)

/-- `unmap` takes a module out of the responder table and leaves the others as the rule says. -/
theorem unmapModule_responders {c : Config} {s : State} {m : Slot} (hr : ResponderInv c s)
    (ha : Aligned c s) (hm : Active s m) : ResponderInvBut c (unmapModule c m s) m := by
  rw [unmapModule_eq]
  by_cases hresp : s.responder (s.modAt m).deviceId = some m
  · rw [if_pos hresp]
    have hget := evicted_resp_get c m s
    have hmine : ∀ j : Fin 512, s.resp[j] = some m ↔ Claims c (s.modAt m) j.val :=
      (hr.range _ m (by rw [← State.responder_eq]; exact hresp)).2
    have hid : ∀ j, ((evicted c m s).modAt j).deviceId = (s.modAt j).deviceId := fun j =>
      saveImage_deviceId c m j s
    have hclaims : ∀ j i, Claims c ((evicted c m s).modAt j) i ↔ Claims c (s.modAt j) i := fun j i =>
      Claims.congr (hid j) i
    have hact : ∀ j, Active (evicted c m s) j ↔ Active s j := fun j => by
      simp only [Active, evicted_expansion]
    refine ⟨?_, ?_, ?_⟩
    · intro i hi
      by_cases hc : Claims c (s.modAt m) i.val
      · rw [(hget i).1 hc] at hi
        exact (nextClaimant_eq_some.1 hi).2.1 rfl
      · rw [(hget i).2 hc] at hi
        exact hc ((hmine i).1 hi)
    · intro i q hi
      simp only [hact, hclaims]
      by_cases hc : Claims c (s.modAt m) i.val
      · rw [(hget i).1 hc] at hi
        obtain ⟨hqa, hqm, hqd, -⟩ := nextClaimant_eq_some.1 hi
        refine ⟨hqa, fun j => ?_⟩
        by_cases hj : Claims c (s.modAt m) j.val
        · rw [(hget j).1 hj, hi]
          exact ⟨fun _ => (Claims.congr hqd _).2 hj, fun _ => rfl⟩
        · rw [(hget j).2 hj]
          refine ⟨fun h => ?_, fun h => absurd ((Claims.congr hqd _).1 h) hj⟩
          exact ((hr.range j q h).2 j).1 h
      · rw [(hget i).2 hc] at hi
        obtain ⟨hqa, hq⟩ := hr.range i q hi
        refine ⟨hqa, fun j => ?_⟩
        by_cases hj : Claims c (s.modAt m) j.val
        · rw [(hget j).1 hj]
          constructor
          · intro h
            obtain ⟨-, -, hqd, -⟩ := nextClaimant_eq_some.1 h
            exact absurd ((Claims.congr hqd _).1 ((hq i).1 hi)) hc
          · intro h
            have h1 := (hq j).2 h
            have h2 := (hmine j).2 hj
            rw [h1] at h2
            have : q = m := by simpa using h2
            subst this
            exact absurd ((hq i).1 hi) hc
        · rw [(hget j).2 hj]; exact hq j
    · intro k hkm hka
      rw [hact] at hka
      simp only [hact, hid]
      by_cases hkd : (s.modAt k).deviceId = (s.modAt m).deviceId
      · cases hn : nextClaimant s m (s.modAt m).deviceId with
        | none => exact absurd hkd (nextClaimant_eq_none.1 hn k hka hkm)
        | some q =>
          obtain ⟨hqa, hqm, hqd, hql⟩ := nextClaimant_eq_some.1 hn
          refine ⟨q, ?_, hqa, hqd.trans hkd.symm, ?_⟩
          · rw [State.responder_eq, (hget _).1, hn]
            rw [hkd]; exact Claims.self c _
          · intro j hjm hja hjd
            exact hql j hja hjm (hjd.trans hkd)
      · obtain ⟨r, hrr, hra, hrd, hrl⟩ := hr.least k hka
        refine ⟨r, ?_, hra, hrd, fun j _ hja hjd => hrl j hja hjd⟩
        rw [State.responder_eq, (hget _).2, ← State.responder_eq, hrr]
        intro hc
        exact hkd (ha.eq_of_claims hka hm (Claims.self c _) hc)
  · rw [if_neg hresp]
    have habs : ∀ i : Fin 512, s.resp[i] ≠ some m := fun i hi =>
      hresp (responder_of_entry (hr.range i m hi).2 hi)
    refine ⟨habs, hr.range, ?_⟩
    intro k _ hka
    obtain ⟨r, hrr, hra, hrd, hrl⟩ := hr.least k hka
    exact ⟨r, hrr, hra, hrd, fun j _ hja hjd => hrl j hja hjd⟩

/-- `map` of a module of higher priority than its responder evicts that responder, whose next claimant it
is. -/
theorem nextClaimant_of_evict {c : Config} {s : State} {m r : Slot} (hb : ResponderInvBut c s m)
    (ha : Aligned c s) (hm : Active s m) (hresp : s.responder (s.modAt m).deviceId = some r) (hlt : m < r) :
    Active s r ∧ (s.modAt r).deviceId = (s.modAt m).deviceId ∧
      nextClaimant s r (s.modAt r).deviceId = some m := by
  have hentry : s.resp[(s.modAt m).deviceId.toFin] = some r := by rw [← State.responder_eq]; exact hresp
  obtain ⟨hra, hrange⟩ := hb.range _ r hentry
  have hrd : (s.modAt r).deviceId = (s.modAt m).deviceId :=
    ha.eq_of_claims hra hm ((hrange _).1 hentry) (Claims.self c _)
  refine ⟨hra, hrd, nextClaimant_eq_some.2 ⟨hm, ne_of_lt hlt, hrd.symm, ?_⟩⟩
  intro j hja hjr hjd
  obtain ⟨r', hr', -, -, hl⟩ := hb.least r (ne_of_gt hlt) hra
  have : r' = r := by rw [hrd, hresp] at hr'; simpa using hr'.symm
  subst this
  by_cases hjm : j = m
  · exact le_of_eq hjm.symm
  · exact le_of_lt (lt_of_lt_of_le hlt (hl j hjm hja hjd))

/-- A table in which the range of m names m, and which is elsewhere as before, has the responder
invariant again, when m comes before every other claimant of its ID. -/
theorem responderInv_of_claimed {c : Config} {s t : State} {m : Slot} (hb : ResponderInvBut c s m)
    (ha : Aligned c s) (hm : Active s m) (hx : t.expansion = s.expansion)
    (hid : ∀ j, (t.modAt j).deviceId = (s.modAt j).deviceId)
    (hin : ∀ i : Fin 512, Claims c (s.modAt m) i.val → t.resp[i] = some m)
    (hout : ∀ i : Fin 512, ¬ Claims c (s.modAt m) i.val → t.resp[i] = s.resp[i])
    (hleast : ∀ j, Active s j → (s.modAt j).deviceId = (s.modAt m).deviceId → m ≤ j) :
    ResponderInv c t := by
  have hclaims : ∀ j i, Claims c (t.modAt j) i ↔ Claims c (s.modAt j) i := fun j i => Claims.congr (hid j) i
  have hact : ∀ j, Active t j ↔ Active s j := fun j => by simp only [Active, hx]
  refine ⟨?_, ?_⟩
  · intro i q hi
    simp only [hact, hclaims]
    by_cases hc : Claims c (s.modAt m) i.val
    · rw [hin i hc] at hi
      have : m = q := by simpa using hi
      subst this
      refine ⟨hm, fun j => ?_⟩
      by_cases hj : Claims c (s.modAt m) j.val
      · exact ⟨fun _ => hj, fun _ => hin j hj⟩
      · rw [hout j hj]
        exact ⟨fun h => absurd h (hb.absent j), fun h => absurd h hj⟩
    · rw [hout i hc] at hi
      obtain ⟨hqa, hq⟩ := hb.range i q hi
      have hqm : q ≠ m := fun e => hb.absent i (e ▸ hi)
      refine ⟨hqa, fun j => ?_⟩
      by_cases hj : Claims c (s.modAt m) j.val
      · rw [hin j hj]
        constructor
        · intro h; exact absurd (by simpa using h.symm) hqm
        · intro h
          have := ha.eq_of_claims hqa hm h hj
          exact absurd ((Claims.congr this _).1 ((hq i).1 hi)) hc
      · rw [hout j hj]; exact hq j
  · intro k hka
    rw [hact] at hka
    simp only [hact, hid]
    by_cases hkd : (s.modAt k).deviceId = (s.modAt m).deviceId
    · refine ⟨m, ?_, hm, hkd.symm, fun j hja hjd => hleast j hja (hjd.trans hkd)⟩
      rw [State.responder_eq, hin]
      rw [hkd]; exact Claims.self c _
    · have hkm : k ≠ m := fun e => hkd (by rw [e])
      obtain ⟨r, hrr, hra, hrd, hrl⟩ := hb.least k hkm hka
      refine ⟨r, ?_, hra, hrd, ?_⟩
      · rw [State.responder_eq, hout, ← State.responder_eq, hrr]
        intro hc
        exact hkd (ha.eq_of_claims hka hm (Claims.self c _) hc)
      · intro j hja hjd
        refine hrl j (fun e => hkd ?_) hja hjd
        rw [← hjd, e]

/-- `map` puts a module back into the responder table by priority. -/
theorem mapModule_responders {c : Config} {s : State} {m : Slot} (hb : ResponderInvBut c s m)
    (ha : Aligned c s) (hm : Active s m) : ResponderInv c (mapModule c m s) := by
  rw [mapModule_eq]
  cases hresp : s.responder (s.modAt m).deviceId with
  | none =>
    simp only []
    have hget := claim_resp_get c m s
    refine responderInv_of_claimed hb ha hm rfl (fun _ => rfl) (fun i => (hget i).1) (fun i => (hget i).2) ?_
    intro j hja hjd
    by_cases hjm : j = m
    · exact le_of_eq hjm.symm
    · obtain ⟨r, hrr, -⟩ := hb.least j hjm hja
      rw [hjd, hresp] at hrr
      exact absurd hrr (by simp)
  | some r =>
    simp only []
    by_cases hlt : m < r
    · rw [if_pos hlt]
      obtain ⟨hra, hrd, hn⟩ := nextClaimant_of_evict hb ha hm hresp hlt
      rw [unmapModule_eq, if_pos (by rw [hrd]; exact hresp)]
      have hget := evicted_resp_get c r s
      refine responderInv_of_claimed hb ha hm (evicted_expansion c r s)
        (fun j => saveImage_deviceId c r j s) ?_ ?_ ?_
      · intro i hi
        rw [(hget i).1 ((Claims.congr hrd _).2 hi), hn]
      · intro i hi
        rw [(hget i).2 fun h => hi ((Claims.congr hrd _).1 h)]
      · intro j hja hjd
        by_cases hjr : j = r
        · rw [hjr]; exact le_of_lt hlt
        · exact (nextClaimant_eq_some.1 hn).2.2.2 j hja hjr (hjd.trans hrd.symm)
    · rw [if_neg hlt]
      have hrm : r ≠ m := fun e => hb.absent _ (by rw [← e, ← State.responder_eq]; exact hresp)
      have hrlt : r < m := lt_of_le_of_ne (not_lt.1 hlt) hrm
      have hentry : s.resp[(s.modAt m).deviceId.toFin] = some r := by
        rw [← State.responder_eq]; exact hresp
      obtain ⟨hra, hrange⟩ := hb.range _ r hentry
      have hrd : (s.modAt r).deviceId = (s.modAt m).deviceId :=
        ha.eq_of_claims hra hm ((hrange _).1 hentry) (Claims.self c _)
      refine ⟨hb.range, ?_⟩
      intro k hka
      by_cases hkm : k = m
      · subst hkm
        refine ⟨r, hresp, hra, hrd, ?_⟩
        intro j hja hjd
        by_cases hjk : j = k
        · rw [hjk]; exact le_of_lt hrlt
        · obtain ⟨r', hr', -, -, hl⟩ := hb.least r hrm hra
          have : r' = r := by rw [hrd, hresp] at hr'; simpa using hr'.symm
          subst this
          exact hl j hjk hja (hjd.trans hrd.symm)
      · obtain ⟨q, hqr, hqa, hqd, hql⟩ := hb.least k hkm hka
        refine ⟨q, hqr, hqa, hqd, ?_⟩
        intro j hja hjd
        by_cases hjm : j = m
        · rw [hjm] at hjd
          rw [← hjd, hresp] at hqr
          have : r = q := by simpa using hqr
          rw [hjm, ← this]; exact le_of_lt hrlt
        · exact hql j hjm hja hjd

end Sys2Proof.Machine
end

