-- ==== Sys2Proof/Laws/Images.lean ====
section
/-! SUPPORT. `map` and `unmap` of one module: what they keep of the images, the zero slots, the buffers and
the registers. -/

namespace Sys2Proof.Machine

theorem inWindow_iff (d : DevId) : inWindow d = true ↔ d.toNat < windowIds := by simp [inWindow]

/-- Saving an image keeps every register field. -/
theorem saveImage_registers (c : Config) (m j : Slot) (s : State) :
    SameRegisters ((saveImage c m s).modAt j) (s.modAt j) := by
  rw [saveImage_eq, State.modAt_setMod]
  by_cases h : j = m
  · rw [if_pos h, h]; rfl
  · rw [if_neg h]; rfl

/-- `unmap` keeps every register field, and all state but the table, the live buffer and its own shadow. -/
theorem unmapModule_frame (c : Config) (m : Slot) (s : State) :
    (unmapModule c m s).expansion = s.expansion ∧ (unmapModule c m s).status = s.status ∧
    (unmapModule c m s).ri = s.ri ∧ (unmapModule c m s).trace = s.trace ∧
    (unmapModule c m s).result = s.result ∧ (unmapModule c m s).pending = s.pending ∧
    (∀ j, SameRegisters ((unmapModule c m s).modAt j) (s.modAt j)) ∧
    (∀ j, j ≠ m → (unmapModule c m s).modAt j = s.modAt j) := by
  rw [unmapModule_eq]
  split_ifs
  · exact ⟨evicted_expansion c m s, evicted_status c m s, evicted_ri c m s, evicted_trace c m s,
      evicted_result c m s, evicted_pending c m s, fun j => saveImage_registers c m j s,
      fun j h => saveImage_modAt_ne c s h⟩
  · exact ⟨rfl, rfl, rfl, rfl, rfl, rfl, fun _ => rfl, fun _ _ => rfl⟩

/-- `map` keeps every register field, and all state but the table, the live buffer and one shadow. -/
theorem mapModule_frame (c : Config) (m : Slot) (s : State) :
    (mapModule c m s).expansion = s.expansion ∧ (mapModule c m s).status = s.status ∧
    (mapModule c m s).ri = s.ri ∧ (mapModule c m s).trace = s.trace ∧
    (mapModule c m s).result = s.result ∧ (mapModule c m s).pending = s.pending ∧
    (∀ j, SameRegisters ((mapModule c m s).modAt j) (s.modAt j)) ∧
    (mapModule c m s).modAt m = s.modAt m := by
  rw [mapModule_eq]
  cases s.responder (s.modAt m).deviceId with
  | none => exact ⟨rfl, rfl, rfl, rfl, rfl, rfl, fun _ => rfl, rfl⟩
  | some r =>
    simp only []
    split_ifs with h
    · obtain ⟨h1, h2, h3, h4, h5, h6, h7, h8⟩ := unmapModule_frame c r s
      exact ⟨h1, h2, h3, h4, h5, h6, h7, h8 m (ne_of_lt h)⟩
    · exact ⟨rfl, rfl, rfl, rfl, rfl, rfl, fun _ => rfl, rfl⟩

/-- `map` leaves the slots that do not exist alone. -/
theorem mapModule_inactive {c : Config} {s : State} {m : Slot} (hb : ResponderInvBut c s m)
    (ha : Aligned c s) (hm : Active s m) {j : Slot} (hj : ¬ Active s j) :
    (mapModule c m s).modAt j = s.modAt j := by
  rw [mapModule_eq]
  cases hresp : s.responder (s.modAt m).deviceId with
  | none => rfl
  | some r =>
    simp only []
    split_ifs with hlt
    · obtain ⟨hra, -, -⟩ := nextClaimant_of_evict hb ha hm hresp hlt
      exact (unmapModule_frame c r s).2.2.2.2.2.2.2 j fun e => hj (e ▸ hra)
    · rfl

/-! ### Images -/

theorem imageByte_of_visible {s : State} {m : Slot} {o : Nat}
    (h : s.responder (s.modAt m).deviceId = some m ∧ (s.modAt m).deviceId.toNat < windowIds) :
    imageByte s m o = s.live.read ((s.modAt m).deviceId.toNat * idSlotBytes + o) := if_pos h

theorem imageByte_of_hidden {s : State} {m : Slot} {o : Nat}
    (h : ¬ (s.responder (s.modAt m).deviceId = some m ∧ (s.modAt m).deviceId.toNat < windowIds)) :
    imageByte s m o = (s.modAt m).shadow.read o := if_neg h

/-- The region of an existing module has no byte of the region of one that claims another ID. -/
theorem Aligned.disjoint {c : Config} {s : State} (ha : Aligned c s) {m j : Slot} (hm : Active s m)
    (hj : Active s j) (h : (s.modAt j).deviceId ≠ (s.modAt m).deviceId) {o : Nat} (ho : o < c.capBytes) :
    ¬ ((s.modAt m).deviceId.toNat * idSlotBytes ≤ (s.modAt j).deviceId.toNat * idSlotBytes + o ∧
      (s.modAt j).deviceId.toNat * idSlotBytes + o < (s.modAt m).deviceId.toNat * idSlotBytes + c.capBytes) := by
  rintro ⟨h1, h2⟩
  have hne : (s.modAt j).deviceId.toNat ≠ (s.modAt m).deviceId.toNat := fun e => h (BitVec.eq_of_toNat_eq e)
  refine region_disjoint (ha j hj) (ha m hm) hne (o := o)
    (p := (s.modAt j).deviceId.toNat * idSlotBytes + o - (s.modAt m).deviceId.toNat * idSlotBytes) ho ?_ ?_
  · show _ < c.capBytes; omega
  · omega

/-- An eviction changes no byte of an image (40_arbitration.md R140). -/
theorem imageByte_evicted {c : Config} {s : State} {m : Slot} (ha : Aligned c s) (hm : Active s m)
    (hresp : s.responder (s.modAt m).deviceId = some m) {j : Slot} (hj : Active s j) {o : Nat}
    (ho : o < c.capBytes) : imageByte (evicted c m s) j o = imageByte s j o := by
  have hid : ∀ k, ((evicted c m s).modAt k).deviceId = (s.modAt k).deviceId := fun k =>
    saveImage_deviceId c m k s
  have hget := evicted_resp_get c m s
  by_cases hd : (s.modAt j).deviceId = (s.modAt m).deviceId
  · have hr' : (evicted c m s).responder ((evicted c m s).modAt j).deviceId
        = nextClaimant s m (s.modAt m).deviceId := by
      rw [hid, State.responder_eq, (hget _).1]
      rw [hd]; exact Claims.self c _
    by_cases hjm : j = m
    · subst hjm
      have hne : nextClaimant s j (s.modAt j).deviceId ≠ some j := fun h =>
        (nextClaimant_eq_some.1 h).2.1 rfl
      rw [imageByte_of_hidden fun h => hne (hr' ▸ h.1), evicted_modAt, read_saveImage_shadow]
      by_cases hw : (s.modAt j).deviceId.toNat < windowIds
      · rw [if_pos ⟨(inWindow_iff _).2 hw, ho⟩, imageByte_of_visible ⟨hresp, hw⟩]
      · rw [if_neg fun h => hw ((inWindow_iff _).1 h.1), imageByte_of_hidden fun h => hw h.2]
    · have hhid : imageByte s j o = (s.modAt j).shadow.read o := by
        refine imageByte_of_hidden fun h => ?_
        rw [hd, hresp] at h
        exact hjm (by simpa using h.1.symm)
      have hmod : (evicted c m s).modAt j = s.modAt j := saveImage_modAt_ne c s hjm
      by_cases hn : nextClaimant s m (s.modAt m).deviceId = some j ∧ (s.modAt j).deviceId.toNat < windowIds
      · have hcap : (s.modAt m).deviceId.toNat * idSlotBytes + o
            < (s.modAt m).deviceId.toNat * idSlotBytes + c.capBytes := by omega
        rw [imageByte_of_visible ⟨by rw [hr', hn.1], by rw [hid]; exact hn.2⟩, hid, hd, read_evicted_live,
          if_pos ⟨(inWindow_iff _).2 (hd ▸ hn.2), by omega, hcap⟩, hn.1, hhid]
        simp only []
        rw [Nat.add_sub_cancel_left]
      · rw [imageByte_of_hidden (by rw [hr', hid]; exact hn), hmod, hhid]
  · have hjm : j ≠ m := fun e => hd (by rw [e])
    have hmod : (evicted c m s).modAt j = s.modAt j := saveImage_modAt_ne c s hjm
    have hr' : (evicted c m s).responder ((evicted c m s).modAt j).deviceId
        = s.responder (s.modAt j).deviceId := by
      rw [hid, State.responder_eq, (hget _).2, ← State.responder_eq]
      intro hc
      exact hd (ha.eq_of_claims hj hm (Claims.self c _) hc)
    by_cases hv : s.responder (s.modAt j).deviceId = some j ∧ (s.modAt j).deviceId.toNat < windowIds
    · rw [imageByte_of_visible (by rw [hr', hid]; exact hv), imageByte_of_visible hv, hid,
        read_evicted_live, if_neg fun h => ha.disjoint hm hj hd ho h.2]
    · rw [imageByte_of_hidden (by rw [hr', hid]; exact hv), imageByte_of_hidden hv, hmod]

/-- A claim changes no byte of an image. -/
theorem imageByte_claim {c : Config} {s : State} {m : Slot} (ha : Aligned c s) (hm : Active s m)
    (hresp : s.responder (s.modAt m).deviceId = none) {j : Slot} (hj : Active s j) {o : Nat}
    (ho : o < c.capBytes) : imageByte (claim c m s) j o = imageByte s j o := by
  have hget := claim_resp_get c m s
  by_cases hd : (s.modAt j).deviceId = (s.modAt m).deviceId
  · have hr' : (claim c m s).responder ((claim c m s).modAt j).deviceId = some m := by
      rw [claim_modAt, State.responder_eq, (hget _).1]
      rw [hd]; exact Claims.self c _
    have hhid : imageByte s j o = (s.modAt j).shadow.read o :=
      imageByte_of_hidden fun h => by rw [hd, hresp] at h; exact absurd h.1 (by simp)
    by_cases hv : j = m ∧ (s.modAt m).deviceId.toNat < windowIds
    · obtain ⟨hjm, hw⟩ := hv
      subst hjm
      have hcap : (s.modAt j).deviceId.toNat * idSlotBytes + o
          < (s.modAt j).deviceId.toNat * idSlotBytes + c.capBytes := by omega
      rw [imageByte_of_visible ⟨hr', hw⟩, claim_modAt, read_claim_live,
        if_pos ⟨(inWindow_iff _).2 hw, by omega, hcap⟩, hhid, Nat.add_sub_cancel_left]
    · rw [imageByte_of_hidden, claim_modAt, hhid]
      rw [hr', claim_modAt, hd]
      exact fun h => hv ⟨by simpa using h.1.symm, h.2⟩
  · have hr' : (claim c m s).responder ((claim c m s).modAt j).deviceId
        = s.responder (s.modAt j).deviceId := by
      rw [claim_modAt, State.responder_eq, (hget _).2, ← State.responder_eq]
      intro hc
      exact hd (ha.eq_of_claims hj hm (Claims.self c _) hc)
    by_cases hv : s.responder (s.modAt j).deviceId = some j ∧ (s.modAt j).deviceId.toNat < windowIds
    · rw [imageByte_of_visible (by rw [hr', claim_modAt]; exact hv), imageByte_of_visible hv, claim_modAt,
        read_claim_live, if_neg fun h => ha.disjoint hm hj hd ho h.2]
    · rw [imageByte_of_hidden (by rw [hr', claim_modAt]; exact hv), imageByte_of_hidden hv, claim_modAt]

/-- `unmap` changes no byte of an image (40_arbitration.md R140). -/
theorem imageByte_unmapModule {c : Config} {s : State} {m : Slot} (ha : Aligned c s) (hm : Active s m)
    {j : Slot} (hj : Active s j) {o : Nat} (ho : o < c.capBytes) :
    imageByte (unmapModule c m s) j o = imageByte s j o := by
  rw [unmapModule_eq]
  by_cases h : s.responder (s.modAt m).deviceId = some m
  · rw [if_pos h]; exact imageByte_evicted ha hm h hj ho
  · rw [if_neg h]

/-- `map` changes no byte of an image (40_arbitration.md R140). -/
theorem imageByte_mapModule {c : Config} {s : State} {m : Slot} (hb : ResponderInvBut c s m)
    (ha : Aligned c s) (hm : Active s m) {j : Slot} (hj : Active s j) {o : Nat} (ho : o < c.capBytes) :
    imageByte (mapModule c m s) j o = imageByte s j o := by
  rw [mapModule_eq]
  cases hresp : s.responder (s.modAt m).deviceId with
  | none => exact imageByte_claim ha hm hresp hj ho
  | some r =>
    simp only []
    by_cases hlt : m < r
    · rw [if_pos hlt]
      obtain ⟨hra, -, -⟩ := nextClaimant_of_evict hb ha hm hresp hlt
      exact imageByte_unmapModule ha hra hj ho
    · rw [if_neg hlt]

/-! ### The bytes of the live buffer -/

/-- A slot of a claimed range lies in the region of the module. -/
theorem slot_in_region {c : Config} {M : MemModule} {i a : Nat} (hc : Claims c M i)
    (h1 : i * idSlotBytes ≤ a) (h2 : a < (i + 1) * idSlotBytes) :
    M.deviceId.toNat * idSlotBytes ≤ a ∧ a < M.deviceId.toNat * idSlotBytes + c.capBytes := by
  obtain ⟨hl, hu⟩ := hc
  have e1 := Nat.mul_le_mul_right idSlotBytes hl
  have e2 := Nat.mul_le_mul_right idSlotBytes (Nat.succ_le_of_lt hu)
  simp only [Config.capBytes, idSlotBytes] at *
  omega

/-- A slot outside a claimed range lies outside the region of the module. -/
theorem slot_outside_region {c : Config} {M : MemModule} {i a : Nat} (hc : ¬ Claims c M i)
    (h1 : i * idSlotBytes ≤ a) (h2 : a < (i + 1) * idSlotBytes) :
    ¬ (M.deviceId.toNat * idSlotBytes ≤ a ∧ a < M.deviceId.toNat * idSlotBytes + c.capBytes) := by
  rintro ⟨h3, h4⟩
  refine hc ⟨?_, ?_⟩ <;>
  · simp only [Config.capBytes, idSlotBytes] at *
    omega

theorem zeroSlots_evicted {c : Config} {s : State} {m : Slot} (hz : ZeroSlots s) : ZeroSlots (evicted c m s) := by
  intro i hi hnone a h1 h2
  rw [read_evicted_live]
  by_cases hc : Claims c (s.modAt m) i.val
  · rw [(evicted_resp_get c m s i).1 hc] at hnone
    have hw : inWindow (s.modAt m).deviceId = true := (inWindow_iff _).2 (by have := hc.1; omega)
    rw [if_pos ⟨hw, slot_in_region hc h1 h2⟩, hnone]
  · rw [(evicted_resp_get c m s i).2 hc] at hnone
    rw [if_neg fun h => slot_outside_region hc h1 h2 h.2]
    exact hz i hi hnone a h1 h2

theorem zeroSlots_claim {c : Config} {s : State} {m : Slot} (hz : ZeroSlots s) : ZeroSlots (claim c m s) := by
  intro i hi hnone a h1 h2
  rw [read_claim_live]
  by_cases hc : Claims c (s.modAt m) i.val
  · rw [(claim_resp_get c m s i).1 hc] at hnone
    exact absurd hnone (by simp)
  · rw [(claim_resp_get c m s i).2 hc] at hnone
    rw [if_neg fun h => slot_outside_region hc h1 h2 h.2]
    exact hz i hi hnone a h1 h2

/-- `unmap` keeps the slots without a responder zero (40_arbitration.md R138). -/
theorem zeroSlots_unmapModule {c : Config} {s : State} {m : Slot} (hz : ZeroSlots s) :
    ZeroSlots (unmapModule c m s) := by
  rw [unmapModule_eq]
  split_ifs
  · exact zeroSlots_evicted hz
  · exact hz

/-- `map` keeps the slots without a responder zero (40_arbitration.md R138). -/
theorem zeroSlots_mapModule {c : Config} {s : State} {m : Slot} (hz : ZeroSlots s) :
    ZeroSlots (mapModule c m s) := by
  rw [mapModule_eq]
  cases s.responder (s.modAt m).deviceId with
  | none => exact zeroSlots_claim hz
  | some r =>
    simp only []
    split_ifs
    · exact zeroSlots_unmapModule hz
    · exact hz

/-- Outside the region of the module an eviction or a claim changes no byte of the live buffer. -/
theorem read_evicted_outside {c : Config} {s : State} {m : Slot} {a : Nat}
    (h : a < (s.modAt m).deviceId.toNat * idSlotBytes ∨
      (s.modAt m).deviceId.toNat * idSlotBytes + c.capBytes ≤ a) :
    (evicted c m s).live.read a = s.live.read a := by
  rw [read_evicted_live, if_neg]
  rintro ⟨-, h1, h2⟩
  omega

theorem read_claim_outside {c : Config} {s : State} {m : Slot} {a : Nat}
    (h : a < (s.modAt m).deviceId.toNat * idSlotBytes ∨
      (s.modAt m).deviceId.toNat * idSlotBytes + c.capBytes ≤ a) :
    (claim c m s).live.read a = s.live.read a := by
  rw [read_claim_live, if_neg]
  rintro ⟨-, h1, h2⟩
  omega

/-- `unmap` changes no byte outside the region of the module. -/
theorem read_unmapModule_outside {c : Config} {s : State} {m : Slot} {a : Nat}
    (h : a < (s.modAt m).deviceId.toNat * idSlotBytes ∨
      (s.modAt m).deviceId.toNat * idSlotBytes + c.capBytes ≤ a) :
    (unmapModule c m s).live.read a = s.live.read a := by
  rw [unmapModule_eq]
  split_ifs
  · exact read_evicted_outside h
  · rfl

/-- `map` changes no byte outside the region of the module. -/
theorem read_mapModule_outside {c : Config} {s : State} {m : Slot} {a : Nat} (hb : ResponderInvBut c s m)
    (ha : Aligned c s) (hm : Active s m)
    (h : a < (s.modAt m).deviceId.toNat * idSlotBytes ∨
      (s.modAt m).deviceId.toNat * idSlotBytes + c.capBytes ≤ a) :
    (mapModule c m s).live.read a = s.live.read a := by
  rw [mapModule_eq]
  cases hresp : s.responder (s.modAt m).deviceId with
  | none => exact read_claim_outside h
  | some r =>
    simp only []
    split_ifs with hlt
    · obtain ⟨-, hrd, -⟩ := nextClaimant_of_evict hb ha hm hresp hlt
      rw [← hrd] at h
      exact read_unmapModule_outside h
    · rfl

/-! ### The buffers -/

theorem bufferInv_evicted {c : Config} {s : State} {m : Slot} (hB : BufferInv c s) (ha : Aligned c s)
    (hm : Active s m) : BufferInv c (evicted c m s) := by
  have hshadow : ∀ j, ((evicted c m s).modAt j).shadow.wf ∧
      ∀ x ∈ ((evicted c m s).modAt j).shadow, x.1 < c.capBytes := by
    intro j
    rw [evicted_modAt]
    by_cases h : j = m
    · subst h
      rw [saveImage_eq, State.modAt_setMod_self]
      by_cases hw : inWindow (s.modAt j).deviceId = true
      · simp only [if_pos hw]
        exact ⟨Memory.wf_copy (hB.shadow_wf j) hB.live_wf _ _ _,
          Memory.bound_copy (hB.shadow_size j) (by omega)⟩
      · simp only [if_neg hw]
        exact ⟨hB.shadow_wf j, hB.shadow_size j⟩
    · rw [saveImage_modAt_ne c s h]
      exact ⟨hB.shadow_wf j, hB.shadow_size j⟩
  have hlive : (evicted c m s).live.wf ∧ ∀ x ∈ (evicted c m s).live, x.1 < liveBytes := by
    by_cases hw : inWindow (s.modAt m).deviceId = true
    · cases hn : nextClaimant s m (s.modAt m).deviceId with
      | none =>
        rw [evicted_live_none hw hn]
        exact ⟨Memory.wf_zero hB.live_wf _ _, Memory.bound_zero hB.live_size _ _⟩
      | some k =>
        rw [evicted_live_some hw hn]
        exact ⟨Memory.wf_copy hB.live_wf (hB.shadow_wf k) _ _ _,
          Memory.bound_copy hB.live_size (ha.window hm hw)⟩
    · rw [evicted_live_outside hw]
      exact ⟨hB.live_wf, hB.live_size⟩
  exact ⟨hlive.1, hlive.2, fun j => (hshadow j).1, fun j => (hshadow j).2⟩

theorem bufferInv_claim {c : Config} {s : State} {m : Slot} (hB : BufferInv c s) (ha : Aligned c s)
    (hm : Active s m) : BufferInv c (claim c m s) := by
  refine ⟨?_, ?_, hB.shadow_wf, hB.shadow_size⟩
  · rw [claim_live]
    split_ifs
    · exact Memory.wf_copy hB.live_wf (hB.shadow_wf m) _ _ _
    · exact hB.live_wf
  · rw [claim_live]
    split_ifs with hw
    · exact Memory.bound_copy hB.live_size (ha.window hm hw)
    · exact hB.live_size

/-- `unmap` keeps every buffer canonical and inside its size. -/
theorem bufferInv_unmapModule {c : Config} {s : State} {m : Slot} (hB : BufferInv c s) (ha : Aligned c s)
    (hm : Active s m) : BufferInv c (unmapModule c m s) := by
  rw [unmapModule_eq]
  split_ifs
  · exact bufferInv_evicted hB ha hm
  · exact hB

/-- `map` keeps every buffer canonical and inside its size. -/
theorem bufferInv_mapModule {c : Config} {s : State} {m : Slot} (hb : ResponderInvBut c s m)
    (hB : BufferInv c s) (ha : Aligned c s) (hm : Active s m) : BufferInv c (mapModule c m s) := by
  rw [mapModule_eq]
  cases hresp : s.responder (s.modAt m).deviceId with
  | none => exact bufferInv_claim hB ha hm
  | some r =>
    simp only []
    split_ifs with hlt
    · exact bufferInv_unmapModule hB ha (nextClaimant_of_evict hb ha hm hresp hlt).1
    · exact hB

end Sys2Proof.Machine
end

