-- ==== Sys2Proof/Laws/Identity.lean ====
section
/-! SUPPORT. What the invariants depend on, and what the device-identity write does (41_module_registers.md
R161). -/

namespace Sys2Proof.Machine

/-! ### What each invariant depends on -/

theorem ResponderInv.congr {c : Config} {s t : State} (h : ResponderInv c s)
    (hx : t.expansion = s.expansion) (hr : t.resp = s.resp)
    (hid : ∀ j, (t.modAt j).deviceId = (s.modAt j).deviceId) : ResponderInv c t := by
  have hclaims : ∀ j i, Claims c (t.modAt j) i ↔ Claims c (s.modAt j) i := fun j i => Claims.congr (hid j) i
  have hact : ∀ j, Active t j ↔ Active s j := fun j => by simp only [Active, hx]
  have hresp : ∀ d, t.responder d = s.responder d := fun d => by simp only [State.responder, hr]
  refine ⟨?_, ?_⟩
  · intro i m
    rw [hr]
    simp only [hact, hclaims]
    exact h.range i m
  · intro k
    simp only [hact, hid, hresp]
    exact h.least k

theorem Aligned.congr {c : Config} {s t : State} (h : Aligned c s) (hx : t.expansion = s.expansion)
    (hid : ∀ j, (t.modAt j).deviceId = (s.modAt j).deviceId) : Aligned c t := by
  intro m hm
  rw [hid]
  exact h m (by simpa only [Active, hx] using hm)

theorem BufferInv.congr {c : Config} {s t : State} (h : BufferInv c s) (hl : t.live = s.live)
    (hs : ∀ j, (t.modAt j).shadow = (s.modAt j).shadow) : BufferInv c t := by
  refine ⟨by rw [hl]; exact h.live_wf, by rw [hl]; exact h.live_size, ?_, ?_⟩
  · intro m; rw [hs]; exact h.shadow_wf m
  · intro m; rw [hs]; exact h.shadow_size m

theorem ZeroSlots.congr {s t : State} (h : ZeroSlots s) (hl : t.live = s.live) (hr : t.resp = s.resp) :
    ZeroSlots t := by
  intro i hi hn
  rw [hr] at hn
  rw [hl]
  exact h i hi hn

theorem ModulesInv.congr {c : Config} {s t : State} (h : ModulesInv c s) (hx : t.expansion = s.expansion)
    (hm : ∀ j, ModuleInv c (s.modAt j) → ModuleInv c (t.modAt j)) : ModulesInv c t := by
  intro m hact
  exact hm m (h m (by simpa only [Active, hx] using hact))

theorem imageByte_congr {s t : State} {m : Slot} (hl : t.live = s.live) (hr : t.resp = s.resp)
    (hid : (t.modAt m).deviceId = (s.modAt m).deviceId) (hs : (t.modAt m).shadow = (s.modAt m).shadow)
    (o : Nat) : imageByte t m o = imageByte s m o := by
  have hresp : ∀ d, t.responder d = s.responder d := fun d => by simp only [State.responder, hr]
  unfold imageByte
  rw [hid, hs, hl, hresp]

/-- Two modules with the same registers have the same fields. -/
theorem SameRegisters.deviceId {M N : MemModule} (h : SameRegisters M N) : M.deviceId = N.deviceId :=
  (congrArg MemModule.deviceId (show ({ M with shadow := [] } : MemModule) = { N with shadow := [] } from h) :)
theorem SameRegisters.idField {M N : MemModule} (h : SameRegisters M N) : M.idField = N.idField :=
  (congrArg MemModule.idField (show ({ M with shadow := [] } : MemModule) = { N with shadow := [] } from h) :)
theorem SameRegisters.valid {M N : MemModule} (h : SameRegisters M N) : M.valid = N.valid :=
  (congrArg MemModule.valid (show ({ M with shadow := [] } : MemModule) = { N with shadow := [] } from h) :)
theorem SameRegisters.de {M N : MemModule} (h : SameRegisters M N) : M.de = N.de :=
  (congrArg MemModule.de (show ({ M with shadow := [] } : MemModule) = { N with shadow := [] } from h) :)
theorem SameRegisters.cc {M N : MemModule} (h : SameRegisters M N) : M.cc = N.cc :=
  (congrArg MemModule.cc (show ({ M with shadow := [] } : MemModule) = { N with shadow := [] } from h) :)
theorem SameRegisters.ce {M N : MemModule} (h : SameRegisters M N) : M.ce = N.ce :=
  (congrArg MemModule.ce (show ({ M with shadow := [] } : MemModule) = { N with shadow := [] } from h) :)
theorem SameRegisters.x2 {M N : MemModule} (h : SameRegisters M N) : M.x2 = N.x2 :=
  (congrArg MemModule.x2 (show ({ M with shadow := [] } : MemModule) = { N with shadow := [] } from h) :)
theorem SameRegisters.symm {M N : MemModule} (h : SameRegisters M N) : SameRegisters N M := Eq.symm h
theorem SameRegisters.trans {L M N : MemModule} (h : SameRegisters L M) (g : SameRegisters M N) :
    SameRegisters L N := Eq.trans h g

/-- The same registers but for the identity. -/
theorem SameRegisters.sameButId {M N : MemModule} (h : SameRegisters M N) : SameButId M N :=
  congrArg (fun (L : MemModule) => ({ L with deviceId := 0, idField := 0 } : MemModule)) h

theorem SameButId.trans {L M N : MemModule} (h : SameButId L M) (g : SameButId M N) : SameButId L N :=
  Eq.trans h g

/-! ### The device-identity write -/

/-- The responder invariant of all modules but x says nothing of x's identity. -/
theorem ResponderInvBut.setMod {c : Config} {s : State} {x : Slot} (h : ResponderInvBut c s x)
    (M : MemModule) : ResponderInvBut c (s.setMod x M) x := by
  have hmod : ∀ j, j ≠ x → (s.setMod x M).modAt j = s.modAt j := fun j hj => State.modAt_setMod_ne s M hj
  refine ⟨h.absent, ?_, ?_⟩
  · intro i m hi
    have hmx : m ≠ x := fun e => h.absent i (e ▸ hi)
    rw [hmod m hmx]
    exact h.range i m hi
  · intro k hk hka
    obtain ⟨r, hr, hra, hrd, hrl⟩ := h.least k hk hka
    have hrx : r ≠ x := fun e => h.absent (s.modAt k).deviceId.toFin (by rw [← State.responder_eq, hr, e])
    refine ⟨r, by rw [hmod k hk]; exact hr, hra, by rw [hmod k hk, hmod r hrx]; exact hrd, ?_⟩
    intro j hj hja hjd
    rw [hmod k hk, hmod j hj] at hjd
    exact hrl j hj hja hjd

/-- What a device-identity write of w to module m of s leaves in t: the invariants, the new identity, every
image, every other register, every byte outside the two regions (41_module_registers.md R161, R162,
40_arbitration.md R140). -/
structure IdWritten (c : Config) (m : Slot) (w : Word) (s t : State) : Prop where
  inv : Inv c t
  idField : (t.modAt m).idField = idDecode c.layout w
  deviceId : (t.modAt m).deviceId = idDecode c.layout w &&& c.idMask
  registers : SameButId (t.modAt m) (s.modAt m)
  others : ∀ j, j ≠ m → SameRegisters (t.modAt j) (s.modAt j)
  inactive : ∀ j, ¬ Active s j → t.modAt j = s.modAt j
  images : ∀ j, Active s j → ∀ o < c.capBytes, imageByte t j o = imageByte s j o
  outside : ∀ a, (a < (s.modAt m).deviceId.toNat * idSlotBytes ∨
      (s.modAt m).deviceId.toNat * idSlotBytes + c.capBytes ≤ a) →
    (a < (t.modAt m).deviceId.toNat * idSlotBytes ∨
      (t.modAt m).deviceId.toNat * idSlotBytes + c.capBytes ≤ a) → t.live.read a = s.live.read a
  expansion : t.expansion = s.expansion
  status : t.status = s.status
  ri : t.ri = s.ri
  trace : t.trace = s.trace
  result : t.result = s.result
  pending : t.pending = s.pending

/-- The device-identity write of any existing module, responder or not. -/
theorem writeDeviceId_spec {c : Config} {s : State} {m : Slot} (w : Word) (hI : Inv c s) (hm : Active s m) :
    IdWritten c m w s (writeDeviceId c m w s) := by
  have ha := hI.modules.aligned
  simp only [writeDeviceId]
  generalize hs1 : s.setMod m { s.modAt m with idField := idDecode c.layout w } = s1
  have hmod1 : ∀ j, j ≠ m → s1.modAt j = s.modAt j := fun j hj => by
    rw [← hs1]; exact State.modAt_setMod_ne s _ hj
  have hmod1m : s1.modAt m = { s.modAt m with idField := idDecode c.layout w } := by
    rw [← hs1]; exact State.modAt_setMod_self s m _
  have hid1 : ∀ j, (s1.modAt j).deviceId = (s.modAt j).deviceId := fun j => by
    by_cases h : j = m
    · rw [h, hmod1m]
    · rw [hmod1 j h]
  have hsh1 : ∀ j, (s1.modAt j).shadow = (s.modAt j).shadow := fun j => by
    by_cases h : j = m
    · rw [h, hmod1m]
    · rw [hmod1 j h]
  have hx1 : s1.expansion = s.expansion := by rw [← hs1]; rfl
  have hr1 : s1.resp = s.resp := by rw [← hs1]; rfl
  have hl1 : s1.live = s.live := by rw [← hs1]; rfl
  have hst1 : s1.status = s.status := by rw [← hs1]; rfl
  have hri1 : s1.ri = s.ri := by rw [← hs1]; rfl
  have htr1 : s1.trace = s.trace := by rw [← hs1]; rfl
  have hre1 : s1.result = s.result := by rw [← hs1]; rfl
  have hpe1 : s1.pending = s.pending := by rw [← hs1]; rfl
  have hR1 : ResponderInv c s1 := hI.responders.congr hx1 hr1 hid1
  have hA1 : Aligned c s1 := ha.congr hx1 hid1
  have hB1 : BufferInv c s1 := hI.buffers.congr hl1 hsh1
  have hZ1 : ZeroSlots s1 := hI.zeroSlots.congr hl1 hr1
  have hact1 : ∀ j, Active s1 j ↔ Active s j := fun j => by simp only [Active, hx1]
  have him1 : ∀ j o, imageByte s1 j o = imageByte s j o := fun j o =>
    imageByte_congr hl1 hr1 (hid1 j) (hsh1 j) o
  by_cases hnew : idDecode c.layout w &&& c.idMask = (s.modAt m).deviceId
  · rw [if_pos hnew]
    refine ⟨⟨?_, hR1, hB1, hZ1⟩, by rw [hmod1m], by rw [hid1, hnew], ?_, ?_, ?_, fun j _ o _ => him1 j o,
      fun a _ _ => by rw [hl1], hx1, hst1, hri1, htr1, hre1, hpe1⟩
    · intro j hj
      have hj' := hI.modules j ((hact1 j).1 hj)
      by_cases h : j = m
      · subst h
        rw [hmod1m]
        exact ⟨hnew.symm, hj'.valid_eq⟩
      · rw [hmod1 j h]; exact hj'
    · rw [hmod1m]; rfl
    · intro j hj; rw [hmod1 j hj]; rfl
    · intro j hj; exact hmod1 j fun e => hj (e ▸ hm)
  · rw [if_neg hnew]
    simp only [moveModule]
    have hm1 : Active s1 m := (hact1 m).2 hm
    have hR2 := unmapModule_responders hR1 hA1 hm1
    obtain ⟨hx2, hst2, hri2, htr2, hre2, hpe2, hsame2, hne2⟩ := unmapModule_frame c m s1
    have hA2 : Aligned c (unmapModule c m s1) := hA1.congr hx2 fun j => (hsame2 j).deviceId
    have hB2 := bufferInv_unmapModule hB1 hA1 hm1
    have hZ2 : ZeroSlots (unmapModule c m s1) := zeroSlots_unmapModule hZ1
    have him2 : ∀ j, Active s j → ∀ o < c.capBytes, imageByte (unmapModule c m s1) j o = imageByte s j o :=
      fun j hj o ho => by rw [imageByte_unmapModule hA1 hm1 ((hact1 j).2 hj) ho, him1]
    have hout2 : ∀ a, (a < (s.modAt m).deviceId.toNat * idSlotBytes ∨
        (s.modAt m).deviceId.toNat * idSlotBytes + c.capBytes ≤ a) →
        (unmapModule c m s1).live.read a = s.live.read a := fun a h => by
      rw [read_unmapModule_outside (by rw [hid1]; exact h), hl1]
    generalize hs2 : unmapModule c m s1 = s2 at *
    generalize hs3 : s2.setMod m { s2.modAt m with deviceId := idDecode c.layout w &&& c.idMask } = s3
    have hmod3 : ∀ j, j ≠ m → s3.modAt j = s2.modAt j := fun j hj => by
      rw [← hs3]; exact State.modAt_setMod_ne s2 _ hj
    have hmod3m : s3.modAt m = { s2.modAt m with deviceId := idDecode c.layout w &&& c.idMask } := by
      rw [← hs3]; exact State.modAt_setMod_self s2 m _
    have hx3 : s3.expansion = s2.expansion := by rw [← hs3]; rfl
    have hr3 : s3.resp = s2.resp := by rw [← hs3]; rfl
    have hl3 : s3.live = s2.live := by rw [← hs3]; rfl
    have hst3 : s3.status = s2.status := by rw [← hs3]; rfl
    have hri3 : s3.ri = s2.ri := by rw [← hs3]; rfl
    have htr3 : s3.trace = s2.trace := by rw [← hs3]; rfl
    have hre3 : s3.result = s2.result := by rw [← hs3]; rfl
    have hpe3 : s3.pending = s2.pending := by rw [← hs3]; rfl
    have hact3 : ∀ j, Active s3 j ↔ Active s j := fun j => by simp only [Active, hx3, hx2, hx1]
    have hm3 : Active s3 m := (hact3 m).2 hm
    have hR3 : ResponderInvBut c s3 m := by rw [← hs3]; exact hR2.setMod _
    have hA3 : Aligned c s3 := by
      intro j hj
      by_cases h : j = m
      · rw [h, hmod3m]; exact c.and_idMask_mod _
      · rw [hmod3 j h]
        refine hA2 j ?_
        simpa only [Active, hx3] using hj
    have hsh3 : ∀ j, (s3.modAt j).shadow = (s2.modAt j).shadow := fun j => by
      by_cases h : j = m
      · rw [h, hmod3m]
      · rw [hmod3 j h]
    have hB3 : BufferInv c s3 := hB2.congr hl3 hsh3
    have hZ3 : ZeroSlots s3 := hZ2.congr hl3 hr3
    have him3 : ∀ j, Active s j → ∀ o < c.capBytes, imageByte s3 j o = imageByte s j o := by
      intro j hj o ho
      rw [← him2 j hj o ho]
      by_cases h : j = m
      · subst h
        have hno : ∀ d, s2.responder d ≠ some j := fun d => by
          rw [State.responder_eq]; exact hR2.absent _
        have hno3 : ∀ d, s3.responder d ≠ some j := fun d => by
          rw [State.responder_eq, hr3]; exact hR2.absent _
        rw [imageByte_of_hidden fun h => hno3 _ h.1, imageByte_of_hidden fun h => hno _ h.1, hsh3]
      · exact imageByte_congr hl3 hr3 (by rw [hmod3 j h]) (hsh3 j) o
    obtain ⟨hx4, hst4, hri4, htr4, hre4, hpe4, hsame4, hm4⟩ := mapModule_frame c m s3
    have hreg : ∀ j, j ≠ m → SameRegisters ((mapModule c m s3).modAt j) (s.modAt j) := by
      intro j hj
      have h1 := hsame4 j
      rw [hmod3 j hj] at h1
      have h2 := hsame2 j
      rw [hmod1 j hj] at h2
      exact h1.trans h2
    have hidt : (mapModule c m s3).modAt m = { s2.modAt m with deviceId := idDecode c.layout w &&& c.idMask } := by
      rw [hm4, hmod3m]
    have hs2m : SameRegisters (s2.modAt m) { s.modAt m with idField := idDecode c.layout w } := by
      have := hsame2 m; rwa [hmod1m] at this
    have hfield : ((mapModule c m s3).modAt m).idField = idDecode c.layout w := by
      rw [hidt]; exact hs2m.idField
    refine ⟨⟨?_, mapModule_responders hR3 hA3 hm3, bufferInv_mapModule hR3 hB3 hA3 hm3,
      zeroSlots_mapModule hZ3⟩, hfield, by rw [hidt], ?_, hreg, ?_, ?_, ?_, ?_, ?_, ?_, ?_, ?_, ?_⟩
    · intro j hj
      have hjs : Active s j := (hact3 j).1 (by simpa only [Active, hx4] using hj)
      have hj' := hI.modules j hjs
      by_cases h : j = m
      · subst h
        refine ⟨by rw [hfield, hidt], ?_⟩
        rw [hidt]
        show (s2.modAt j).valid = _
        rw [hs2m.valid, hs2m.de, hs2m.cc]
        exact hj'.valid_eq
      · have hr := hreg j h
        exact ⟨by rw [hr.deviceId, hr.idField]; exact hj'.deviceId_eq,
          by rw [hr.valid, hr.de, hr.cc]; exact hj'.valid_eq⟩
    · have e : SameButId (s2.modAt m) { s.modAt m with idField := idDecode c.layout w } := hs2m.sameButId
      rw [hidt]
      exact e
    · intro j hj
      have hjm : j ≠ m := fun e => hj (e ▸ hm)
      rw [mapModule_inactive hR3 hA3 hm3 fun h => hj ((hact3 j).1 h), hmod3 j hjm, hne2 j hjm, hmod1 j hjm]
    · intro j hj o ho
      rw [imageByte_mapModule hR3 hA3 hm3 ((hact3 j).2 hj) ho, him3 j hj o ho]
    · intro a h1 h2
      rw [read_mapModule_outside hR3 hA3 hm3 (by rw [← hm4]; exact h2), hl3, hout2 a h1]
    · rw [hx4, hx3, hx2, hx1]
    · rw [hst4, hst3, hst2, hst1]
    · rw [hri4, hri3, hri2, hri1]
    · rw [htr4, htr3, htr2, htr1]
    · rw [hre4, hre3, hre2, hre1]
    · rw [hpe4, hpe3, hpe2, hpe1]

/-- A device-identity write keeps the derived fields and the responder invariant, whatever the buffers
hold. -/
theorem writeDeviceId_responders {c : Config} {s : State} {m : Slot} (w : Word) (hM : ModulesInv c s)
    (hR : ResponderInv c s) (hm : Active s m) :
    ModulesInv c (writeDeviceId c m w s) ∧ ResponderInv c (writeDeviceId c m w s) := by
  simp only [writeDeviceId]
  generalize hs1 : s.setMod m { s.modAt m with idField := idDecode c.layout w } = s1
  have hmod1 : ∀ j, j ≠ m → s1.modAt j = s.modAt j := fun j hj => by
    rw [← hs1]; exact State.modAt_setMod_ne s _ hj
  have hmod1m : s1.modAt m = { s.modAt m with idField := idDecode c.layout w } := by
    rw [← hs1]; exact State.modAt_setMod_self s m _
  have hid1 : ∀ j, (s1.modAt j).deviceId = (s.modAt j).deviceId := fun j => by
    by_cases h : j = m
    · rw [h, hmod1m]
    · rw [hmod1 j h]
  have hx1 : s1.expansion = s.expansion := by rw [← hs1]; rfl
  have hr1 : s1.resp = s.resp := by rw [← hs1]; rfl
  have hR1 : ResponderInv c s1 := hR.congr hx1 hr1 hid1
  have hA1 : Aligned c s1 := hM.aligned.congr hx1 hid1
  have hm1 : Active s1 m := by simpa only [Active, hx1] using hm
  by_cases hnew : idDecode c.layout w &&& c.idMask = (s.modAt m).deviceId
  · rw [if_pos hnew]
    refine ⟨?_, hR1⟩
    intro j hj
    have hj' := hM j (by simpa only [Active, hx1] using hj)
    by_cases h : j = m
    · subst h
      rw [hmod1m]
      exact ⟨hnew.symm, hj'.valid_eq⟩
    · rw [hmod1 j h]; exact hj'
  · rw [if_neg hnew]
    simp only [moveModule]
    obtain ⟨hx2, -, -, -, -, -, hsame2, -⟩ := unmapModule_frame c m s1
    have hR2 := (unmapModule_responders hR1 hA1 hm1).setMod
      { (unmapModule c m s1).modAt m with deviceId := idDecode c.layout w &&& c.idMask }
    have hA2 : Aligned c (unmapModule c m s1) := hA1.congr hx2 fun j => (hsame2 j).deviceId
    generalize unmapModule c m s1 = s2 at *
    have hA3 : Aligned c (s2.setMod m { s2.modAt m with deviceId := idDecode c.layout w &&& c.idMask }) := by
      intro j hj
      by_cases h : j = m
      · rw [h, State.modAt_setMod_self]; exact c.and_idMask_mod _
      · rw [State.modAt_setMod_ne _ _ h]; exact hA2 j hj
    have hm3 : Active (s2.setMod m { s2.modAt m with deviceId := idDecode c.layout w &&& c.idMask }) m := by
      show m.val < nmod s2.expansion
      rw [hx2, hx1]; exact hm
    refine ⟨?_, mapModule_responders hR2 hA3 hm3⟩
    obtain ⟨hx4, -, -, -, -, -, hsame4, hm4⟩ :=
      mapModule_frame c m (s2.setMod m { s2.modAt m with deviceId := idDecode c.layout w &&& c.idMask })
    intro j hj
    have hjs : Active s j := by
      unfold Active at hj ⊢
      rwa [hx4, State.setMod_expansion, hx2, hx1] at hj
    have hj' := hM j hjs
    by_cases h : j = m
    · subst h
      have hs2 := hsame2 j
      rw [hmod1m] at hs2
      rw [hm4, State.modAt_setMod_self]
      refine ⟨congrArg (· &&& c.idMask) hs2.idField.symm, ?_⟩
      show (s2.modAt j).valid = _
      rw [hs2.valid, hs2.de, hs2.cc]
      exact hj'.valid_eq
    · have h4 := hsame4 j
      rw [State.modAt_setMod_ne _ _ h] at h4
      have h2 := hsame2 j
      rw [hmod1 j h] at h2
      have hr := h4.trans h2
      exact ⟨by rw [hr.deviceId, hr.idField]; exact hj'.deviceId_eq,
        by rw [hr.valid, hr.de, hr.cc]; exact hj'.valid_eq⟩

/-- From any state a device-identity write stores the field as written (41_module_registers.md R161). -/
theorem writeDeviceId_idField (c : Config) (m : Slot) (w : Word) (s : State) :
    ((writeDeviceId c m w s).modAt m).idField = idDecode c.layout w := by
  simp only [writeDeviceId]
  split_ifs
  · rw [State.modAt_setMod_self]
  · simp only [moveModule]
    rw [(mapModule_frame c m _).2.2.2.2.2.2.2, State.modAt_setMod_self,
      ((unmapModule_frame c m _).2.2.2.2.2.2.1 m).idField, State.modAt_setMod_self]

/-- What device-identity writes of w to the modules in `done` of s, one after another, leave in t
(42_registry_dispatch.md R205). -/
structure IdsWritten (c : Config) (w : Word) (s t : State) (done : Slot → Prop) : Prop where
  inv : Inv c t
  identity : ∀ m, done m →
    (t.modAt m).idField = idDecode c.layout w ∧ (t.modAt m).deviceId = idDecode c.layout w &&& c.idMask
  keep : ∀ m, ¬ done m → (t.modAt m).deviceId = (s.modAt m).deviceId
  registers : ∀ m, SameButId (t.modAt m) (s.modAt m)
  inactive : ∀ j, ¬ Active s j → t.modAt j = s.modAt j
  images : ∀ j, Active s j → ∀ o < c.capBytes, imageByte t j o = imageByte s j o
  outside : ∀ a, (∀ m, Active s m → (a < (s.modAt m).deviceId.toNat * idSlotBytes ∨
      (s.modAt m).deviceId.toNat * idSlotBytes + c.capBytes ≤ a)) →
    (a < (idDecode c.layout w &&& c.idMask).toNat * idSlotBytes ∨
      (idDecode c.layout w &&& c.idMask).toNat * idSlotBytes + c.capBytes ≤ a) → t.live.read a = s.live.read a
  expansion : t.expansion = s.expansion
  status : t.status = s.status
  ri : t.ri = s.ri
  trace : t.trace = s.trace
  result : t.result = s.result
  pending : t.pending = s.pending

theorem IdsWritten.refl {c : Config} {w : Word} {s : State} (hI : Inv c s) :
    IdsWritten c w s s (fun _ => False) :=
  ⟨hI, fun _ h => h.elim, fun _ _ => rfl, fun _ => rfl, fun _ _ => rfl, fun _ _ _ _ => rfl,
    fun _ _ _ => rfl, rfl, rfl, rfl, rfl, rfl, rfl⟩

theorem IdsWritten.write {c : Config} {w : Word} {s t : State} {done : Slot → Prop}
    (h : IdsWritten c w s t done) {m : Slot} (hm : Active s m) (hnd : ¬ done m) :
    IdsWritten c w s (writeDeviceId c m w t) (fun j => done j ∨ j = m) := by
  have hmt : Active t m := by simp only [Active, h.expansion]; exact hm
  have g := writeDeviceId_spec w h.inv hmt
  refine ⟨g.inv, ?_, ?_, ?_, ?_, ?_, ?_, g.expansion.trans h.expansion, g.status.trans h.status,
    g.ri.trans h.ri, g.trace.trans h.trace, g.result.trans h.result, g.pending.trans h.pending⟩
  · rintro j (hj | rfl)
    · by_cases e : j = m
      · subst e; exact ⟨g.idField, g.deviceId⟩
      · have := g.others j e
        rw [this.idField, this.deviceId]; exact h.identity j hj
    · exact ⟨g.idField, g.deviceId⟩
  · intro j hj
    rw [not_or] at hj
    rw [(g.others j hj.2).deviceId, h.keep j hj.1]
  · intro j
    by_cases e : j = m
    · subst e; exact g.registers.trans (h.registers j)
    · exact (g.others j e).sameButId.trans (h.registers j)
  · intro j hj
    rw [g.inactive j (by simp only [Active, h.expansion]; exact hj), h.inactive j hj]
  · intro j hj o ho
    rw [g.images j (by simp only [Active, h.expansion]; exact hj) o ho, h.images j hj o ho]
  · intro a h1 h2
    rw [g.outside a (by rw [h.keep m hnd]; exact h1 m hm) (by rw [g.deviceId]; exact h2),
      h.outside a h1 h2]

/-- A device-identity write of every slot of a list of distinct existing modules. -/
theorem IdsWritten.foldl {c : Config} {w : Word} {s : State} (l : List Slot) (hl : l.Nodup)
    (ha : ∀ m ∈ l, Active s m) : ∀ (t : State) (done : Slot → Prop), IdsWritten c w s t done →
    (∀ m ∈ l, ¬ done m) →
    IdsWritten c w s (l.foldl (fun u m => writeDeviceId c m w u) t) (fun j => done j ∨ j ∈ l) := by
  induction l with
  | nil => intro t done h _; simpa using h
  | cons x xs ih =>
    intro t done h hd
    have hx := List.nodup_cons.1 hl
    have h2 := ih hx.2 (fun m hm => ha m (by simp [hm])) _ _ (h.write (ha x (by simp)) (hd x (by simp))) (by
      intro m hm
      rintro (h | rfl)
      · exact hd m (by simp [hm]) h
      · exact hx.1 hm)
    rw [List.foldl_cons]
    convert h2 using 2
    simp [or_assoc]

end Sys2Proof.Machine
end

