-- ==== Sys2Proof/Laws/Operands.lean ====
section
/-! SUPPORT. The packed registers as rows of fields, most significant first, and what unpacking a packed
value gives (30_encoding.md section 3). -/

namespace Sys2Proof.Machine

/-- Device-identity word (R103). -/
theorem idEncode_fields (f : DevId) :
    idEncode specLayout f
      = f.extractLsb' 0 6 ++ 0#2 ++ f.extractLsb' 6 1 ++ 0#13 ++ f.extractLsb' 7 2 ++ 0#8 := by
  revert f
  decide +kernel

/-- The identity field of a word (R103). -/
theorem idDecode_fields (w : Word) :
    idDecode specLayout w = w.extractLsb' 8 2 ++ w.extractLsb' 23 1 ++ w.extractLsb' 26 6 := by
  apply BitVec.eq_of_getLsbD_eq
  intro i hi
  rw [idDecode, getLsbD_gather _ _ ⟨i, hi⟩]
  simp only [BitVec.getLsbD_append, BitVec.getLsbD_extractLsb', specLayout]
  interval_cases i <;> simp

/-- Delay register (R105). -/
theorem packDelay_fields (M : MemModule) :
    packDelay specLayout M = 0#2 ++ M.dlyAckWin ++ 0#5 ++ M.dlyRead ++ 0#5 ++ M.dlyAck ++ 0#5
      ++ M.dlyWrite ++ 0#3 := by
  apply BitVec.eq_of_getLsbD_eq
  intro i hi
  simp only [packDelay, specLayout, BitVec.getLsbD_or, getLsbD_scatter_run, BitVec.getLsbD_append,
    BitVec.getLsbD_zero]
  interval_cases i <;> simp

/-- The calibration bits in the mode word (R106). -/
theorem ccScatter_fields (x : BitVec 6) :
    ccScatter specLayout x = 0#8 ++ BitVec.ofBool (x.getLsbD 5) ++ BitVec.ofBool (x.getLsbD 2) ++ 0#6
      ++ BitVec.ofBool (x.getLsbD 4) ++ BitVec.ofBool (x.getLsbD 1) ++ 0#6 ++ BitVec.ofBool (x.getLsbD 3)
      ++ BitVec.ofBool (x.getLsbD 0) ++ 0#6 := by
  revert x
  decide +kernel

/-- The calibration field of a mode word (R106). -/
theorem ccGather_fields (w : Word) :
    ccGather specLayout w = w.extractLsb' 23 1 ++ w.extractLsb' 15 1 ++ w.extractLsb' 7 1
      ++ w.extractLsb' 22 1 ++ w.extractLsb' 14 1 ++ w.extractLsb' 6 1 := by
  apply BitVec.eq_of_getLsbD_eq
  intro i hi
  rw [ccGather, getLsbD_gather _ _ ⟨i, hi⟩]
  simp only [BitVec.getLsbD_append, BitVec.getLsbD_extractLsb', specLayout]
  interval_cases i <;> simp

/-- Mode register (R106). -/
theorem packMode_fields {c : Config} (hl : c.layout = specLayout) (M : MemModule) :
    packMode c M = BitVec.ofBool M.ce ++ BitVec.ofBool M.x2 ++ 0#4 ++ BitVec.ofBool M.de ++ 0#1
      ++ (ccEncode c M.cc).extractLsb' 0 24 := by
  apply BitVec.eq_of_getLsbD_eq
  intro i hi
  simp only [packMode, modeWord, ccEncode, hl, ccScatter_fields, BitVec.getLsbD_or, getLsbD_placeBit,
    BitVec.getLsbD_append, BitVec.getLsbD_extractLsb', BitVec.getLsbD_zero]
  simp only [specLayout]
  interval_cases i <;> simp

/-- Timing register (R109). -/
theorem packRas_fields (M : MemModule) :
    packRas specLayout M = 0#3 ++ M.rasPrecharge ++ 0#3 ++ M.rasSense ++ 0#3 ++ M.rasImpRestore ++ 0#3
      ++ M.rasExpRestore := by
  apply BitVec.eq_of_getLsbD_eq
  intro i hi
  simp only [packRas, specLayout, BitVec.getLsbD_or, getLsbD_scatter_run, BitVec.getLsbD_append,
    BitVec.getLsbD_zero]
  interval_cases i <;> simp

/-- A 9-bit field at bit 0. -/
theorem scatter_nine (v : BitVec 9) : scatter (Bits.run 0) v = 0#23 ++ v := by
  apply BitVec.eq_of_getLsbD_eq
  intro i hi
  simp only [getLsbD_scatter_run, BitVec.getLsbD_append, BitVec.getLsbD_zero]
  interval_cases i <;> simp

/-- Address-swap register (R111). -/
theorem packSwap_fields (M : MemModule) : packSwap specLayout M = 0#23 ++ M.swap := scatter_nine _

/-- Sensed-row latches (R111). -/
theorem packRow0_fields (M : MemModule) : packRow0 specLayout M = 0#23 ++ M.row0 := scatter_nine _

theorem packRow1_fields (M : MemModule) : packRow1 specLayout M = 0#23 ++ M.row1 := scatter_nine _

/-- RI mode (R113). -/
theorem packRiMode_fields (r : Ri) :
    packRiMode specLayout r = 0#28 ++ BitVec.ofBool r.stopR ++ BitVec.ofBool r.stopT ++ r.opMode := by
  apply BitVec.eq_of_getLsbD_eq
  intro i hi
  simp only [packRiMode, specLayout, BitVec.getLsbD_or, getLsbD_scatter_run, getLsbD_placeBit,
    BitVec.getLsbD_append,
    BitVec.getLsbD_zero]
  interval_cases i <;> simp

/-- RI config (R114). -/
theorem packRiConfig_fields (r : Ri) : packRiConfig specLayout r = 0#25 ++ BitVec.ofBool r.ccEn
      ++ r.ccIn := by
  apply BitVec.eq_of_getLsbD_eq
  intro i hi
  simp only [packRiConfig, specLayout, BitVec.getLsbD_or, getLsbD_scatter_run, getLsbD_placeBit,
    BitVec.getLsbD_append,
    BitVec.getLsbD_zero]
  interval_cases i <;> simp

/-- RI select (R116). -/
theorem packRiSelect_fields (r : Ri) : packRiSelect specLayout r = 0#24 ++ r.tsel ++ r.rsel := by
  apply BitVec.eq_of_getLsbD_eq
  intro i hi
  simp only [packRiSelect, specLayout, BitVec.getLsbD_or, getLsbD_scatter_run,
    BitVec.getLsbD_append, BitVec.getLsbD_zero]
  interval_cases i <;> simp

/-- RI refresh (R117). -/
theorem packRiRefresh_fields (r : Ri) :
    packRiRefresh specLayout r = 0#9 ++ r.refMultibank ++ BitVec.ofBool r.refOptimize
      ++ BitVec.ofBool r.refEnable
      ++ BitVec.ofBool r.refBank ++ r.refDirtyDelay ++ r.refCleanDelay := by
  apply BitVec.eq_of_getLsbD_eq
  intro i hi
  simp only [packRiRefresh, specLayout, BitVec.getLsbD_or, getLsbD_scatter_run, getLsbD_placeBit,
    BitVec.getLsbD_append,
    BitVec.getLsbD_zero]
  interval_cases i <;> simp

/-- RI latency (R118). -/
theorem packRiLatency_fields (r : Ri) : packRiLatency specLayout r = 0#28 ++ r.latency := by
  apply BitVec.eq_of_getLsbD_eq
  intro i hi
  simp only [packRiLatency, specLayout, getLsbD_scatter_run, BitVec.getLsbD_append, BitVec.getLsbD_zero]
  interval_cases i <;> simp

/-- RI error (R119). -/
theorem packError_fields (st : Status) :
    packError specLayout st = 0#29 ++ BitVec.ofBool st.overErr ++ BitVec.ofBool st.ackErr
      ++ BitVec.ofBool st.nackErr := by
  apply BitVec.eq_of_getLsbD_eq
  intro i hi
  simp only [packError, specLayout, BitVec.getLsbD_or, getLsbD_placeBit, BitVec.getLsbD_append,
    BitVec.getLsbD_zero]
  interval_cases i <;> simp

/-- RI bank-status (R120). -/
theorem packBankStatus_fields (st : Status) : packBankStatus specLayout st = 0#16 ++ st.dirty
      ++ st.valid := by
  apply BitVec.eq_of_getLsbD_eq
  intro i hi
  simp only [packBankStatus, specLayout, BitVec.getLsbD_or, getLsbD_scatter_run,
    BitVec.getLsbD_append, BitVec.getLsbD_zero]
  interval_cases i <;> simp

/-! ### The stored fields of a word -/

/-- Delay register (R105). -/
theorem storeDelay_fields (w : Word) (M : MemModule) :
    storeDelay specLayout w M = { M with
      dlyAckWin := w.extractLsb' 27 3, dlyRead := w.extractLsb' 19 3
      dlyAck := w.extractLsb' 11 3, dlyWrite := w.extractLsb' 3 3 } := by
  simp only [storeDelay, specLayout, gather_run]

/-- Timing register (R109). -/
theorem storeRas_fields (w : Word) (M : MemModule) :
    storeRas specLayout w M = { M with
      rasPrecharge := w.extractLsb' 24 5, rasSense := w.extractLsb' 16 5
      rasImpRestore := w.extractLsb' 8 5, rasExpRestore := w.extractLsb' 0 5 } := by
  simp only [storeRas, specLayout, gather_run]

/-- Address-swap register (R111). -/
theorem storeSwap_fields (w : Word) (M : MemModule) :
    storeSwap specLayout w M =
      { M with swap := w.extractLsb' 0 9, swapInv := ~~~ (w.extractLsb' 0 9) } := by
  simp only [storeSwap, specLayout, gather_run]

/-- Sensed-row latches (R111). -/
theorem storeRow0_fields (w : Word) (M : MemModule) :
    storeRow0 specLayout w M = { M with row0 := w.extractLsb' 0 9 } := by
  simp only [storeRow0, specLayout, gather_run]

theorem storeRow1_fields (w : Word) (M : MemModule) :
    storeRow1 specLayout w M = { M with row1 := w.extractLsb' 0 9 } := by
  simp only [storeRow1, specLayout, gather_run]

/-- The three flags of a mode word (R106). -/
theorem modeFlags (w : Word) :
    modeCe specLayout w = w.getLsbD 31 ∧ modeX2 specLayout w = w.getLsbD 30 ∧
    modeDe specLayout w = w.getLsbD 25 := ⟨rfl, rfl, rfl⟩

/-- RI mode (R113). -/
theorem storeRiMode_fields (w : Word) (r : Ri) :
    storeRiMode specLayout w r =
      { r with opMode := w.extractLsb' 0 2, stopT := w.getLsbD 2, stopR := w.getLsbD 3 } := by
  simp only [storeRiMode, specLayout, gather_run]

/-- RI config (R114). -/
theorem storeRiConfig_fields (w : Word) (r : Ri) :
    storeRiConfig specLayout w r = { r with ccIn := w.extractLsb' 0 6, ccEn := w.getLsbD 6 } := by
  simp only [storeRiConfig, specLayout, gather_run]

/-- RI select (R116). -/
theorem storeRiSelect_fields (w : Word) (r : Ri) :
    storeRiSelect specLayout w r = { r with rsel := w.extractLsb' 0 4, tsel := w.extractLsb' 4 4 } := by
  simp only [storeRiSelect, specLayout, gather_run]

/-- RI refresh (R117). -/
theorem storeRiRefresh_fields (w : Word) (r : Ri) :
    storeRiRefresh specLayout w r = { r with
      refCleanDelay := w.extractLsb' 0 8, refDirtyDelay := w.extractLsb' 8 8
      refBank := w.getLsbD 16, refEnable := w.getLsbD 17, refOptimize := w.getLsbD 18
      refMultibank := w.extractLsb' 19 4 } := by
  simp only [storeRiRefresh, specLayout, gather_run]

/-- RI latency (R118). -/
theorem storeRiLatency_fields (w : Word) (r : Ri) :
    storeRiLatency specLayout w r = { r with latency := w.extractLsb' 0 4 } := by
  simp only [storeRiLatency, specLayout, gather_run]

/-! ### Unpacking a packed value -/

/-- The two scattered fields take distinct bits of the word. -/
theorem identity_injective : Function.Injective specLayout.identity := by decide

theorem cc_injective : Function.Injective specLayout.cc := by decide

/-- `IdDecode(IdEncode(f)) = f` (R103, E-45). -/
theorem idDecode_idEncode (f : DevId) : idDecode specLayout (idEncode specLayout f) = f :=
  gather_scatter identity_injective (by decide) f

/-- `IdEncode(IdDecode(w))` is the stored bits of w (R103). -/
theorem idEncode_idDecode (w : Word) :
    idEncode specLayout (idDecode specLayout w) = w &&& 0xFC800300#32 := by
  rw [idEncode_fields, idDecode_fields]
  apply BitVec.eq_of_getLsbD_eq
  intro i hi
  simp only [BitVec.getLsbD_append, BitVec.getLsbD_extractLsb', BitVec.getLsbD_zero, BitVec.getLsbD_and]
  interval_cases i <;> simp

/-- `CcDecode(CcEncode(x)) = x` (R106). -/
theorem ccDecode_ccEncode {c : Config} (hl : c.layout = specLayout) (x : BitVec 6) :
    ccDecode c (ccEncode c x) = x := by
  have h : ∀ y, ccGather specLayout (ccScatter specLayout y) = y :=
    gather_scatter cc_injective (by decide)
  rw [ccDecode, ccEncode, hl, h, BitVec.xor_assoc, BitVec.xor_self, BitVec.xor_zero]

/-! ### The memory-port address (R121) -/

theorem memId_eq (a : Nat) : memId specLayout a = BitVec.ofNat 9 (a / 2 ^ 20) := gather_run_nat 20 a

theorem memId_toNat (a : Nat) : (memId specLayout a).toNat = a / 2 ^ 20 % 2 ^ 9 := by
  rw [memId_eq, BitVec.toNat_ofNat]

theorem bank_eq (a : Nat) : bank specLayout a = a / 2 ^ 20 % 2 ^ 9 := memId_toNat a

theorem rowVal_eq (a : Nat) : rowVal specLayout a = BitVec.ofNat 9 (a / 2 ^ 11) := gather_run_nat 11 a

theorem rowSel_eq_true {c : Config} (hl : c.layout = specLayout) (a : Nat) :
    rowSel c a = true ↔ c.capLog.val ≠ 0 ∧ a.testBit (19 + c.capLog.val) = true := by
  rw [rowSel, Bool.and_eq_true, decide_eq_true_iff, hl]
  rfl

end Sys2Proof.Machine
end

