-- ==== Sys2Proof/Laws/MemAccess.lean ====
section
/-! SUPPORT. The memory access path: admission, the bookkeeping, and what single accesses and bursts do. -/

namespace Sys2Proof.Machine

/-! ### Admission (44_memory_access.md R250) -/

theorem admission_none {a : BitVec 32} {n : Nat} :
    admission a n = none ↔ a.toNat < memSpaceBytes ∧ a.toNat % n = 0 := by
  unfold admission
  split_ifs with h1 h2
  · simp; omega
  · simp [h2]
  · simp; omega

/-- An admitted operation answers with its state. -/
theorem memOp_next {a : BitVec 32} {n : Nat} {t u : State} :
    memOp a n t = .next u ↔ (a.toNat < memSpaceBytes ∧ a.toNat % n = 0) ∧ t = u := by
  rw [← admission_none]
  unfold memOp
  cases admission a n <;> simp

theorem memOp_of_admitted {a : BitVec 32} {n : Nat} {t : State} (h1 : a.toNat < memSpaceBytes)
    (h2 : a.toNat % n = 0) : memOp a n t = .next t := memOp_next.2 ⟨⟨h1, h2⟩, rfl⟩

/-! ### The status block -/

theorem markBank_valid (b : Nat) (dir : Dir) (st : Status) (k : Nat) (hk : k < 8) :
    (markBank b dir st).valid.getLsbD k = (st.valid.getLsbD k || decide (b = k)) := by
  have hbit : ∀ b < 8, ∀ k < 8, (1#8 <<< b).getLsbD k = decide (b = k) := by decide
  unfold markBank trackedBanks
  split_ifs with hb
  · cases dir <;> simp only [BitVec.getLsbD_or, hbit b hb k hk]
  · rw [decide_eq_false (show ¬ b = k by omega), Bool.or_false]

theorem markBank_dirty (b : Nat) (dir : Dir) (st : Status) (k : Nat) (hk : k < 8) :
    (markBank b dir st).dirty.getLsbD k
      = (st.dirty.getLsbD k || (decide (dir = .write) && decide (b = k))) := by
  have hbit : ∀ b < 8, ∀ k < 8, (1#8 <<< b).getLsbD k = decide (b = k) := by decide
  unfold markBank trackedBanks
  split_ifs with hb
  · cases dir
    · simp
    · simp only [BitVec.getLsbD_or, hbit b hb k hk, decide_true, Bool.true_and]
  · rw [decide_eq_false (show ¬ b = k by omega), Bool.and_false, Bool.or_false]

theorem markBank_overErr (b : Nat) (dir : Dir) (st : Status) :
    (markBank b dir st).overErr = (st.overErr || decide (8 ≤ b)) := by
  unfold markBank trackedBanks
  split_ifs with hb
  · rw [decide_eq_false (show ¬ 8 ≤ b by omega), Bool.or_false]; cases dir <;> rfl
  · rw [decide_eq_true (show 8 ≤ b by omega), Bool.or_true]

@[simp] theorem markBank_ackErr (b : Nat) (dir : Dir) (st : Status) :
    (markBank b dir st).ackErr = st.ackErr := by
  unfold markBank; split_ifs <;> cases dir <;> rfl

@[simp] theorem markBank_nackErr (b : Nat) (dir : Dir) (st : Status) :
    (markBank b dir st).nackErr = st.nackErr := by
  unfold markBank; split_ifs <;> cases dir <;> rfl

/-! ### `Book` (44_memory_access.md R251) -/

@[simp] theorem book_expansion (c : Config) (a : Nat) (dir : Dir) (s : State) :
    (book c a dir s).expansion = s.expansion := by
  simp only [book]; split <;> rfl
@[simp] theorem book_live (c : Config) (a : Nat) (dir : Dir) (s : State) : (book c a dir s).live = s.live := by
  simp only [book]; split <;> rfl
@[simp] theorem book_resp (c : Config) (a : Nat) (dir : Dir) (s : State) : (book c a dir s).resp = s.resp := by
  simp only [book]; split <;> rfl
@[simp] theorem book_ri (c : Config) (a : Nat) (dir : Dir) (s : State) : (book c a dir s).ri = s.ri := by
  simp only [book]; split <;> rfl
@[simp] theorem book_result (c : Config) (a : Nat) (dir : Dir) (s : State) :
    (book c a dir s).result = s.result := by
  simp only [book]; split <;> rfl
@[simp] theorem book_pending (c : Config) (a : Nat) (dir : Dir) (s : State) :
    (book c a dir s).pending = s.pending := by
  simp only [book]; split <;> rfl
@[simp] theorem book_responder (c : Config) (a : Nat) (dir : Dir) (s : State) (d : DevId) :
    (book c a dir s).responder d = s.responder d := by
  simp only [State.responder, book_resp]

theorem book_trace (c : Config) (hl : c.layout = specLayout) (a : Nat) (dir : Dir) (s : State) :
    (book c a dir s).trace = s.trace ++ missEvents dir a s := by
  simp only [book, missEvents, hl]
  cases h : s.responder (memId specLayout a) <;> simp

theorem book_status (c : Config) (hl : c.layout = specLayout) (a : Nat) (dir : Dir) (s : State) :
    (book c a dir s).status = { markBank (bank specLayout a) dir s.status with
      ackErr := s.status.ackErr || (s.responder (memId specLayout a)).isNone } := by
  simp only [book, hl]
  have e : markBank (bank specLayout a) dir s.status
      = { markBank (bank specLayout a) dir s.status with ackErr := s.status.ackErr } := by
    conv_rhs => rw [← markBank_ackErr (bank specLayout a) dir s.status]
  cases h : s.responder (memId specLayout a) with
  | none => simp
  | some r => simpa using e

theorem book_modAt (c : Config) (hl : c.layout = specLayout) (a : Nat) (dir : Dir) (s : State) (m : Slot) :
    (book c a dir s).modAt m =
      if s.responder (memId specLayout a) = some m then latchRow c a (s.modAt m) else s.modAt m := by
  simp only [book, hl]
  cases h : s.responder (memId specLayout a) with
  | none => simp [State.modAt]
  | some r =>
    simp only []
    rw [State.modAt_setMod]
    by_cases hm : m = r
    · rw [if_pos hm, if_pos (by rw [hm]), hm]
    · rw [if_neg hm, if_neg fun e => hm (by simpa using e.symm)]; rfl

@[simp] theorem latchRow_valid (c : Config) (a : Nat) (M : MemModule) : (latchRow c a M).valid = M.valid := by
  unfold latchRow; split_ifs <;> rfl

theorem book_modAt_valid (c : Config) (hl : c.layout = specLayout) (a : Nat) (dir : Dir) (s : State)
    (m : Slot) : ((book c a dir s).modAt m).valid = (s.modAt m).valid := by
  rw [book_modAt c hl]; split_ifs
  · exact latchRow_valid _ _ _
  · rfl

/-- The four effects, and all that is left alone (44_memory_access.md R251, R253, R254). -/
theorem book_booked (c : Config) (hl : c.layout = specLayout) {a : Nat} (ha : a < memSpaceBytes)
    (dir : Dir) (s : State) :
    Booked c dir a s (book c a dir s) := by
  have hb : bank specLayout a = a / 2 ^ 20 := by
    rw [bank_eq]
    simp only [memSpaceBytes] at ha
    omega
  refine ⟨?_, ?_, ?_, ?_, ?_, ?_, book_expansion _ _ _ _, book_resp _ _ _ _, book_ri _ _ _ _,
    book_pending _ _ _ _⟩
  · intro b hb8; rw [book_status c hl]; rw [← hb]; exact markBank_valid _ _ _ b hb8
  · intro b hb8; rw [book_status c hl]; rw [← hb]; exact markBank_dirty _ _ _ b hb8
  · rw [book_status c hl, ← hb]; exact markBank_overErr _ _ _
  · rw [book_status c hl]
  · rw [book_status c hl]; exact markBank_nackErr _ _ _
  · intro m
    rw [book_modAt c hl]
    by_cases h : s.responder (memId specLayout a) = some m
    · rw [if_pos h, if_neg fun hn => hn h, latchRow]
      by_cases hr : rowSel c a = true
      · obtain ⟨h1, h2⟩ := (rowSel_eq_true hl a).1 hr
        have h3 : ¬ (c.capLog.val = 0 ∨ a.testBit (19 + c.capLog.val) = false) := by simp [h1, h2]
        rw [if_pos hr, if_neg h3, hl, rowVal_eq]
      · have h3 : c.capLog.val = 0 ∨ a.testBit (19 + c.capLog.val) = false := by
          by_contra hc
          rw [not_or] at hc
          exact hr ((rowSel_eq_true hl a).2 ⟨hc.1, by simpa using hc.2⟩)
        rw [if_neg hr, if_pos h3, hl, rowVal_eq]
    · rw [if_neg h, if_pos h]

/-- Only the fields that `Booked` speaks of matter to it. -/
theorem Booked.congr {c : Config} {dir : Dir} {a : Nat} {s t u : State} (h : Booked c dir a s t)
    (hst : u.status = t.status) (hm : ∀ m, u.modAt m = t.modAt m) (hx : u.expansion = t.expansion)
    (hr : u.resp = t.resp) (hri : u.ri = t.ri) (hp : u.pending = t.pending) : Booked c dir a s u := by
  refine ⟨?_, ?_, ?_, ?_, ?_, ?_, hx.trans h.expansion, hr.trans h.resp, hri.trans h.ri, hp.trans h.pending⟩
  · rw [hst]; exact h.valid
  · rw [hst]; exact h.dirty
  · rw [hst]; exact h.overErr
  · rw [hst]; exact h.ackErr
  · rw [hst]; exact h.nackErr
  · intro m; rw [hm]; exact h.latch m

theorem Booked.responder {c : Config} {dir : Dir} {a : Nat} {s t : State} (h : Booked c dir a s t) (d : DevId) :
    t.responder d = s.responder d := by simp only [State.responder, h.resp]

theorem Booked.modAt_valid {c : Config} {dir : Dir} {a : Nat} {s t : State} (h : Booked c dir a s t) (m : Slot) :
    (t.modAt m).valid = (s.modAt m).valid := by
  rw [h.latch m]; split_ifs <;> rfl

/-- Two accesses to one slot and one row have the bookkeeping of the first (44_memory_access.md R260). -/
theorem Booked.trans {c : Config} {dir : Dir} {a b : Nat} {s t u : State} (h : Booked c dir a s t)
    (g : Booked c dir b t u) (hrow : b / 2 ^ 11 = a / 2 ^ 11) : Booked c dir a s u := by
  have hslot : b / 2 ^ 20 = a / 2 ^ 20 := by omega
  have hid : memId specLayout b = memId specLayout a := by
    apply BitVec.eq_of_toNat_eq; rw [memId_toNat, memId_toNat, hslot]
  have hbit : b.testBit (19 + c.capLog.val) = a.testBit (19 + c.capLog.val) := by
    have e : 19 + c.capLog.val = (8 + c.capLog.val) + 11 := by omega
    have hd : ∀ x : Nat, x.testBit (8 + c.capLog.val + 11) = (x / 2 ^ 11).testBit (8 + c.capLog.val) :=
      fun x => (Nat.testBit_div_two_pow x (8 + c.capLog.val)).symm
    rw [e, hd, hd, hrow]
  have hresp := h.responder
  refine ⟨?_, ?_, ?_, ?_, g.nackErr.trans h.nackErr, ?_, g.expansion.trans h.expansion,
    g.resp.trans h.resp, g.ri.trans h.ri, g.pending.trans h.pending⟩
  · intro k hk; rw [g.valid k hk, h.valid k hk, hslot, Bool.or_assoc, Bool.or_self]
  · intro k hk; rw [g.dirty k hk, h.dirty k hk, hslot, Bool.or_assoc, Bool.or_self]
  · rw [g.overErr, h.overErr, hslot, Bool.or_assoc, Bool.or_self]
  · rw [g.ackErr, h.ackErr, hid, hresp, Bool.or_assoc, Bool.or_self]
  · intro m
    have h1 := g.latch m
    rw [hid, hresp, hbit, hrow, h.latch m] at h1
    rw [h1]
    split_ifs <;> rfl

/-- Nothing that the transfer depends on is changed by the bookkeeping. -/
theorem transfers_iff {c : Config} (hl : c.layout = specLayout) (s : State) (a n : Nat) :
    transfers c s a n = true ↔ DataMoves s a n := by
  unfold transfers DataMoves
  rw [hl]
  cases s.responder (memId specLayout a) <;> simp

theorem Booked.dataMoves {c : Config} {dir : Dir} {a : Nat} {s t : State} (h : Booked c dir a s t) (b n : Nat) :
    DataMoves t b n ↔ DataMoves s b n := by
  simp only [DataMoves, h.responder, h.modAt_valid]

/-! ### Single accesses -/

/-- `MemRead` (44_memory_access.md R256): the bookkeeping, the events, and the value. -/
theorem memRead_spec (c : Config) (hl : c.layout = specLayout) {a : Nat} (ha : a < memSpaceBytes)
    (n : Nat) (tag : Tag) (s : State) :
    Booked c .read a s (memRead c a n tag s).1 ∧ (memRead c a n tag s).1.live = s.live ∧
    (memRead c a n tag s).1.trace
      = s.trace ++ missEvents .read a s ++ tagEvents tag (.hookMem .read a n none) ∧
    (memRead c a n tag s).1.result = s.result ∧
    (DataMoves s a n → (memRead c a n tag s).2 = liveRead s.live a n) ∧
    (¬ DataMoves s a n → (memRead c a n tag s).2 = 0) := by
  refine ⟨(book_booked c hl ha .read s).congr ?_ ?_ ?_ ?_ ?_ ?_, ?_, ?_, ?_, ?_, ?_⟩
  · simp [memRead]
  · intro m; simp [memRead]
  · simp [memRead]
  · simp [memRead]
  · simp [memRead]
  · simp [memRead]
  · simp [memRead]
  · simp [memRead, book_trace c hl, tagEvents]
  · simp [memRead]
  · intro h; exact if_pos ((transfers_iff hl s a n).2 h)
  · intro h; exact if_neg fun e => h ((transfers_iff hl s a n).1 e)

/-- `MemWrite` (44_memory_access.md R257): the bookkeeping, the events, and the bytes. -/
theorem memWrite_spec (c : Config) (hl : c.layout = specLayout) {a : Nat} (ha : a < memSpaceBytes)
    (n v : Nat) (tag : Tag) (s : State) :
    Booked c .write a s (memWrite c a n v tag s) ∧
    (memWrite c a n v tag s).trace = s.trace ++ missEvents .write a s
      ++ tagEvents tag (.hookMem .write a n (some (BitVec.ofNat 64 v))) ∧
    (memWrite c a n v tag s).result = s.result ∧
    (DataMoves s a n → (memWrite c a n v tag s).live = liveWrite s.live a n v) ∧
    (¬ DataMoves s a n → (memWrite c a n v tag s).live = s.live) := by
  by_cases h : transfers c s a n = true
  · have hd := (transfers_iff hl s a n).1 h
    refine ⟨(book_booked c hl ha .write s).congr ?_ ?_ ?_ ?_ ?_ ?_, ?_, ?_, fun _ => ?_, fun hn => absurd hd hn⟩
    · simp [memWrite, h]
    · intro m; simp [memWrite, h]; rfl
    · simp [memWrite, h]
    · simp [memWrite, h]
    · simp [memWrite, h]
    · simp [memWrite, h]
    · simp [memWrite, h, book_trace c hl, tagEvents]
    · simp [memWrite, h]
    · simp [memWrite, h]
  · have hd : ¬ DataMoves s a n := fun e => h ((transfers_iff hl s a n).2 e)
    refine ⟨(book_booked c hl ha .write s).congr ?_ ?_ ?_ ?_ ?_ ?_, ?_, ?_, fun hn => absurd hn hd, fun _ => ?_⟩
    · simp [memWrite, h]
    · intro m; simp [memWrite, h]
    · simp [memWrite, h]
    · simp [memWrite, h]
    · simp [memWrite, h]
    · simp [memWrite, h]
    · simp [memWrite, h, book_trace c hl, tagEvents]
    · simp [memWrite, h]
    · simp [memWrite, h]

/-! ### Bursts -/

/-- A big-endian word is the number that `LiveRead` of four bytes gives. -/
theorem ofNat_liveRead_four (m : Memory) (a : Nat) : BitVec.ofNat 32 (liveRead m a 4) = wordAt m a := by
  apply BitVec.eq_of_toNat_eq
  have h0 := (m.read a).isLt
  have h1 := (m.read (a + 1)).isLt
  have h2 := (m.read (a + 2)).isLt
  have h3 := (m.read (a + 3)).isLt
  have e : ∀ (x y : Nat), y < 2 ^ 8 → x <<< 8 ||| y = x * 256 + y := fun x y hy => by
    rw [← Nat.shiftLeft_add_eq_or_of_lt hy, Nat.shiftLeft_eq]
  simp only [wordAt, BitVec.toNat_append, BitVec.toNat_ofNat, liveRead, Nat.add_zero, e _ _ h1, e _ _ h2,
    e _ _ h3]
  omega

/-- A byte is the number that `LiveRead` of one byte gives. -/
theorem ofNat_liveRead_one (m : Memory) (a : Nat) : BitVec.ofNat 8 (liveRead m a 1) = m.read a := by
  simp [liveRead]

/-- A big-endian half-word is the number that `LiveRead` of two bytes gives. -/
theorem ofNat_liveRead_two (m : Memory) (a : Nat) :
    BitVec.ofNat 16 (liveRead m a 2) = m.read a ++ m.read (a + 1) := by
  apply BitVec.eq_of_toNat_eq
  have h0 := (m.read a).isLt
  have h1 := (m.read (a + 1)).isLt
  have e : ∀ (x y : Nat), y < 2 ^ 8 → x <<< 8 ||| y = x * 256 + y := fun x y hy => by
    rw [← Nat.shiftLeft_add_eq_or_of_lt hy, Nat.shiftLeft_eq]
  simp only [BitVec.toNat_append, BitVec.toNat_ofNat, liveRead, Nat.add_zero, e _ _ h1]
  omega

/-- A big-endian double-word is the number that `LiveRead` of eight bytes gives. -/
theorem ofNat_liveRead_eight (m : Memory) (a : Nat) :
    BitVec.ofNat 64 (liveRead m a 8) = wordAt m a ++ wordAt m (a + 4) := by
  apply BitVec.eq_of_toNat_eq
  have h1 := liveRead_lt m (a + 4) 4
  have e : ∀ (x y : Nat), y < 2 ^ 32 → x <<< 32 ||| y = x * 2 ^ 32 + y := fun x y hy => by
    rw [← Nat.shiftLeft_add_eq_or_of_lt hy, Nat.shiftLeft_eq]
  have hsplit : liveRead m a 8 = liveRead m a 4 * 2 ^ 32 + liveRead m (a + 4) 4 := by
    have h5 : a + 5 = a + 4 + 1 := by omega
    have h6 : a + 6 = a + 4 + 2 := by omega
    have h7 : a + 7 = a + 4 + 3 := by omega
    simp only [liveRead, Nat.add_zero, h5, h6, h7]
    omega
  rw [← ofNat_liveRead_four, ← ofNat_liveRead_four, BitVec.toNat_append, BitVec.toNat_ofNat,
    BitVec.toNat_ofNat, BitVec.toNat_ofNat, e _ _ (Nat.mod_lt _ (by norm_num)), hsplit]
  omega

/-- The words of a burst read from a on, all in one row: the bookkeeping is that of one access, the events
are those of k, word i is the word at a + 4i (44_memory_access.md R260). -/
theorem burstWords_spec (c : Config) (hl : c.layout = specLayout) (b : Nat) (k : Nat) :
    ∀ (a : Nat) (s : State), a < memSpaceBytes →
    (0 < k → a / 2 ^ 11 = b / 2 ^ 11 ∧ (a + 4 * k - 1) / 2 ^ 11 = b / 2 ^ 11) →
    ((0 < k → Booked c .read a s (burstWords c a k s).1) ∧
    (burstWords c a k s).1.live = s.live ∧
    (burstWords c a k s).1.trace = s.trace ++ (List.replicate k (missEvents .read a s)).flatten ∧
    (DataMoves s a (4 * k) →
      (burstWords c a k s).2 = (List.range k).map (fun i => wordAt s.live (a + 4 * i))) ∧
    ((∀ i < k, ¬ DataMoves s (a + 4 * i) 4) → (burstWords c a k s).2 = List.replicate k 0)) := by
  induction k with
  | zero => intro a s _ _; simp [burstWords]
  | succ j ih =>
    intro a s ha hrow
    obtain ⟨hrow1, hrow2⟩ := hrow (by omega)
    obtain ⟨hB, hl, htr, -, hdata, hzero⟩ := memRead_spec c hl ha 4 [] s
    have htr' : (memRead c a 4 [] s).1.trace = s.trace ++ missEvents .read a s := by
      rw [htr]; simp [tagEvents]
    simp only [burstWords]
    by_cases hj : j = 0
    · subst hj
      simp only [burstWords]
      refine ⟨fun _ => hB, hl, by simp [htr'], ?_, ?_⟩
      · intro h; rw [hdata h, ofNat_liveRead_four]; simp [List.range_succ]
      · intro h
        have := h 0 (by omega)
        rw [hzero (by simpa using this)]; simp
    · have hnext : (a + 4) / 2 ^ 11 = a / 2 ^ 11 := by omega
      have hlast : (a + 4 + 4 * j - 1) / 2 ^ 11 = b / 2 ^ 11 := by
        rw [← hrow2]; congr 1; omega
      have hsp : a + 4 < memSpaceBytes := by
        simp only [memSpaceBytes] at *; omega
      obtain ⟨ihB, ihl, ihtr, ihd, ihz⟩ := ih (a + 4) (memRead c a 4 [] s).1 hsp
        (fun _ => ⟨by omega, hlast⟩)
      have hid : memId specLayout (a + 4) = memId specLayout a := by
        apply BitVec.eq_of_toNat_eq
        rw [memId_toNat, memId_toNat]
        have : (a + 4) / 2 ^ 20 = a / 2 ^ 20 := by omega
        rw [this]
      have hmiss : missEvents .read (a + 4) (memRead c a 4 [] s).1 = missEvents .read a s := by
        simp only [missEvents, hid, hB.responder]
      refine ⟨fun _ => hB.trans (ihB (by omega)) hnext, ihl.trans hl, ?_, ?_, ?_⟩
      · rw [ihtr, htr', hmiss, List.replicate_succ, List.flatten_cons, List.append_assoc]
      · rintro ⟨r, hr, hv, hle⟩
        have h1 : DataMoves s a 4 := ⟨r, hr, hv, by omega⟩
        have h2 : DataMoves (memRead c a 4 [] s).1 (a + 4) (4 * j) :=
          (hB.dataMoves _ _).2 ⟨r, by rw [hid]; exact hr, hv, by omega⟩
        rw [hdata h1, ofNat_liveRead_four, ihd h2, hl, List.range_succ_eq_map, List.map_cons, List.map_map]
        congr 1
        apply List.map_congr_left
        intro i _
        simp only [Function.comp]
        congr 1; omega
      · intro h
        have h0 := h 0 (by omega)
        rw [hzero (by simpa using h0), ihz, List.replicate_succ]
        · rfl
        · intro i hi
          rw [hB.dataMoves]
          have := h (i + 1) (by omega)
          rwa [show a + 4 * (i + 1) = a + 4 + 4 * i by omega] at this

/-- The bytes of a list of words written from a on. -/
def wordsWritten (m : Memory) (a : Nat) (ws : List Word) : Memory :=
  match ws with
  | [] => m
  | w :: rest => wordsWritten (liveWrite m a 4 w.toNat) (a + 4) rest

theorem wf_wordsWritten {m : Memory} (h : m.wf) (a : Nat) (ws : List Word) : (wordsWritten m a ws).wf := by
  induction ws generalizing m a with
  | nil => exact h
  | cons w rest ih => exact ih (wf_liveWrite h _ _ _) _

theorem bound_wordsWritten {m : Memory} {k : Nat} (h : ∀ x ∈ m, x.1 < k) {a : Nat} {ws : List Word}
    (hk : a + 4 * ws.length ≤ k) : ∀ x ∈ wordsWritten m a ws, x.1 < k := by
  induction ws generalizing m a with
  | nil => exact h
  | cons w rest ih =>
    rw [List.length_cons] at hk
    exact ih (bound_liveWrite h (by omega) _) (by omega)

/-- Outside the span a list of words changes no byte. -/
theorem read_wordsWritten_outside {m : Memory} (h : m.wf) {a : Nat} {ws : List Word} {x : Nat}
    (hx : x < a ∨ a + 4 * ws.length ≤ x) : (wordsWritten m a ws).read x = m.read x := by
  induction ws generalizing m a with
  | nil => rfl
  | cons w rest ih =>
    rw [List.length_cons] at hx
    rw [wordsWritten, ih (wf_liveWrite h _ _ _) (by omega), read_liveWrite h, if_neg (by omega)]

theorem wordAt_congr {m n : Memory} {a : Nat} (h : ∀ x, a ≤ x → x < a + 4 → m.read x = n.read x) :
    wordAt m a = wordAt n a := by
  simp only [wordAt]
  rw [h a (by omega) (by omega), h (a + 1) (by omega) (by omega), h (a + 2) (by omega) (by omega),
    h (a + 3) (by omega) (by omega)]

/-- The word written at a is the word read there. -/
theorem wordAt_liveWrite {m : Memory} (h : m.wf) (a : Nat) (w : Word) :
    wordAt (liveWrite m a 4 w.toNat) a = w := by
  rw [← ofNat_liveRead_four, liveRead_liveWrite h]
  apply BitVec.eq_of_toNat_eq
  have := w.isLt
  rw [BitVec.toNat_ofNat]
  omega

/-- Word i of a list of words written from a on stands at a + 4i. -/
theorem wordAt_wordsWritten {m : Memory} (h : m.wf) {a : Nat} {ws : List Word} {i : Nat}
    (hi : i < ws.length) : wordAt (wordsWritten m a ws) (a + 4 * i) = ws[i] := by
  induction ws generalizing m a i with
  | nil => simp at hi
  | cons w rest ih =>
    cases i with
    | zero =>
      rw [wordsWritten, List.getElem_cons_zero]
      refine Eq.trans (wordAt_congr fun x h1 h2 => ?_) (wordAt_liveWrite h a w)
      refine read_wordsWritten_outside (wf_liveWrite h _ _ _) (Or.inl ?_)
      omega
    | succ j =>
      have hj : j < rest.length := by simpa using hi
      have := ih (m := liveWrite m a 4 w.toNat) (a := a + 4) (wf_liveWrite h _ _ _) hj
      rw [wordsWritten, List.getElem_cons_succ, ← this]
      congr 1; omega

/-- The words of a burst write from a on, all in one row (44_memory_access.md R261). -/
theorem burstStores_spec (c : Config) (hl : c.layout = specLayout) (b : Nat) (ws : List Word) :
    ∀ (a : Nat) (s : State),
    a < memSpaceBytes →
    (ws ≠ [] → a / 2 ^ 11 = b / 2 ^ 11 ∧ (a + 4 * ws.length - 1) / 2 ^ 11 = b / 2 ^ 11) →
    ((ws ≠ [] → Booked c .write a s (burstStores c a ws s)) ∧
    (burstStores c a ws s).trace = s.trace ++ (List.replicate ws.length (missEvents .write a s)).flatten ∧
    (burstStores c a ws s).result = s.result ∧
    (DataMoves s a (4 * ws.length) → (burstStores c a ws s).live = wordsWritten s.live a ws) ∧
    ((∀ i < ws.length, ¬ DataMoves s (a + 4 * i) 4) → (burstStores c a ws s).live = s.live)) := by
  induction ws with
  | nil => intro a s _ _; simp [burstStores, wordsWritten]
  | cons w rest ih =>
    intro a s ha hrow
    obtain ⟨hrow1, hrow2⟩ := hrow (by simp)
    rw [List.length_cons] at hrow2
    obtain ⟨hB, htr, hre, hdata, hzero⟩ := memWrite_spec c hl ha 4 w.toNat [] s
    have htr' : (memWrite c a 4 w.toNat [] s).trace = s.trace ++ missEvents .write a s := by
      rw [htr]; simp [tagEvents]
    simp only [burstStores, wordsWritten]
    by_cases hj : rest = []
    · subst hj
      simp only [burstStores, wordsWritten]
      refine ⟨fun _ => hB, by simp [htr'], hre, fun h => hdata h, fun h => hzero ?_⟩
      simpa using h 0 (by simp)
    · have hlen : 0 < rest.length := List.length_pos_iff.2 hj
      have hnext : (a + 4) / 2 ^ 11 = a / 2 ^ 11 := by omega
      have hlast : (a + 4 + 4 * rest.length - 1) / 2 ^ 11 = b / 2 ^ 11 := by
        rw [← hrow2]; congr 1; omega
      have hsp : a + 4 < memSpaceBytes := by
        simp only [memSpaceBytes] at *; omega
      obtain ⟨ihB, ihtr, ihre, ihd, ihz⟩ := ih (a + 4) (memWrite c a 4 w.toNat [] s) hsp
        (fun _ => ⟨by omega, hlast⟩)
      have hid : memId specLayout (a + 4) = memId specLayout a := by
        apply BitVec.eq_of_toNat_eq
        rw [memId_toNat, memId_toNat]
        have : (a + 4) / 2 ^ 20 = a / 2 ^ 20 := by omega
        rw [this]
      have hmiss : missEvents .write (a + 4) (memWrite c a 4 w.toNat [] s) = missEvents .write a s := by
        simp only [missEvents, hid, hB.responder]
      refine ⟨fun _ => hB.trans (ihB hj) hnext, ?_, ihre.trans hre, ?_, ?_⟩
      · rw [ihtr, htr', hmiss, List.length_cons, List.replicate_succ, List.flatten_cons, List.append_assoc]
      · rintro ⟨r, hr, hv, hle⟩
        rw [List.length_cons] at hle
        have h1 : DataMoves s a 4 := ⟨r, hr, hv, by omega⟩
        have h2 : DataMoves (memWrite c a 4 w.toNat [] s) (a + 4) (4 * rest.length) :=
          (hB.dataMoves _ _).2 ⟨r, by rw [hid]; exact hr, hv, by omega⟩
        rw [ihd h2, hdata h1]
      · intro h
        have h0 := h 0 (by simp)
        rw [ihz, hzero (by simpa using h0)]
        intro i hi
        rw [hB.dataMoves]
        have := h (i + 1) (by simpa using hi)
        rwa [show a + 4 * (i + 1) = a + 4 + 4 * i by omega] at this

end Sys2Proof.Machine
end

