-- ==== Sys2Proof/Laws/PerInstr.lean ====
section
/-! SUPPORT. The family EncodeInRow: the command word the encoder writes for a well-formed operation lies in
the operation's own row of the opcode table (30_encoding.md R92). -/

namespace Sys2Proof.Laws.EncodeInRow

/-- The five rows of RR.NONE. -/
def readNoneRows : List (BitVec 38 × BitVec 38) :=
  [(0x3F000001F8#38, 0x1200000028#38),
    (0x3F000001F0#38, 0x1200000030#38),
    (0x3F000001C0#38, 0x1200000040#38),
    (0x3F00000180#38, 0x1200000080#38),
    (0x3F00000100#38, 0x1200000100#38)]

/-- The five rows of RW.NONE. -/
def writeNoneRows : List (BitVec 38 × BitVec 38) :=
  [(0x3F000001F8#38, 0x1A00000028#38),
    (0x3F000001F0#38, 0x1A00000030#38),
    (0x3F000001C0#38, 0x1A00000040#38),
    (0x3F00000180#38, 0x1A00000080#38),
    (0x3F00000100#38, 0x1A00000100#38)]

/-- The rows of spec/opcode_table.json for an operation: mask and match. -/
def rows (i : Instr) : List (BitVec 38 × BitVec 38) :=
  match i with
  | .ldB _ _ => [(0x3F00000000#38, 0x0000000000#38)]
  | .ldH _ _ => [(0x3F00000000#38, 0x0100000000#38)]
  | .ldW _ _ => [(0x3F00000000#38, 0x0200000000#38)]
  | .ldD _ _ => [(0x3F00000000#38, 0x0300000000#38)]
  | .ldb4 _ => [(0x3F00000000#38, 0x0400000000#38)]
  | .ldb8 _ => [(0x3F00000000#38, 0x0500000000#38)]
  | .stB _ _ _ => [(0x3F00000000#38, 0x0800000000#38)]
  | .stH _ _ _ => [(0x3F00000000#38, 0x0900000000#38)]
  | .stW _ _ _ => [(0x3F00000000#38, 0x0A00000000#38)]
  | .stD _ _ _ => [(0x3F00000000#38, 0x0B00000000#38)]
  | .stb4 _ _ _ _ _ => [(0x3F00000000#38, 0x0C00000000#38)]
  | .stb8 _ _ _ _ _ _ _ _ _ => [(0x3F00000000#38, 0x0D00000000#38)]
  | .rrDeviceType _ _ => [(0x3F000003FC#38, 0x1200000000#38)]
  | .rrDeviceId _ _ => [(0x3F000003FC#38, 0x1200000004#38)]
  | .rrDelay _ _ _ => [(0x3F000001FC#38, 0x1200000008#38)]
  | .rrMode _ _ _ => [(0x3F000001FC#38, 0x120000000C#38)]
  | .rrRefInterval _ _ _ => [(0x3F000001FC#38, 0x1200000010#38)]
  | .rrRefRow _ _ _ => [(0x3F000001FC#38, 0x1200000014#38)]
  | .rrRasInterval _ _ _ => [(0x3F000001FC#38, 0x1200000018#38)]
  | .rrMinInterval _ _ _ => [(0x3F000001FC#38, 0x120000001C#38)]
  | .rrAddrSelect _ _ _ => [(0x3F000001FC#38, 0x1200000020#38)]
  | .rrDeviceManuf _ _ _ => [(0x3F000001FC#38, 0x1200000024#38)]
  | .rrRow0 _ _ => [(0x3F000003FC#38, 0x1200000200#38)]
  | .rrRow1 _ _ => [(0x3F000003FC#38, 0x1200000204#38)]
  | .rrNone _ _ _ _ => readNoneRows
  | .rwDeviceType _ _ _ => [(0x3F000003FC#38, 0x1A00000000#38)]
  | .rwDeviceId _ _ _ => [(0x3F000003FC#38, 0x1A00000004#38)]
  | .rwDelay _ _ _ _ => [(0x3F000001FC#38, 0x1A00000008#38)]
  | .rwMode _ _ _ _ => [(0x3F000001FC#38, 0x1A0000000C#38)]
  | .rwRefInterval _ _ _ _ => [(0x3F000001FC#38, 0x1A00000010#38)]
  | .rwRefRow _ _ _ _ => [(0x3F000001FC#38, 0x1A00000014#38)]
  | .rwRasInterval _ _ _ _ => [(0x3F000001FC#38, 0x1A00000018#38)]
  | .rwMinInterval _ _ _ _ => [(0x3F000001FC#38, 0x1A0000001C#38)]
  | .rwAddrSelect _ _ _ _ => [(0x3F000001FC#38, 0x1A00000020#38)]
  | .rwDeviceManuf _ _ _ _ => [(0x3F000001FC#38, 0x1A00000024#38)]
  | .rwRow0 _ _ _ => [(0x3F000003FC#38, 0x1A00000200#38)]
  | .rwRow1 _ _ _ => [(0x3F000003FC#38, 0x1A00000204#38)]
  | .rwNone _ _ _ _ _ => writeNoneRows
  | .rirMode => [(0x3F0000001C#38, 0x2200000000#38)]
  | .rirConfig => [(0x3F0000001C#38, 0x2200000004#38)]
  | .rirCurrentLoad => [(0x3F0000001C#38, 0x2200000008#38)]
  | .rirSelect => [(0x3F0000001C#38, 0x220000000C#38)]
  | .rirRefresh => [(0x3F0000001C#38, 0x2200000010#38)]
  | .rirLatency => [(0x3F0000001C#38, 0x2200000014#38)]
  | .rirError => [(0x3F0000001C#38, 0x2200000018#38)]
  | .rirBankStatus => [(0x3F0000001C#38, 0x220000001C#38)]
  | .riwMode _ => [(0x3F0000001C#38, 0x2A00000000#38)]
  | .riwConfig _ => [(0x3F0000001C#38, 0x2A00000004#38)]
  | .riwCurrentLoad _ => [(0x3F0000001C#38, 0x2A00000008#38)]
  | .riwSelect _ => [(0x3F0000001C#38, 0x2A0000000C#38)]
  | .riwRefresh _ => [(0x3F0000001C#38, 0x2A00000010#38)]
  | .riwLatency _ => [(0x3F0000001C#38, 0x2A00000014#38)]
  | .riwError _ => [(0x3F0000001C#38, 0x2A00000018#38)]
  | .riwBankStatus _ => [(0x3F0000001C#38, 0x2A0000001C#38)]
  | .reset _ => [(0x3FFFFFFFFE#38, 0x3800000000#38)]

/-- The encoding of a well-formed operation has the fixed bits of one of its rows. -/
def Statement (i : Instr) : Prop :=
  wellFormed i = true → ∃ r ∈ rows i, (encode i).cw &&& r.1 = r.2

/-- The fixed bits of a MEM row: port, direction and size. -/
theorem and_mem (p : BitVec 2) (d : Bool) (z : BitVec 3) (a : BitVec 32) :
    mkCw p d z a &&& 0x3F00000000#38 = mkCw p d z 0 := by
  apply BitVec.eq_of_getLsbD_eq
  intro i hi
  simp only [mkCw, BitVec.getLsbD_and, BitVec.getLsbD_append]
  interval_cases i <;> simp

/-- The fixed bits of an RDRAM row whose register the upper flag selects. -/
theorem and_reg_upper (p : BitVec 2) (d : Bool) (z : BitVec 3) (b : Bool) (id : DevId) (u : Bool)
    (x : RegIdx) :
    mkCw p d z (mkRegAddr specLayout b id u x) &&& 0x3F000003FC#38 = mkCw p d z (mkRegAddr specLayout false 0 u x) := by
  apply BitVec.eq_of_getLsbD_eq
  intro i hi
  simp only [mkCw, mkRegAddr_fields, BitVec.getLsbD_and, BitVec.getLsbD_append, BitVec.getLsbD_zero,
    BitVec.getLsbD_ofBool]
  interval_cases i <;> simp

/-- The fixed bits of an RDRAM row that fixes the index bits of k and not the upper flag. -/
theorem and_reg (p : BitVec 2) (d : Bool) (z : BitVec 3) (b : Bool) (id : DevId) (u : Bool) (x k : RegIdx) :
    mkCw p d z (mkRegAddr specLayout b id u x) &&& (0x3F00000000#38 ||| k.setWidth 38 <<< 2)
      = mkCw p d z (mkRegAddr specLayout false 0 false (x &&& k)) := by
  apply BitVec.eq_of_getLsbD_eq
  intro i hi
  simp only [mkCw, mkRegAddr_fields, BitVec.getLsbD_and, BitVec.getLsbD_or, BitVec.getLsbD_shiftLeft,
    BitVec.getLsbD_setWidth, BitVec.getLsbD_append, BitVec.getLsbD_zero, BitVec.getLsbD_ofBool]
  interval_cases i <;> simp

/-- The fixed bits of an RI row. -/
theorem and_ri (p : BitVec 2) (d : Bool) (z : BitVec 3) (x : BitVec 3) :
    mkCw p d z (mkRiAddr specLayout x) &&& 0x3F0000001C#38 = mkCw p d z (mkRiAddr specLayout x) := by
  apply BitVec.eq_of_getLsbD_eq
  intro i hi
  simp only [mkCw, mkRiAddr_fields, BitVec.getLsbD_and, BitVec.getLsbD_append, BitVec.getLsbD_zero]
  interval_cases i <;> simp

/-- The fixed index bits of the five rows of the reserved indices: mask and match. -/
def reservedMasks : List (RegIdx × RegIdx) :=
  [(0x7E#7, 0x0A#7), (0x7C#7, 0x0C#7), (0x70#7, 0x10#7), (0x60#7, 0x20#7), (0x40#7, 0x40#7)]

/-- A reserved index has the fixed index bits of one of the five rows. -/
theorem reserved_rows : ∀ x : RegIdx, reservedIdx x = true → ∃ r ∈ reservedMasks, x &&& r.1 = r.2 := by
  decide +kernel

theorem read_none_rows : ∀ r ∈ reservedMasks, (0x3F00000000#38 ||| r.1.setWidth 38 <<< 2,
    mkCw 1 false 2 (mkRegAddr specLayout false 0 false r.2)) ∈ readNoneRows := by
  intro r hr
  simp only [reservedMasks, List.mem_cons, List.not_mem_nil, or_false] at hr
  rcases hr with rfl | rfl | rfl | rfl | rfl <;> simp [readNoneRows, mkCw, mkRegAddr_fields]

theorem write_none_rows : ∀ r ∈ reservedMasks, (0x3F00000000#38 ||| r.1.setWidth 38 <<< 2,
    mkCw 1 true 2 (mkRegAddr specLayout false 0 false r.2)) ∈ writeNoneRows := by
  intro r hr
  simp only [reservedMasks, List.mem_cons, List.not_mem_nil, or_false] at hr
  rcases hr with rfl | rfl | rfl | rfl | rfl <;> simp [writeNoneRows, mkCw, mkRegAddr_fields]

theorem ldB (a : BitVec 32) (tag : Tag) : Statement (.ldB a tag) :=
  fun _ => ⟨_, List.mem_singleton.2 rfl, and_mem _ _ _ _⟩

theorem ldH (a : BitVec 32) (tag : Tag) : Statement (.ldH a tag) :=
  fun _ => ⟨_, List.mem_singleton.2 rfl, and_mem _ _ _ _⟩

theorem ldW (a : BitVec 32) (tag : Tag) : Statement (.ldW a tag) :=
  fun _ => ⟨_, List.mem_singleton.2 rfl, and_mem _ _ _ _⟩

theorem ldD (a : BitVec 32) (tag : Tag) : Statement (.ldD a tag) :=
  fun _ => ⟨_, List.mem_singleton.2 rfl, and_mem _ _ _ _⟩

theorem ldb4 (a : BitVec 32) : Statement (.ldb4 a) :=
  fun _ => ⟨_, List.mem_singleton.2 rfl, and_mem _ _ _ _⟩

theorem ldb8 (a : BitVec 32) : Statement (.ldb8 a) :=
  fun _ => ⟨_, List.mem_singleton.2 rfl, and_mem _ _ _ _⟩

theorem stB (a : BitVec 32) (v : BitVec 8) (tag : Tag) : Statement (.stB a v tag) :=
  fun _ => ⟨_, List.mem_singleton.2 rfl, and_mem _ _ _ _⟩

theorem stH (a : BitVec 32) (v : BitVec 16) (tag : Tag) : Statement (.stH a v tag) :=
  fun _ => ⟨_, List.mem_singleton.2 rfl, and_mem _ _ _ _⟩

theorem stW (a : BitVec 32) (v : BitVec 32) (tag : Tag) : Statement (.stW a v tag) :=
  fun _ => ⟨_, List.mem_singleton.2 rfl, and_mem _ _ _ _⟩

theorem stD (a : BitVec 32) (v : BitVec 64) (tag : Tag) : Statement (.stD a v tag) :=
  fun _ => ⟨_, List.mem_singleton.2 rfl, and_mem _ _ _ _⟩

theorem stb4 (a : BitVec 32) (w0 w1 w2 w3 : Word) : Statement (.stb4 a w0 w1 w2 w3) :=
  fun _ => ⟨_, List.mem_singleton.2 rfl, and_mem _ _ _ _⟩

theorem stb8 (a : BitVec 32) (w0 w1 w2 w3 w4 w5 w6 w7 : Word) : Statement (.stb8 a w0 w1 w2 w3 w4 w5 w6 w7) :=
  fun _ => ⟨_, List.mem_singleton.2 rfl, and_mem _ _ _ _⟩

theorem rrDeviceType (id : DevId) (gate : Bool) : Statement (.rrDeviceType id gate) :=
  fun _ => ⟨_, List.mem_singleton.2 rfl, and_reg_upper _ _ _ _ _ _ _⟩

theorem rrDeviceId (id : DevId) (gate : Bool) : Statement (.rrDeviceId id gate) :=
  fun _ => ⟨_, List.mem_singleton.2 rfl, and_reg_upper _ _ _ _ _ _ _⟩

theorem rrDelay (id : DevId) (upper : Bool) (gate : Bool) : Statement (.rrDelay id upper gate) :=
  fun _ => ⟨_, List.mem_singleton.2 rfl, and_reg _ _ _ _ _ _ _ 0x7F#7⟩

theorem rrMode (id : DevId) (upper : Bool) (gate : Bool) : Statement (.rrMode id upper gate) :=
  fun _ => ⟨_, List.mem_singleton.2 rfl, and_reg _ _ _ _ _ _ _ 0x7F#7⟩

theorem rrRefInterval (id : DevId) (upper : Bool) (gate : Bool) : Statement (.rrRefInterval id upper gate) :=
  fun _ => ⟨_, List.mem_singleton.2 rfl, and_reg _ _ _ _ _ _ _ 0x7F#7⟩

theorem rrRefRow (id : DevId) (upper : Bool) (gate : Bool) : Statement (.rrRefRow id upper gate) :=
  fun _ => ⟨_, List.mem_singleton.2 rfl, and_reg _ _ _ _ _ _ _ 0x7F#7⟩

theorem rrRasInterval (id : DevId) (upper : Bool) (gate : Bool) : Statement (.rrRasInterval id upper gate) :=
  fun _ => ⟨_, List.mem_singleton.2 rfl, and_reg _ _ _ _ _ _ _ 0x7F#7⟩

theorem rrMinInterval (id : DevId) (upper : Bool) (gate : Bool) : Statement (.rrMinInterval id upper gate) :=
  fun _ => ⟨_, List.mem_singleton.2 rfl, and_reg _ _ _ _ _ _ _ 0x7F#7⟩

theorem rrAddrSelect (id : DevId) (upper : Bool) (gate : Bool) : Statement (.rrAddrSelect id upper gate) :=
  fun _ => ⟨_, List.mem_singleton.2 rfl, and_reg _ _ _ _ _ _ _ 0x7F#7⟩

theorem rrDeviceManuf (id : DevId) (upper : Bool) (gate : Bool) : Statement (.rrDeviceManuf id upper gate) :=
  fun _ => ⟨_, List.mem_singleton.2 rfl, and_reg _ _ _ _ _ _ _ 0x7F#7⟩

theorem rrRow0 (id : DevId) (gate : Bool) : Statement (.rrRow0 id gate) :=
  fun _ => ⟨_, List.mem_singleton.2 rfl, and_reg_upper _ _ _ _ _ _ _⟩

theorem rrRow1 (id : DevId) (gate : Bool) : Statement (.rrRow1 id gate) :=
  fun _ => ⟨_, List.mem_singleton.2 rfl, and_reg_upper _ _ _ _ _ _ _⟩

theorem rrNone (id : DevId) (upper : Bool) (idx : RegIdx) (gate : Bool) : Statement (.rrNone id upper idx gate) := by
  intro h
  obtain ⟨r, hr, hx⟩ := reserved_rows idx h
  refine ⟨_, read_none_rows r hr, ?_⟩
  rw [← hx]
  exact and_reg 1 false 2 false id upper idx r.1

theorem rwDeviceType (bc : Bool) (id : DevId) (w : Word) : Statement (.rwDeviceType bc id w) :=
  fun _ => ⟨_, List.mem_singleton.2 rfl, and_reg_upper _ _ _ _ _ _ _⟩

theorem rwDeviceId (bc : Bool) (id : DevId) (w : Word) : Statement (.rwDeviceId bc id w) :=
  fun _ => ⟨_, List.mem_singleton.2 rfl, and_reg_upper _ _ _ _ _ _ _⟩

theorem rwDelay (bc : Bool) (id : DevId) (upper : Bool) (w : Word) : Statement (.rwDelay bc id upper w) :=
  fun _ => ⟨_, List.mem_singleton.2 rfl, and_reg _ _ _ _ _ _ _ 0x7F#7⟩

theorem rwMode (bc : Bool) (id : DevId) (upper : Bool) (w : Word) : Statement (.rwMode bc id upper w) :=
  fun _ => ⟨_, List.mem_singleton.2 rfl, and_reg _ _ _ _ _ _ _ 0x7F#7⟩

theorem rwRefInterval (bc : Bool) (id : DevId) (upper : Bool) (w : Word) : Statement (.rwRefInterval bc id upper w) :=
  fun _ => ⟨_, List.mem_singleton.2 rfl, and_reg _ _ _ _ _ _ _ 0x7F#7⟩

theorem rwRefRow (bc : Bool) (id : DevId) (upper : Bool) (w : Word) : Statement (.rwRefRow bc id upper w) :=
  fun _ => ⟨_, List.mem_singleton.2 rfl, and_reg _ _ _ _ _ _ _ 0x7F#7⟩

theorem rwRasInterval (bc : Bool) (id : DevId) (upper : Bool) (w : Word) : Statement (.rwRasInterval bc id upper w) :=
  fun _ => ⟨_, List.mem_singleton.2 rfl, and_reg _ _ _ _ _ _ _ 0x7F#7⟩

theorem rwMinInterval (bc : Bool) (id : DevId) (upper : Bool) (w : Word) : Statement (.rwMinInterval bc id upper w) :=
  fun _ => ⟨_, List.mem_singleton.2 rfl, and_reg _ _ _ _ _ _ _ 0x7F#7⟩

theorem rwAddrSelect (bc : Bool) (id : DevId) (upper : Bool) (w : Word) : Statement (.rwAddrSelect bc id upper w) :=
  fun _ => ⟨_, List.mem_singleton.2 rfl, and_reg _ _ _ _ _ _ _ 0x7F#7⟩

theorem rwDeviceManuf (bc : Bool) (id : DevId) (upper : Bool) (w : Word) : Statement (.rwDeviceManuf bc id upper w) :=
  fun _ => ⟨_, List.mem_singleton.2 rfl, and_reg _ _ _ _ _ _ _ 0x7F#7⟩

theorem rwRow0 (bc : Bool) (id : DevId) (w : Word) : Statement (.rwRow0 bc id w) :=
  fun _ => ⟨_, List.mem_singleton.2 rfl, and_reg_upper _ _ _ _ _ _ _⟩

theorem rwRow1 (bc : Bool) (id : DevId) (w : Word) : Statement (.rwRow1 bc id w) :=
  fun _ => ⟨_, List.mem_singleton.2 rfl, and_reg_upper _ _ _ _ _ _ _⟩

theorem rwNone (bc : Bool) (id : DevId) (upper : Bool) (idx : RegIdx) (w : Word) : Statement (.rwNone bc id upper idx w) := by
  intro h
  obtain ⟨r, hr, hx⟩ := reserved_rows idx h
  refine ⟨_, write_none_rows r hr, ?_⟩
  rw [← hx]
  exact and_reg 1 true 2 bc id upper idx r.1

theorem rirMode : Statement .rirMode :=
  fun _ => ⟨_, List.mem_singleton.2 rfl, and_ri _ _ _ _⟩

theorem rirConfig : Statement .rirConfig :=
  fun _ => ⟨_, List.mem_singleton.2 rfl, and_ri _ _ _ _⟩

theorem rirCurrentLoad : Statement .rirCurrentLoad :=
  fun _ => ⟨_, List.mem_singleton.2 rfl, and_ri _ _ _ _⟩

theorem rirSelect : Statement .rirSelect :=
  fun _ => ⟨_, List.mem_singleton.2 rfl, and_ri _ _ _ _⟩

theorem rirRefresh : Statement .rirRefresh :=
  fun _ => ⟨_, List.mem_singleton.2 rfl, and_ri _ _ _ _⟩

theorem rirLatency : Statement .rirLatency :=
  fun _ => ⟨_, List.mem_singleton.2 rfl, and_ri _ _ _ _⟩

theorem rirError : Statement .rirError :=
  fun _ => ⟨_, List.mem_singleton.2 rfl, and_ri _ _ _ _⟩

theorem rirBankStatus : Statement .rirBankStatus :=
  fun _ => ⟨_, List.mem_singleton.2 rfl, and_ri _ _ _ _⟩

theorem riwMode (w : Word) : Statement (.riwMode w) :=
  fun _ => ⟨_, List.mem_singleton.2 rfl, and_ri _ _ _ _⟩

theorem riwConfig (w : Word) : Statement (.riwConfig w) :=
  fun _ => ⟨_, List.mem_singleton.2 rfl, and_ri _ _ _ _⟩

theorem riwCurrentLoad (w : Word) : Statement (.riwCurrentLoad w) :=
  fun _ => ⟨_, List.mem_singleton.2 rfl, and_ri _ _ _ _⟩

theorem riwSelect (w : Word) : Statement (.riwSelect w) :=
  fun _ => ⟨_, List.mem_singleton.2 rfl, and_ri _ _ _ _⟩

theorem riwRefresh (w : Word) : Statement (.riwRefresh w) :=
  fun _ => ⟨_, List.mem_singleton.2 rfl, and_ri _ _ _ _⟩

theorem riwLatency (w : Word) : Statement (.riwLatency w) :=
  fun _ => ⟨_, List.mem_singleton.2 rfl, and_ri _ _ _ _⟩

theorem riwError (w : Word) : Statement (.riwError w) :=
  fun _ => ⟨_, List.mem_singleton.2 rfl, and_ri _ _ _ _⟩

theorem riwBankStatus (w : Word) : Statement (.riwBankStatus w) :=
  fun _ => ⟨_, List.mem_singleton.2 rfl, and_ri _ _ _ _⟩

theorem reset (exp : Bool) : Statement (.reset exp) :=
  fun _ => ⟨_, List.mem_singleton.2 rfl, by cases exp <;> decide +kernel⟩

end Sys2Proof.Laws.EncodeInRow
end

