-- ==== Sys2Proof/Laws/Registers.lean ====
section
/-! SUPPORT. The Registry register port: what a read and a write do in each case
(41_module_registers.md R150, R151, 42_registry_dispatch.md R201, R202). -/

namespace Sys2Proof.Machine

/-! ### Reads -/

/-- A read of a responder that the gate does not turn away. -/
theorem modRead_open {c : Config} {m : Slot} {upper : Bool} {idx : RegIdx} {gate : Bool} {s : State}
    (h : gate = true ∨ alwaysOn (sel upper idx) = true) :
    modRead c m upper idx gate s = (s, readReg c (sel upper idx) (s.modAt m)) := by
  rw [modRead, if_neg]
  rintro ⟨h1, h2⟩
  rcases h with h | h
  · rw [h] at h1; exact absurd h1 (by simp)
  · rw [h] at h2; exact absurd h2 (by simp)

/-- A read of a responder that the gate turns away (60_exceptions.md R282). -/
theorem modRead_gated {c : Config} {m : Slot} {upper : Bool} {idx : RegIdx} {s : State}
    (h : alwaysOn (sel upper idx) = false) :
    modRead c m upper idx false s = (recordGateClosed m (subAddr upper idx) s, 0) := by
  rw [modRead, if_pos ⟨rfl, h⟩]

/-- `RegRead` of an ID with a responder. -/
theorem regRead_of_responder {c : Config} {id : DevId} {upper : Bool} {idx : RegIdx} {gate : Bool}
    {s : State} {r : Slot} (h : s.responder id = some r) :
    regRead c id upper idx gate s =
      ((modRead c r upper idx gate s).1.emit (.hookReg .read (.id id) (subAddr upper idx)
        (modRead c r upper idx gate s).2)).returns (.word (modRead c r upper idx gate s).2) := by
  simp only [regRead, h]

/-- `RegRead` of an ID without a responder (42_registry_dispatch.md R204). -/
theorem regRead_of_none {c : Config} {id : DevId} {upper : Bool} {idx : RegIdx} {gate : Bool}
    {s : State} (h : s.responder id = none) :
    regRead c id upper idx gate s =
      ((recordNoResponder .registerRead id s).emit (.hookReg .read (.id id) (subAddr upper idx) 0)).returns
        (.word 0) := by
  simp only [regRead, h]

/-- A register read changes the status block, the trace and the result alone. -/
theorem regRead_frame (c : Config) (id : DevId) (upper : Bool) (idx : RegIdx) (gate : Bool) (s : State) :
    let t := regRead c id upper idx gate s
    t.expansion = s.expansion ∧ t.mods = s.mods ∧ t.live = s.live ∧ t.resp = s.resp ∧ t.ri = s.ri ∧
    t.pending = s.pending ∧
    t.status = { s.status with ackErr := s.status.ackErr || (s.responder id).isNone } := by
  cases h : s.responder id with
  | none => rw [regRead_of_none h]; simp
  | some r =>
    rw [regRead_of_responder h]
    by_cases hg : gate = true ∨ alwaysOn (sel upper idx) = true
    · rw [modRead_open hg]; simp
    · have h1 : gate = false := by
        cases gate
        · rfl
        · exact absurd (.inl rfl) hg
      have h2 : alwaysOn (sel upper idx) = false := by
        cases ha : alwaysOn (sel upper idx)
        · rfl
        · exact absurd (.inr ha) hg
      rw [h1, modRead_gated h2, recordGateClosed_eq]; simp

/-! ### Writes -/

/-- The module after a write to any register but the identity. -/
def writeReg (c : Config) (r : ModReg) (w : Word) (M : MemModule) : MemModule :=
  match r with
  | .delay => storeDelay c.layout w M
  | .mode => storeMode c w M
  | .refRow => storeRefRow c w M
  | .rasInterval => storeRas c.layout w M
  | .addrSelect => storeSwap c.layout w M
  | .row0 => storeRow0 c.layout w M
  | .row1 => storeRow1 c.layout w M
  | .deviceType | .deviceId | .refInterval | .minInterval | .deviceManuf | .none => M

/-- A write to any register but the identity changes its one module. -/
theorem modWrite_of_plain {c : Config} {m : Slot} {upper : Bool} {idx : RegIdx} {w : Word} {s : State}
    (h : sel upper idx ≠ .deviceId) :
    modWrite c m upper idx w s = s.setMod m (writeReg c (sel upper idx) w (s.modAt m)) := by
  unfold modWrite writeReg
  cases hs : sel upper idx <;> first | rfl | exact (State.setMod_modAt s m).symm | exact absurd hs h

/-- A write to the identity register. -/
theorem modWrite_of_identity {c : Config} {m : Slot} {upper : Bool} {idx : RegIdx} {w : Word} {s : State}
    (h : sel upper idx = .deviceId) : modWrite c m upper idx w s = writeDeviceId c m w s := by
  simp only [modWrite, h]

/-- A write to any register but the identity keeps the identity and the shadow. -/
theorem writeReg_identity (c : Config) (r : ModReg) (w : Word) (M : MemModule) :
    (writeReg c r w M).deviceId = M.deviceId ∧ (writeReg c r w M).idField = M.idField ∧
    (writeReg c r w M).shadow = M.shadow := by
  cases r <;> exact ⟨rfl, rfl, rfl⟩

/-- A write to any register keeps the derived fields (10_state.md R48). -/
theorem writeReg_inv {c : Config} {M : MemModule} (h : ModuleInv c M) (r : ModReg) (w : Word) :
    ModuleInv c (writeReg c r w M) := by
  cases r <;> first | exact h | exact ⟨h.deviceId_eq, h.valid_eq⟩ | skip
  refine ⟨h.deviceId_eq, ?_⟩
  simp only [writeReg, storeMode, validFlag, Bool.and_assoc, Bool.decide_and]

/-- `RegWrite` to an ID with a responder. -/
theorem regWrite_of_responder {c : Config} {id : DevId} {upper : Bool} {idx : RegIdx} {w : Word}
    {s : State} {r : Slot} (h : s.responder id = some r) :
    regWrite c false id upper idx w s =
      ((modWrite c r upper idx w s).emit (.hookReg .write (.id id) (subAddr upper idx) w)).returns .nothing := by
  simp [regWrite, h]

/-- `RegWrite` to an ID without a responder (42_registry_dispatch.md R204). -/
theorem regWrite_of_none {c : Config} {id : DevId} {upper : Bool} {idx : RegIdx} {w : Word} {s : State}
    (h : s.responder id = none) :
    regWrite c false id upper idx w s =
      ((recordNoResponder .registerWrite id s).emit
        (.hookReg .write (.id id) (subAddr upper idx) w)).returns .nothing := by
  simp [regWrite, h]

/-- `RegWrite` of a broadcast address (42_registry_dispatch.md R205). -/
theorem regWrite_broadcast (c : Config) (id : DevId) (upper : Bool) (idx : RegIdx) (w : Word) (s : State) :
    regWrite c true id upper idx w s =
      (((activeSlots s.expansion).foldl (fun t m => modWrite c m upper idx w t) s).emit
        (.hookReg .write .broadcast (subAddr upper idx) w)).returns .nothing := by
  simp [regWrite]

/-- A module-by-module change of a list of distinct slots changes each of them once. -/
theorem foldl_setMod (f : MemModule → MemModule) (l : List Slot) (hl : l.Nodup) (s : State) :
    let t := l.foldl (fun u m => u.setMod m (f (u.modAt m))) s
    (∀ m, t.modAt m = if m ∈ l then f (s.modAt m) else s.modAt m) ∧ t = { s with mods := t.mods } := by
  induction l generalizing s with
  | nil => exact ⟨fun m => by simp, rfl⟩
  | cons x xs ih =>
    obtain ⟨hx, hxs⟩ := List.nodup_cons.1 hl
    obtain ⟨h1, h2⟩ := ih hxs (s.setMod x (f (s.modAt x)))
    refine ⟨?_, ?_⟩
    · intro m
      rw [List.foldl_cons, h1 m]
      by_cases hm : m = x
      · subst hm
        rw [if_neg hx, State.modAt_setMod_self, if_pos (by simp)]
      · rw [State.modAt_setMod_ne s _ hm]
        simp only [List.mem_cons, hm, false_or]
    · rw [List.foldl_cons, h2]
      rfl

theorem activeSlots_nodup (e : Bool) : (activeSlots e).Nodup := by cases e <;> decide

/-- A broadcast write to any register but the identity: every existing module, no other
(42_registry_dispatch.md R205). -/
theorem broadcast_plain {c : Config} {upper : Bool} {idx : RegIdx} {w : Word} {s : State}
    (h : sel upper idx ≠ .deviceId) :
    let t := (activeSlots s.expansion).foldl (fun u m => modWrite c m upper idx w u) s
    (∀ m, Active s m → t.modAt m = writeReg c (sel upper idx) w (s.modAt m)) ∧
    (∀ m, ¬ Active s m → t.modAt m = s.modAt m) ∧ t = { s with mods := t.mods } := by
  simp only [modWrite_of_plain h]
  obtain ⟨h1, h2⟩ := foldl_setMod (writeReg c (sel upper idx) w) (activeSlots s.expansion)
    (activeSlots_nodup _) s
  refine ⟨?_, ?_, h2⟩
  · intro m hm; rw [h1, if_pos ((mem_activeSlots _ _).2 hm)]
  · intro m hm; rw [h1, if_neg fun e => hm ((mem_activeSlots _ _).1 e)]

end Sys2Proof.Machine
end

