-- ==== Sys2Proof/Tests/Slice0.lean ====
section
/-! SUPPORT. The model's own tests. Expected values are those of 95_test_vectors.md, named in the comments,
with REFCFG where a parameter matters, or are worked by hand from the encodings of 30_encoding.md. The last
part holds a witness for every obligation with hypotheses. -/

namespace Sys2Proof.Tests

open Sys2Proof Sys2Proof.Machine

-- Many small kernel evaluations in a row: one after the other, not one thread each.
set_option Elab.async false

/-! ### WellFormed: an ill-formed operation for each check -/

/-! The first four and the two bursts are the refused accesses named after vector X-25. -/

theorem test_wf_address_beyond_space : wellFormed (.ldB 0x20000000#32 []) = false := by decide

theorem test_wf_half_misaligned : wellFormed (.ldH 0x101#32 []) = false := by decide

theorem test_wf_word_misaligned : wellFormed (.ldW 0x102#32 []) = false := by decide

theorem test_wf_dword_misaligned : wellFormed (.ldD 0x104#32 []) = false := by decide

theorem test_wf_burst4_misaligned : wellFormed (.ldb4 0x208#32) = false := by decide

theorem test_wf_burst8_misaligned : wellFormed (.ldb8 0x210#32) = false := by decide

theorem test_wf_store_byte_beyond : wellFormed (.stB 0xFFFFFFFF#32 0 []) = false := by decide

theorem test_wf_store_half_misaligned : wellFormed (.stH 0x101#32 0 []) = false := by decide

theorem test_wf_store_word_misaligned : wellFormed (.stW 0x103#32 0 []) = false := by decide

theorem test_wf_store_dword_misaligned : wellFormed (.stD 0x1FFFFFFC#32 0 []) = false := by decide

theorem test_wf_store_burst4_misaligned : wellFormed (.stb4 0x208#32 0 0 0 0) = false := by decide

theorem test_wf_store_burst8_misaligned : wellFormed (.stb8 0x210#32 0 0 0 0 0 0 0 0) = false := by decide

theorem test_wf_read_index_not_reserved : wellFormed (.rrNone 0 false 9 true) = false := by decide

theorem test_wf_write_index_not_reserved : wellFormed (.rwNone false 0 true 1 0) = false := by decide

theorem test_wf_highest_address : wellFormed (.ldB 0x1FFFFFFF#32 []) = true := by decide

theorem test_wf_first_reserved_index : wellFormed (.rrNone 7 false 10 true) = true := by decide

/-! ### Decode: a word written out for every constructor (E-1 to E-32, the others by hand from R92, R100,
R101 and R112) -/

/-- E-1. -/
theorem test_decode_ldB : decodeTableWord 40 0x0000000100 = some (.ldB 0x100#32 []) := by decide +kernel

/-- E-2. -/
theorem test_decode_ldH : decodeTableWord 40 0x0100000102 = some (.ldH 0x102#32 []) := by decide +kernel

/-- E-3. -/
theorem test_decode_ldW : decodeTableWord 40 0x0200200000 = some (.ldW 0x200000#32 []) := by decide +kernel

/-- E-4. -/
theorem test_decode_ldD : decodeTableWord 40 0x0300000100 = some (.ldD 0x100#32 []) := by decide +kernel

/-- E-9. -/
theorem test_decode_ldb4 : decodeTableWord 40 0x0400000200 = some (.ldb4 0x200#32) := by decide +kernel

/-- E-10. -/
theorem test_decode_ldb8 : decodeTableWord 40 0x0504000000 = some (.ldb8 0x4000000#32) := by decide +kernel

/-- E-5. -/
theorem test_decode_stB : decodeTableWord 40 0x0800000103 = some (.stB 0x103#32 0 []) := by decide +kernel

/-- E-6. -/
theorem test_decode_stH : decodeTableWord 40 0x0900100002 = some (.stH 0x100002#32 0 []) := by decide +kernel

/-- E-7. -/
theorem test_decode_stW : decodeTableWord 40 0x0A00012800 = some (.stW 0x12800#32 0 []) := by decide +kernel

/-- E-8. -/
theorem test_decode_stD : decodeTableWord 40 0x0B1FFFFFF8 = some (.stD 0x1FFFFFF8#32 0 []) := by decide +kernel

/-- E-11. -/
theorem test_decode_stb4 : decodeTableWord 40 0x0C00000200 = some (.stb4 0x200#32 0 0 0 0) := by decide +kernel

/-- E-12. -/
theorem test_decode_stb8 : decodeTableWord 40 0x0D00800000 = some (.stb8 0x800000#32 0 0 0 0 0 0 0 0) := by decide +kernel

/-- E-20. -/
theorem test_decode_rrDeviceType : decodeTableWord 40 0x12FFF00003 = some (.rrDeviceType 0 false) := by decide +kernel

/-- E-14. -/
theorem test_decode_rrDeviceId : decodeTableWord 40 0x1200000804 = some (.rrDeviceId 2 false) := by decide +kernel

/-- by hand. -/
theorem test_decode_rrDelay : decodeTableWord 40 0x1200001608 = some (.rrDelay 5 true false) := by decide +kernel

/-- E-17. -/
theorem test_decode_rrMode : decodeTableWord 40 0x120000020C = some (.rrMode 0 true false) := by decide +kernel

/-- by hand. -/
theorem test_decode_rrRefInterval : decodeTableWord 40 0x1200000410 = some (.rrRefInterval 1 false false) := by decide +kernel

/-- by hand. -/
theorem test_decode_rrRefRow : decodeTableWord 40 0x1200000614 = some (.rrRefRow 1 true false) := by decide +kernel

/-- by hand. -/
theorem test_decode_rrRasInterval : decodeTableWord 40 0x1200000018 = some (.rrRasInterval 0 false false) := by decide +kernel

/-- by hand. -/
theorem test_decode_rrMinInterval : decodeTableWord 40 0x120007FC1C = some (.rrMinInterval 511 false false) := by decide +kernel

/-- by hand. -/
theorem test_decode_rrAddrSelect : decodeTableWord 40 0x1200040020 = some (.rrAddrSelect 256 false false) := by decide +kernel

/-- by hand. -/
theorem test_decode_rrDeviceManuf : decodeTableWord 40 0x1200000224 = some (.rrDeviceManuf 0 true false) := by decide +kernel

/-- E-15. -/
theorem test_decode_rrRow0 : decodeTableWord 40 0x1200000200 = some (.rrRow0 0 false) := by decide +kernel

/-- E-16. -/
theorem test_decode_rrRow1 : decodeTableWord 40 0x1200000604 = some (.rrRow1 1 false) := by decide +kernel

/-- E-19. -/
theorem test_decode_rrNone : decodeTableWord 40 0x1200001DFC = some (.rrNone 7 false 127 false) := by decide +kernel

/-- by hand. -/
theorem test_decode_rwDeviceType : decodeTableWord 40 0x1A00080000 = some (.rwDeviceType true 0 0) := by decide +kernel

/-- E-23. -/
theorem test_decode_rwDeviceId : decodeTableWord 40 0x1A0007E804 = some (.rwDeviceId false 506 0) := by decide +kernel

/-- E-24. -/
theorem test_decode_rwDelay : decodeTableWord 40 0x1A000FFC08 = some (.rwDelay true 511 false 0) := by decide +kernel

/-- by hand. -/
theorem test_decode_rwMode : decodeTableWord 40 0x1A0008020C = some (.rwMode true 0 true 0) := by decide +kernel

/-- by hand. -/
theorem test_decode_rwRefInterval : decodeTableWord 40 0x1A00000010 = some (.rwRefInterval false 0 false 0) := by decide +kernel

/-- by hand. -/
theorem test_decode_rwRefRow : decodeTableWord 40 0x1A00000814 = some (.rwRefRow false 2 false 0) := by decide +kernel

/-- E-25. -/
theorem test_decode_rwRasInterval : decodeTableWord 40 0x1A00000018 = some (.rwRasInterval false 0 false 0) := by decide +kernel

/-- by hand. -/
theorem test_decode_rwMinInterval : decodeTableWord 40 0x1A0000021C = some (.rwMinInterval false 0 true 0) := by decide +kernel

/-- by hand. -/
theorem test_decode_rwAddrSelect : decodeTableWord 40 0x1A00001020 = some (.rwAddrSelect false 4 false 0) := by decide +kernel

/-- by hand. -/
theorem test_decode_rwDeviceManuf : decodeTableWord 40 0x1A00000024 = some (.rwDeviceManuf false 0 false 0) := by decide +kernel

/-- by hand. -/
theorem test_decode_rwRow0 : decodeTableWord 40 0x1A00000600 = some (.rwRow0 false 1 0) := by decide +kernel

/-- by hand. -/
theorem test_decode_rwRow1 : decodeTableWord 40 0x1A00080204 = some (.rwRow1 true 0 0) := by decide +kernel

/-- D-11. -/
theorem test_decode_rwNone : decodeTableWord 40 0x1A00001DFC = some (.rwNone false 7 false 127 0) := by decide +kernel

/-- by hand. -/
theorem test_decode_rirMode : decodeTableWord 40 0x2200000000 = some (.rirMode) := by decide +kernel

/-- by hand. -/
theorem test_decode_rirConfig : decodeTableWord 40 0x2200000004 = some (.rirConfig) := by decide +kernel

/-- by hand. -/
theorem test_decode_rirCurrentLoad : decodeTableWord 40 0x2200000008 = some (.rirCurrentLoad) := by decide +kernel

/-- by hand. -/
theorem test_decode_rirSelect : decodeTableWord 40 0x220000000C = some (.rirSelect) := by decide +kernel

/-- by hand. -/
theorem test_decode_rirRefresh : decodeTableWord 40 0x2200000010 = some (.rirRefresh) := by decide +kernel

/-- E-27. -/
theorem test_decode_rirLatency : decodeTableWord 40 0x2204700014 = some (.rirLatency) := by decide +kernel

/-- E-26. -/
theorem test_decode_rirError : decodeTableWord 40 0x2200000018 = some (.rirError) := by decide +kernel

/-- by hand. -/
theorem test_decode_rirBankStatus : decodeTableWord 40 0x220000001C = some (.rirBankStatus) := by decide +kernel

/-- by hand. -/
theorem test_decode_riwMode : decodeTableWord 40 0x2A00000000 = some (.riwMode 0) := by decide +kernel

/-- by hand. -/
theorem test_decode_riwConfig : decodeTableWord 40 0x2A00000024 = some (.riwConfig 0) := by decide +kernel

/-- E-30. -/
theorem test_decode_riwCurrentLoad : decodeTableWord 40 0x2A00000008 = some (.riwCurrentLoad 0) := by decide +kernel

/-- by hand. -/
theorem test_decode_riwSelect : decodeTableWord 40 0x2A0000000C = some (.riwSelect 0) := by decide +kernel

/-- by hand. -/
theorem test_decode_riwRefresh : decodeTableWord 40 0x2A00000010 = some (.riwRefresh 0) := by decide +kernel

/-- by hand. -/
theorem test_decode_riwLatency : decodeTableWord 40 0x2A00000014 = some (.riwLatency 0) := by decide +kernel

/-- P2. -/
theorem test_decode_riwError : decodeTableWord 40 0x2A00000018 = some (.riwError 0) := by decide +kernel

/-- E-29. -/
theorem test_decode_riwBankStatus : decodeTableWord 40 0x2A0000001C = some (.riwBankStatus 0) := by decide +kernel

/-- E-31. -/
theorem test_decode_reset : decodeTableWord 40 0x3800000001 = some (.reset true) := by decide +kernel

/-- E-33 to E-39: the words of no operation. -/
theorem test_decode_invalid :
    [0x0600000000, 0x0F00000000, 0x1000000000, 0x2300000000, 0x3000000000, 0x3800000002, 0x3900000000].map
      (decodeTableWord 40) = List.replicate 7 none := by decide +kernel

/-- The operand data reach the operation (R91): the first word of a burst is the low word. -/
theorem test_decode_burst_data :
    decode ⟨0x0C00000200#38, 0x44444444333333332222222211111111#256, [], false, false⟩
      = .ok (.stb4 0x200 0x11111111 0x22222222 0x33333333 0x44444444) := by rfl

/-- The gate reaches a register read, the data word a register write (R91, 00_scope.md R12). -/
theorem test_decode_gate_and_data :
    decode ⟨0x120000000C#38, 0, [], true, true⟩ = .ok (.rrMode 0 false true) ∧
    decode ⟨0x1A0000000C#38, 0x0240C0C0#256, [], false, false⟩ = .ok (.rwMode false 0 false 0x0240C0C0) := by
  exact ⟨by rfl, by rfl⟩

/-! ### Layouts (E-40 to E-51) -/

theorem test_idEncode : idEncode specLayout 6 = 0x18000000 ∧ idEncode specLayout 127 = 0xFC800000 ∧ idEncode specLayout 256 = 0x00000200 ∧
    idEncode specLayout 506 = 0xE8800300 ∧ idDecode specLayout 0xFFFFFFFF = 511 ∧ idDecode specLayout 0x037FFCFF = 0 := by decide +kernel

theorem test_ccEncode : ccEncode Config.ref 24 = 0x00C04040 ∧ ccEncode Config.ref 51 = 0x00400080 ∧
    ccScatter specLayout 8 = 0x00000080 ∧ ccDecode Config.ref 0 = 63 ∧ ccDecode Config.ref 0xFFFFFFFF = 0 := by
  decide +kernel

theorem test_modeWord : modeWord Config.ref true false true 12 = 0x8280C040 ∧
    modeWord Config.ref false true true 32 = 0x4240C0C0 := by decide +kernel

/-- Program P4 lines 2 to 8 and program P5 lines 5 and 12: the command words, the gate of each read. -/
theorem test_script :
    (scriptRequests true [.gate false, .rr (scriptReg specLayout 0 0xC), .op (setmode Config.ref 0 true false true 12),
      .gate true, .rr (scriptReg specLayout 0 0xC), .op (scriptStb4 0x200 1 2 3 4)]).map (fun r => (r.cw, r.gate))
      = [(0x120000000C, false), (0x1A0000000C, false), (0x120000000C, true), (0x0C00000200, false)] ∧
    setid specLayout 0 64 = scriptRw (scriptReg specLayout 0 4) 0x00800000 ∧
    (setid specLayout 4 2).cw = 0x1A00001004 ∧
    (setidBc specLayout 0).cw = 0x1A00080004 ∧ clrbank.cw = 0x2A0000001C ∧
    (scriptLd 3 0x200000 []).cw = 0x0300200000 ∧ (scriptSt 1 0x100002 0xBEEF []).cw = 0x0900100002 := by
  decide +kernel

/-! ### The operations, with REFCFG -/

/-- After `reset exp=1`. -/
def start : State := State.afterReset Config.ref true

/-- After `reset exp=1` and `setmode 0, 0,0,1,32`: module 0 at ID 0, valid. -/
def enabled : State := regWrite Config.ref false 0 false 3 0x0240C0C0 start

/-- What `rr` at a device ID and sub-register returns. -/
def rr (s : State) (id : DevId) (upper : Bool) (idx : RegIdx) (gate : Bool) : ReadData :=
  (regRead Config.ref id upper idx gate s).result

/-- The state after `rw` at a device ID and sub-register. -/
def rw (s : State) (id : DevId) (upper : Bool) (idx : RegIdx) (w : Word) : State :=
  regWrite Config.ref false id upper idx w s

/-- `setid id, new`. -/
def moved (s : State) (id new : DevId) : State := rw s id false 1 (idEncode specLayout new)

/-- The responders of some IDs. -/
def who (s : State) (l : List DevId) : List (Option Slot) := l.map s.responder

/-- The state an outcome holds. -/
def after (o : Host.Outcome State Fault Refusal) : Option State :=
  match o with
  | .next s => some s
  | _ => none

/-- M-1. -/
theorem test_rrDeviceType : rr start 0 false 0 true = .word 0xB4190010 ∧
    (regRead Config.ref 0 false 0 false start).trace
      = [.hookReg .read (.id 0) 0x00 0xB4190010] := by decide +kernel

/-- M-2. -/
theorem test_rrDeviceId : rr start 0 false 1 true = .word 0 ∧
    (regRead Config.ref 0 false 1 false start).trace
      = [.gateClosed 0 0x01, .hookReg .read (.id 0) 0x01 0] := by decide +kernel

/-- M-3. -/
theorem test_rrDelay : rr start 0 false 2 true = .word 0 ∧
    (regRead Config.ref 0 false 2 false start).trace
      = [.hookReg .read (.id 0) 0x02 0] := by decide +kernel

/-- M-4. -/
theorem test_rrMode : rr start 0 false 3 true = .word 0x00C0C0C0 ∧
    (regRead Config.ref 0 false 3 false start).trace
      = [.gateClosed 0 0x03, .hookReg .read (.id 0) 0x03 0] := by decide +kernel

/-- M-5. -/
theorem test_rrRefInterval : rr start 0 false 4 true = .word 0 ∧
    (regRead Config.ref 0 false 4 false start).trace
      = [.gateClosed 0 0x04, .hookReg .read (.id 0) 0x04 0] := by decide +kernel

/-- M-6. -/
theorem test_rrRefRow : rr start 0 false 5 true = .word 0 ∧
    (regRead Config.ref 0 false 5 false start).trace
      = [.gateClosed 0 0x05, .hookReg .read (.id 0) 0x05 0] := by decide +kernel

/-- M-7. -/
theorem test_rrRasInterval : rr start 0 false 6 true = .word 0 ∧
    (regRead Config.ref 0 false 6 false start).trace
      = [.hookReg .read (.id 0) 0x06 0] := by decide +kernel

/-- M-8. -/
theorem test_rrMinInterval : rr start 0 false 7 true = .word 0x0040C0E0 ∧
    (regRead Config.ref 0 false 7 false start).trace
      = [.gateClosed 0 0x07, .hookReg .read (.id 0) 0x07 0] := by decide +kernel

/-- M-9. -/
theorem test_rrAddrSelect : rr start 0 false 8 true = .word 0 ∧
    (regRead Config.ref 0 false 8 false start).trace
      = [.gateClosed 0 0x08, .hookReg .read (.id 0) 0x08 0] := by decide +kernel

/-- M-10. -/
theorem test_rrDeviceManuf : rr start 0 false 9 true = .word 0x00000500 ∧
    (regRead Config.ref 0 false 9 false start).trace
      = [.gateClosed 0 0x09, .hookReg .read (.id 0) 0x09 0] := by decide +kernel

/-- M-11. -/
theorem test_rrRow0 : rr start 0 true 0 true = .word 0 ∧
    (regRead Config.ref 0 true 0 false start).trace
      = [.gateClosed 0 0x80, .hookReg .read (.id 0) 0x80 0] := by decide +kernel

/-- M-12. -/
theorem test_rrRow1 : rr start 0 true 1 true = .word 0 ∧
    (regRead Config.ref 0 true 1 false start).trace
      = [.gateClosed 0 0x81, .hookReg .read (.id 0) 0x81 0] := by decide +kernel

/-- M-13. -/
theorem test_rrNone : rr start 0 true 127 true = .word 0 ∧
    (regRead Config.ref 0 true 127 false start).trace
      = [.gateClosed 0 0xFF, .hookReg .read (.id 0) 0xFF 0] := by decide +kernel

/-- M-14. -/
theorem test_rwDeviceType : rr (rw start 0 false 0 0xFFFFFFFF) 0 false 0 true = .word 0xB4190010 := by decide +kernel

/-- M-26. -/
theorem test_rwDelay : rr (rw start 0 false 2 0x18082838) 0 false 2 true = .word 0x18082838 := by decide +kernel

/-- M-16. -/
theorem test_rwMode : rr (rw start 0 false 3 0xFFFFFFFF) 0 false 3 true = .word 0xC2C0C0C0 := by decide +kernel

/-- M-17. -/
theorem test_rwRefInterval : rr (rw start 0 false 4 0xFFFFFFFF) 0 false 4 true = .word 0 := by decide +kernel

/-- M-18. -/
theorem test_rwRefRow : rr (rw start 0 false 5 0xFFFFFFFF) 0 false 5 true = .word 0xFFFFFFFF := by decide +kernel

/-- M-19. -/
theorem test_rwRasInterval : rr (rw start 0 false 6 0xFFFFFFFF) 0 false 6 true = .word 0x1F1F1F1F := by decide +kernel

/-- M-20. -/
theorem test_rwMinInterval : rr (rw start 0 false 7 0xFFFFFFFF) 0 false 7 true = .word 0x0040C0E0 := by decide +kernel

/-- M-21. -/
theorem test_rwAddrSelect : rr (rw start 0 false 8 0xFFFFFFFF) 0 false 8 true = .word 0x1FF := by decide +kernel

/-- M-22. -/
theorem test_rwDeviceManuf : rr (rw start 0 false 9 0xFFFFFFFF) 0 false 9 true = .word 0x500 := by decide +kernel

/-- M-23. -/
theorem test_rwRow0 : rr (rw start 0 true 0 0xFFFFFFFF) 0 true 0 true = .word 0x1FF := by decide +kernel

/-- M-24. -/
theorem test_rwRow1 : rr (rw start 0 true 1 0xFFFFFE00) 0 true 1 true = .word 0 := by decide +kernel

/-- M-25. -/
theorem test_rwNone : rr (rw start 0 false 10 0xFFFFFFFF) 0 false 10 true = .word 0 := by decide +kernel

/-- M-29: the inverted shadow of the swap field. -/
theorem test_rwAddrSelect_inverse : ((rw start 0 false 8 0x155).modAt 0).swapInv = 0x0AA := by decide +kernel

/-- M-30, M-33, M-36: auto-calibration at the bounds of the window and at the clamp. -/
theorem test_rwMode_auto : rr (rw start 0 false 3 0x82C0C040) 0 false 3 true = .word 0x82C040C0 ∧
    ((rw start 0 false 3 0x82C04040).modAt 0).valid = true ∧
    ((rw start 0 false 3 0x82C04000).modAt 0).valid = false ∧
    ((rw start 0 false 3 0x8240C0C0).modAt 0).cc = 63 := by decide +kernel

/-- A-2: the move hands ID 0 to module 1. -/
theorem test_rwDeviceId : who (moved start 0 2) [0, 1, 2, 3, 4] = [some 1, some 1, some 0, some 0, none] := by
  decide +kernel

/-- A-6: a module of lower priority stays unmapped at its new ID. -/
theorem test_rwDeviceId_yields :
    who (moved (moved start 0 2) 0 2) [0, 1, 2, 3] = [some 2, some 2, some 0, some 0] := by decide +kernel

/-- A-9: the image follows the module away and back. -/
theorem test_image_follows :
    let s := memWrite Config.ref 0x40 4 0x12345678 [] enabled
    (moved s 0 2).peek 0x200040 4 = some 0x12345678 ∧ (moved s 0 2).peek 0x40 4 = some 0 ∧
    (moved (moved s 0 2) 2 0).peek 0x40 4 = some 0x12345678 ∧
    (moved (moved s 0 2) 2 0).peek 0x200040 4 = some 0 := by decide +kernel

/-- A-8: a broadcast identity write. -/
theorem test_broadcast_identity :
    let t := regWrite Config.ref true 0 false 1 0x20000000 start
    who t [0, 1, 8, 9, 10] = [none, none, some 0, some 0, none] ∧ (t.modAt 3).deviceId = 8 := by decide +kernel

/-- D-1 and D-11: no responder. -/
theorem test_no_responder :
    (regRead Config.ref 5 false 3 false start).trace
      = [.noResponder .registerRead 5, .hookReg .read (.id 5) 0x03 0] ∧
    (rw start 7 false 127 1).status.ackErr = true := by decide +kernel

/-- X-6: big-endian reads of a double-word. -/
theorem test_memory_big_endian :
    let s := memWrite Config.ref 0x100 8 0x0102030405060708 [] enabled
    (memRead Config.ref 0x100 1 [] s).2 = 0x01 ∧ (memRead Config.ref 0x107 1 [] s).2 = 0x08 ∧
    (memRead Config.ref 0x102 2 [] s).2 = 0x0304 ∧ (memRead Config.ref 0x104 4 [] s).2 = 0x05060708 ∧
    packBankStatus specLayout s.status = 0x101 := by decide +kernel

/-- X-7: mixed widths. -/
theorem test_memory_mixed_widths :
    let s := memWrite Config.ref 0x106 2 0xBEEF [] (memWrite Config.ref 0x103 1 0x7F []
      (memWrite Config.ref 0x100 8 0x0102030405060708 [] enabled))
    (memRead Config.ref 0x100 8 [] s).2 = 0x0102037F0506BEEF := by decide +kernel

/-- X-1, X-3: an invalid responder, and none beyond the tracked banks. -/
theorem test_memory_discarded :
    (memWrite Config.ref 0x100 4 0xDEADBEEF [] start).live = [] ∧
    packError specLayout (memRead Config.ref 0x800000 4 [] start).1.status = 6 ∧
    (memRead Config.ref 0x800000 4 [] start).1.trace = [.noResponder .memoryRead 8] := by decide +kernel

/-- X-9: the latch that address bit 20 selects. -/
theorem test_memory_latch :
    ((memRead Config.ref 0x180000 1 [] (memWrite Config.ref 0x12800 4 0 [] enabled)).1.modAt 0).row0 = 0x025 ∧
    ((memRead Config.ref 0x180000 1 [] (memWrite Config.ref 0x12800 4 0 [] enabled)).1.modAt 0).row1 = 0x100 := by
  decide +kernel

/-- X-12: burst words stand at a + 4i. -/
theorem test_bursts :
    let s := burstWrite Config.ref 0x200 [0x11111111, 0x22222222, 0x33333333, 0x44444444] enabled
    (burstRead Config.ref 0x200 8 s).2 = [0x11111111, 0x22222222, 0x33333333, 0x44444444, 0, 0, 0, 0] ∧
    (memRead Config.ref 0x208 8 [] s).2 = 0x3333333344444444 := by decide +kernel

/-- X-16: one diagnostic for each word of a burst. -/
theorem test_burst_diagnostics : (burstRead Config.ref 0x300000 4 start).1.trace
    = List.replicate 4 (.noResponder .memoryRead 3) := by decide +kernel

/-- X-17: no bookkeeping and no event beyond the live buffer. -/
theorem test_burst_beyond_live : burstRead Config.ref 0x4000000 8 start = (start, [0, 0, 0, 0, 0, 0, 0, 0]) ∧
    burstWrite Config.ref 0x1FFFFFE0 [1, 2, 3, 4, 5, 6, 7, 8] start = start :=
  ⟨if_pos (by decide), if_pos (by decide)⟩

/-- X-24: the hook of a tagged write comes also when the data is discarded. -/
theorem test_hook_mem :
    (memWrite Config.ref 0x102 2 0xBEEF ['d', 'm', 'a'] start).trace
      = [.hookMem .write 0x102 2 (some 0xBEEF)] := by decide +kernel

/-- X-25: the last eight bytes of the window. -/
theorem test_last_bytes :
    let s := memWrite Config.ref 0x3FFFFF8 8 0x1122334455667788 [] (moved enabled 0 62)
    (memRead Config.ref 0x3FFFFF8 8 [] s).2 = 0x1122334455667788 ∧ s.status.overErr = true := by decide +kernel

/-- I-2. -/
theorem test_riMode : ((after (exec (.riwMode 0xFFFFFFFF) start)).bind fun s => (after (exec .rirMode s)).map (·.result))
    = some (.word 0xF) := by decide +kernel

/-- I-4. -/
theorem test_riConfig : ((after (exec (.riwConfig 0xFFFFFFFF) start)).bind fun s => (after (exec .rirConfig s)).map (·.result))
    = some (.word 0x7F) := by decide +kernel

/-- I-6. -/
theorem test_riCurrentLoad : ((after (exec (.riwCurrentLoad 0xFFFFFFFF) start)).bind fun s => (after (exec .rirCurrentLoad s)).map (·.result))
    = some (.word 0) := by decide +kernel

/-- I-8. -/
theorem test_riSelect : ((after (exec (.riwSelect 0x14) start)).bind fun s => (after (exec .rirSelect s)).map (·.result))
    = some (.word 0x14) := by decide +kernel

/-- I-10. -/
theorem test_riRefresh : ((after (exec (.riwRefresh 0x00163634) start)).bind fun s => (after (exec .rirRefresh s)).map (·.result))
    = some (.word 0x00163634) := by decide +kernel

/-- I-11. -/
theorem test_riLatency : ((after (exec (.riwLatency 0xFFFFFFFF) start)).bind fun s => (after (exec .rirLatency s)).map (·.result))
    = some (.word 0xF) := by decide +kernel

/-- Module 0 disabled, three status bits of each kind set. -/
def marked : State :=
  { start with status := ⟨0x08, 0x08, true, true, false⟩ }

/-- I-20, I-21: the error register before and after its clear. -/
theorem test_riError : (after (exec .rirError marked)).map (·.result) = some (.word 6) ∧
    (after (exec (.riwError 0xFFFFFFFF) marked)).map (·.status) = some ⟨0x08, 0x08, false, false, false⟩ := by
  decide +kernel

/-- I-20, I-22: the bank-status register before and after its clear. -/
theorem test_riBankStatus : (after (exec .rirBankStatus marked)).map (·.result) = some (.word 0x0808) ∧
    clearBanks Config.ref marked.status = ⟨0, 0, true, true, false⟩ := by decide +kernel

/-- Z-3: RESET leaves the A-1 state whatever was before. -/
theorem test_reset :
    let t := resetBlock Config.ref true (moved (memWrite Config.ref 0x100 4 0xAAAAAAAA [] enabled) 0 2)
    who t [0, 1, 2, 3] = [some 0, some 0, none, none] ∧ t.live = [] ∧ t.modAt 0 = factoryModule ∧
    t.status = ⟨0, 0, false, false, false⟩ ∧ t.trace = [] := by decide +kernel

/-- The memory of the reset state is canonical (notes/assumptions/22.md). -/
theorem test_reset_memory_wf : State.reset.live.wf := Memory.wf_nil

/-- The step takes the first transaction off the list: `rir 0x18` (E-26). -/
theorem test_step : (after (step (marked.withFetchWord 40 0x2200000018))).map (·.result) = some (.word 6) := by
  decide +kernel

/-- With nothing issued a step changes nothing (notes/assumptions/2.md). -/
theorem test_step_idle : step start = .next start := rfl

/-! ### Witnesses: for each obligation with hypotheses, values that meet them together -/

/-- `start` with every module valid. -/
def serving : State := { start with mods := Vector.replicate 4 { factoryModule with valid := true } }

/-- `start` with every status bit set. -/
def allSet : State := { start with status := ⟨0xFF, 0xFF, true, true, true⟩ }

/-- A state of the machine's own configuration: after reset, one byte of module 0's image set, a
device-identity write of ID 64 to come. -/
def running : State :=
  { State.afterReset Config.impl true with
    live := [(5, 7#8)], pending := [⟨0x1A00000004#38, 0x00800000#256, [], false, false⟩] }

theorem running_modAt (m : Slot) : running.modAt m = factoryModule := by
  simp [State.modAt, running, State.afterReset]

theorem running_resp (i : Fin 512) :
    running.resp[i] = if i.val < Config.impl.capMib then some 0 else none := getElem_initialResp _ _ _

theorem active_zero (s : State) : Active s 0 := by unfold Active nmod; split_ifs <;> decide

theorem running_responder : running.responder 0 = some 0 := by
  rw [State.responder_eq, running_resp, if_pos]; exact Config.impl.capMib_pos

theorem running_inv : Inv Config.impl running := by
  refine ⟨?_, ⟨?_, ?_⟩, ⟨by decide, ?_, ?_, ?_⟩, ?_⟩
  · intro m _
    rw [running_modAt]
    exact ⟨by simp [factoryModule], by simp [factoryModule]⟩
  · intro i m h
    rw [running_resp] at h
    split_ifs at h
    obtain rfl : 0 = m := by simpa using h
    refine ⟨active_zero _, fun j => ?_⟩
    rw [running_resp, running_modAt]
    simp [Claims, factoryModule]
  · intro k _
    simp only [running_modAt]
    exact ⟨0, running_responder, active_zero _, trivial, fun j _ _ => Fin.zero_le j⟩
  · intro x hx
    obtain rfl : x = (5, 7#8) := by simpa [running] using hx
    decide
  · intro m; rw [running_modAt]; exact Memory.wf_nil
  · intro m; rw [running_modAt]; simp [factoryModule]
  · intro i hi hn a h1 h2
    rw [running_resp] at hn
    have h0 : i.val ≠ 0 := by
      rintro e
      rw [if_pos (by rw [e]; exact Config.impl.capMib_pos)] at hn
      exact absurd hn (by simp)
    have ha : a ≠ 5 := by
      have := Nat.mul_le_mul_right idSlotBytes (Nat.one_le_iff_ne_zero.2 h0)
      simp only [idSlotBytes] at *
      omega
    show Memory.read [(5, 7#8)] a = 0#8
    rw [Memory.read_cons, if_neg ha]; rfl

theorem running_step : ∃ t, step running = .next t :=
  ⟨regWrite Config.impl false 0 false 1 0x00800000 { running with pending := [] }, rfl⟩

theorem witness_DecodeEncodeRoundTrip : wellFormed (.stD 0x1FFFFFF8#32 1 ['a']) = true ∧
    wellFormed (.rwNone true 511 true 10 0xFFFFFFFF) = true := by decide

theorem witness_UndecodedBitsDecideNothing :
    let q : BitVec 38 → Request := fun w => ⟨w, 1, [], true, false⟩
    let r : BitVec 38 → Request := fun w => ⟨w, 1, [], true, true⟩
    ((r 0x0B1FFFFFF8).cw = (q 0x0B1FFFFFF8).cw ∧ (r 0x3800000001).cw = (q 0x3800000001).cw) ∧
    (cwPort (r 0x1A0007E804).cw = 1#2 ∧ ∀ k < 38, 2 ≤ k → (k < 20 ∨ 32 ≤ k) →
      (r 0x1A0007E804).cw.getLsbD k = (q 0x1AFFF7E807).cw.getLsbD k) ∧
    (cwPort (r 0x1200000804).cw = 1#2 ∧ cwDir (r 0x1200000804).cw = false ∧
      ∀ k < 38, 2 ≤ k → (k < 19 ∨ 32 ≤ k) →
        (r 0x1200000804).cw.getLsbD k = (q 0x12FFF80807).cw.getLsbD k) ∧
    (cwPort (r 0x2200000014).cw = 2#2 ∧ ∀ k < 38, 2 ≤ k → (k < 5 ∨ 32 ≤ k) →
      (r 0x2200000014).cw.getLsbD k = (q 0x22FFFFFFF7).cw.getLsbD k) := by decide +kernel

theorem witness_TraceIsOutputOnly : ((∃ t, exec (.rrMode 0 false false) start = .next t) ∧
    (∃ u, exec (.rrMode 0 false false) { start with trace := [.gateClosed 0 3] } = .next u) ∧
    isReset (.rrMode 0 false false) = false) ∧
    (∃ t, exec (.reset true) start = .next t) ∧
    (∃ u, exec (.reset true) { start with trace := [.gateClosed 0 3] } = .next u) ∧
    isReset (.reset true) = true := ⟨⟨⟨_, rfl⟩, ⟨_, rfl⟩, rfl⟩, ⟨_, rfl⟩, ⟨_, rfl⟩, rfl⟩

theorem witness_StepRunsDecodedOperation : start.pending = [] ∧
    ((start.withFetchWord 40 0x2200000018).pending = [tableRequest 40 0x2200000018] ∧
      decode (tableRequest 40 0x2200000018) = .ok .rirError) ∧
    (start.withFetchWord 40 0x0600000000).pending = [tableRequest 40 0x0600000000] ∧
    decode (tableRequest 40 0x0600000000) = .error .memSize := ⟨rfl, ⟨rfl, rfl⟩, rfl, rfl⟩

theorem witness_OperationsLeavePendingAlone : (∃ t, exec .rirMode start = .next t) ∧
    (start.withFetchWord 40 0x2200000018).pending = [tableRequest 40 0x2200000018] ∧
    ∃ t, step (start.withFetchWord 40 0x2200000018) = .next t := ⟨⟨_, rfl⟩, rfl, ⟨_, rfl⟩⟩

theorem witness_SwapInverseIsNeverRead :
    let u := { start with mods := start.mods.set 0 { factoryModule with swapInv := 5 } }
    hideSwapInv start = hideSwapInv u ∧ start ≠ u :=
  ⟨congrArg (fun v => ({ start with mods := v } : State)) (by decide +kernel),
    fun h => absurd (congrArg (fun s => (s.modAt 0).swapInv) h) (by decide +kernel)⟩

theorem witness_EveryAdmittedOperationCompletes : wellFormed (.ldb8 0x1FFFFFE0#32) = true ∧
    wellFormed (.stB 0x1FFFFFFF#32 0 []) = true ∧ wellFormed (.reset false) = true := by decide

theorem witness_InadmissibleAccessesRefused :
    (accessSpan (.ldD 0x20000000#32 []) = some (0x20000000#32, 8) ∧ 2 ^ 29 ≤ (0x20000000#32).toNat ∧
      (0x20000000#32).toNat % 8 = 0) ∧
    (accessSpan (.ldD 0x1FFFFFFC#32 []) = some (0x1FFFFFFC#32, 8) ∧ (0x1FFFFFFC#32).toNat < 2 ^ 29 ∧
      (0x1FFFFFFC#32).toNat % 8 ≠ 0) ∧
    (accessSpan (.ldD 0x20000004#32 []) = some (0x20000004#32, 8) ∧ 2 ^ 29 ≤ (0x20000004#32).toNat ∧
      (0x20000004#32).toNat % 8 ≠ 0) := by decide

theorem witness_SingleLoadsReturnBigEndianData : (0x1FFFFFF8#32).toNat < 2 ^ 29 ∧
    (0x1FFFFFF8#32).toNat % 2 = 0 ∧ (0x1FFFFFF8#32).toNat % 4 = 0 ∧ (0x1FFFFFF8#32).toNat % 8 = 0 := by decide

theorem witness_SingleStoresWriteBigEndianData : running.live.wf ∧ (0x1FFFFFF8#32).toNat < 2 ^ 29 ∧
    (0x1FFFFFF8#32).toNat % 2 = 0 ∧ (0x1FFFFFF8#32).toNat % 4 = 0 ∧ (0x1FFFFFF8#32).toNat % 8 = 0 := by decide

theorem witness_BurstLoadsReturnWords : (0x03FFFFE0#32).toNat < liveBytes ∧ (0x03FFFFE0#32).toNat % 16 = 0 ∧
    (0x03FFFFE0#32).toNat % 32 = 0 := by decide

theorem witness_BurstStoresWriteWords : running.live.wf ∧ (0x03FFFFE0#32).toNat < liveBytes ∧
    (0x03FFFFE0#32).toNat % 16 = 0 ∧ (0x03FFFFE0#32).toNat % 32 = 0 := by decide

theorem witness_BurstsBeyondLiveShortCircuit :
    (liveBytes ≤ (0x04000000#32).toNat ∧ (0x04000000#32).toNat < 2 ^ 29 ∧ (0x04000000#32).toNat % 16 = 0 ∧
      (0x04000000#32).toNat % 32 = 0) ∧
    (liveBytes ≤ (0x1FFFFFE0#32).toNat ∧ (0x1FFFFFE0#32).toNat < 2 ^ 29 ∧ (0x1FFFFFE0#32).toNat % 16 = 0 ∧
      (0x1FFFFFE0#32).toNat % 32 = 0) := by decide

/-- At the last 32 bytes of the responder's range. -/
theorem witness_LoadReturnsStoredValue : serving.live.wf ∧
    (∀ n ∈ [1, 2, 4, 8, 16, 32], DataMoves serving (0x1FFFE0#32).toNat n) ∧
    (∃ t, exec (.stB 0x1FFFE0#32 1 []) serving = .next t) ∧
    (∃ t, exec (.stH 0x1FFFE0#32 1 []) serving = .next t) ∧
    (∃ t, exec (.stW 0x1FFFE0#32 1 []) serving = .next t) ∧
    (∃ t, exec (.stD 0x1FFFE0#32 1 []) serving = .next t) ∧
    (∃ t, exec (.stb4 0x1FFFE0#32 1 2 3 4) serving = .next t) ∧
    (∃ t, exec (.stb8 0x1FFFE0#32 1 2 3 4 5 6 7 8) serving = .next t) := by
  have h : ∀ n ∈ [1, 2, 4, 8, 16, 32], ∀ t, ∃ u, memOp 0x1FFFE0#32 n t = .next u := fun n hn t =>
    ⟨t, memOp_of_admitted (by decide) (by revert n; decide +kernel)⟩
  refine ⟨by decide, ?_, h 1 (by decide) _, h 2 (by decide) _, h 4 (by decide) _, h 8 (by decide) _,
    h 16 (by decide) _, h 32 (by decide) _⟩
  intro n hn
  refine ⟨0, by decide +kernel, by decide +kernel, ?_⟩
  have : n ≤ 32 := by revert n; decide
  simp only [BitVec.toNat_ofNat, liveBytes]
  omega

theorem witness_StatusBitsAreSticky : (∃ t, exec .rirMode allSet = .next t) ∧ isReset .rirMode = false ∧
    isErrorWrite .rirMode = false ∧ isBankWrite .rirMode = false ∧ allSet.status.ackErr = true ∧
    allSet.status.overErr = true ∧ allSet.status.nackErr = true ∧
    allSet.status.valid.getLsbD 7 = true ∧ allSet.status.dirty.getLsbD 0 = true :=
  ⟨⟨_, rfl⟩, rfl, rfl, rfl, rfl, rfl, rfl, by decide, by decide⟩

theorem witness_RiAccessesNeverSetStatus : isRiAccess (.riwError 1) = true ∧
    ∃ t, exec (.riwError 1) allSet = .next t := ⟨rfl, ⟨_, rfl⟩⟩

theorem witness_NackErrorIsNeverSet : (start.withFetchWord 40 0x2A00000018).status.nackErr = false ∧
    ∃ t, step (start.withFetchWord 40 0x2A00000018) = .next t := ⟨rfl, ⟨_, rfl⟩⟩

theorem witness_RegisterReadsWithoutResponder : start.responder 5 = none := by decide +kernel

theorem witness_ClosedGateReadsZero : start.responder 1 = some 0 ∧
    ∀ x ∈ [10#7, 127#7], 10 ≤ x.toNat := by decide +kernel

theorem witness_AlwaysOnReadsReturnFields : start.responder 1 = some 0 := by decide +kernel

theorem witness_OpenGateReadsReturnFields : start.responder 1 = some 0 ∧
    ∀ x ∈ [10#7, 127#7], 10 ≤ x.toNat := by decide +kernel

theorem witness_RegisterWritesWithoutResponder : start.responder 511 = none := by decide +kernel

theorem witness_RegisterWritesStoreFields : start.responder 1 = some 0 := by decide +kernel

/-- To a responder, and broadcast at an ID without one. -/
theorem witness_ReadOnlyWritesChangeNothing : (false = false → start.responder 1 ≠ none) ∧
    (true = false → start.responder 511 ≠ none) ∧ ∀ x ∈ [10#7, 127#7], 10 ≤ x.toNat := by decide +kernel

/-- Module 0, whose ID every other module claims too, moves away and answers at its new ID. -/
theorem running_written : ∃ t d, exec (.rwDeviceId false 0 0xFC800300) running = .next t ∧
    t.responder d = some 0 := by
  have h := writeDeviceId_spec 0xFC800300#32 running_inv (active_zero running)
  obtain ⟨r, hr, -, -, hmin⟩ := h.inv.responders.least 0 (active_zero _)
  obtain rfl : r = 0 := le_antisymm (hmin 0 (active_zero _) rfl) (Fin.zero_le r)
  exact ⟨_, _, congrArg Host.Outcome.next (regWrite_of_responder running_responder), hr⟩

theorem witness_WrittenFieldsReadBack : start.responder 1 = some 0 ∧
    (running.responder 0 = some 0 ∧ ∃ t d, exec (.rwDeviceId false 0 0xFC800300) running = .next t ∧
      t.responder d = some 0) ∧
    (∃ t, exec (.rwDelay false 1 true 0xFFFFFFFF) start = .next t) ∧
    (∃ t, exec (.rwRasInterval false 1 true 0xFFFFFFFF) start = .next t) ∧
    ((∃ t, exec (.rwMode false 1 true 0x7FFFFFFF) start = .next t) ∧
      (0x7FFFFFFF#32).getLsbD 31 = false) ∧
    (∃ t, exec (.rwRefRow false 1 true 0xFFFFFFFF) start = .next t) ∧
    (∃ t, exec (.rwAddrSelect false 1 true 0xFFFFFFFF) start = .next t) ∧
    (∃ t, exec (.rwRow0 false 1 0xFFFFFFFF) start = .next t) ∧
    (∃ t, exec (.rwRow1 false 1 0xFFFFFFFF) start = .next t) :=
  ⟨by decide +kernel, ⟨running_responder, running_written⟩, ⟨_, rfl⟩, ⟨_, rfl⟩, ⟨⟨_, rfl⟩, by decide⟩, ⟨_, rfl⟩, ⟨_, rfl⟩, ⟨_, rfl⟩, ⟨_, rfl⟩⟩

theorem witness_AutoCalibrationIsClampedTransform : start.responder 1 = some 0 ∧
    (0x8200C040#32).getLsbD 31 = true ∧ ∃ t, exec (.rwMode false 1 false 0x8200C040) start = .next t :=
  ⟨by decide +kernel, by decide, ⟨_, rfl⟩⟩

theorem witness_OnlyModeWriteAndResetChangeValidity : (∃ t, exec (.rwDelay true 0 false 1) start = .next t) ∧
    isModeWrite (.rwDelay true 0 false 1) = false ∧ isReset (.rwDelay true 0 false 1) = false :=
  ⟨⟨_, rfl⟩, rfl, rfl⟩

theorem witness_SameIdWriteStoresFieldOnly : start.responder 1 = some 0 ∧
    idDecode specLayout 0 &&& Config.impl.idMask = (start.modAt 0).deviceId := by
  refine ⟨by decide +kernel, ?_⟩
  have h1 : idDecode specLayout 0 = 0 := by decide
  have h2 : (start.modAt 0).deviceId = 0 := by decide
  rw [h1, h2]; exact BitVec.zero_and

theorem witness_IdWriteMovesModuleWithoutDataLoss :
    Inv Config.impl running ∧ running.responder 0 = some 0 := ⟨running_inv, running_responder⟩

theorem witness_BroadcastIdWriteLeavesModuleZero : Inv Config.impl running := running_inv

theorem witness_OnlyIdWriteAndResetRemap : (∃ t, exec (.rwMode true 0 false 1) start = .next t) ∧
    isIdWrite (.rwMode true 0 false 1) = false ∧ isReset (.rwMode true 0 false 1) = false :=
  ⟨⟨_, rfl⟩, rfl, rfl⟩

/-- A store to the byte that is set. -/
theorem witness_ImagesChangeOnlyByOwnStores : Inv Config.impl running ∧
    (∃ t, exec (.stB 5#32 9 []) running = .next t) ∧ isReset (.stB 5#32 9 []) = false ∧
    Active running 0 ∧ 5 < Config.impl.capBytes := by
  refine ⟨running_inv, ⟨_, memOp_of_admitted (a := 5#32) (n := 1) (by decide) (by decide)⟩, rfl,
    active_zero _, ?_⟩
  have := Config.impl.capMib_pos
  simp only [Config.capBytes, idSlotBytes]
  omega

/-- In the window, at its last slot, and outside it. -/
theorem witness_MapClaimsUnclaimedId : ∀ d ∈ [0#9, 62#9, 64#9, 510#9],
    let s := { start with resp := Vector.replicate 512 none }.setMod 1 { factoryModule with deviceId := d }
    s.responder (s.modAt 1).deviceId = none := by decide +kernel

theorem witness_MapYieldsToHigherPriority : start.responder (start.modAt 1).deviceId = some 0 ∧
    (0 : Slot) ≤ 1 := by decide +kernel

/-- Module 1 answers at ID 0, or at ID 64, which module 0 claims too. -/
theorem witness_MapEvictsLowerPriority : ∀ d ∈ [0#9, 64#9],
    let s := { start with
      resp := fillResp (Vector.replicate 512 none) d.toNat 2 (some 1)
      mods := Vector.replicate 4 { factoryModule with deviceId := d } }
    (0 : Slot).val < nmod s.expansion ∧ (1 : Slot).val < nmod s.expansion ∧
    s.responder (s.modAt 0).deviceId = some 1 ∧ (0 : Slot) < 1 ∧
    (s.modAt 1).deviceId = (s.modAt 0).deviceId ∧
    ∀ j : Slot, j.val < nmod s.expansion → j ≠ 0 → (s.modAt j).deviceId = (s.modAt 0).deviceId → 1 ≤ j := by
  decide +kernel

theorem witness_UnmapOfNonResponderIsNoOp : start.responder (start.modAt 1).deviceId ≠ some 1 := by
  decide +kernel

/-- At ID 0 and at ID 64, every other module at ID 2. -/
theorem witness_VacatedIdIsZeroFilled : ∀ d ∈ [0#9, 64#9],
    let s := { start with
      resp := fillResp (Vector.replicate 512 none) d.toNat 2 (some 0)
      mods := (Vector.replicate 4 { factoryModule with deviceId := 2 }).set 0
        { factoryModule with deviceId := d } }
    s.responder (s.modAt 0).deviceId = some 0 ∧
    ∀ j : Slot, j.val < nmod s.expansion → j ≠ 0 → (s.modAt j).deviceId ≠ (s.modAt 0).deviceId := by
  decide +kernel

theorem witness_UnmapThenMapRestores : Inv Config.impl running ∧ Active running 0 ∧
    running.responder (running.modAt 0).deviceId = some 0 :=
  ⟨running_inv, active_zero _, by rw [running_modAt]; exact running_responder⟩

theorem witness_ArbitrationDepthIsBounded : 2 ≤ 2 := le_refl _

/-- The identity written is ID 64, which every capacity leaves as it is. -/
theorem witness_EndToEndScenario : (∃ t, exec (.reset true) start = .next t) ∧
    idDecode specLayout 0x00800000 &&& Config.impl.idMask ≠ 0 := by
  refine ⟨⟨_, rfl⟩, fun h => ?_⟩
  have h1 : idDecode specLayout 0x00800000 = 64 := by decide
  have h2 := congrArg BitVec.toNat h
  rw [h1, Config.and_idMask_toNat] at h2
  have h3 := Config.impl.capMib_le
  have h4 : 0 < 64 / Config.impl.capMib := Nat.div_pos h3 Config.impl.capMib_pos
  have h5 := Nat.mul_pos h4 Config.impl.capMib_pos
  have h6 : (64 : BitVec 9).toNat = 64 := rfl
  rw [h6] at h2
  have h7 : (0 : BitVec 9).toNat = 0 := rfl
  omega

theorem witness_RiWrittenFieldsReadBack : (∃ t, exec (.riwMode 0xFFFFFFFF) start = .next t) ∧
    (∃ t, exec (.riwConfig 0xFFFFFFFF) start = .next t) ∧
    (∃ t, exec (.riwSelect 0xFFFFFFFF) start = .next t) ∧
    (∃ t, exec (.riwRefresh 0xFFFFFFFF) start = .next t) ∧
    (∃ t, exec (.riwLatency 0xFFFFFFFF) start = .next t) := ⟨⟨_, rfl⟩, ⟨_, rfl⟩, ⟨_, rfl⟩, ⟨_, rfl⟩, ⟨_, rfl⟩⟩

theorem witness_ExpansionSampledByResetOnly : (∃ t, exec (.rwDeviceId true 0 0) start = .next t) ∧
    isReset (.rwDeviceId true 0 0) = false ∧ ∃ t, exec (.reset false) start = .next t :=
  ⟨⟨_, rfl⟩, rfl, ⟨_, rfl⟩⟩

theorem witness_StepKeepsDerivedFields : ModulesInv Config.impl running ∧
    ∃ t, step running = .next t ∧ Active t 0 := by
  obtain ⟨t, ht⟩ := running_step
  exact ⟨running_inv.modules, t, ht, active_zero t⟩

theorem witness_StepKeepsResponderInvariant : ModulesInv Config.impl running ∧
    ResponderInv Config.impl running ∧ ∃ t, step running = .next t :=
  ⟨running_inv.modules, running_inv.responders, running_step⟩

theorem witness_StepKeepsUnmappedSlotsZero : Inv Config.impl running ∧ ∃ t, step running = .next t :=
  ⟨running_inv, running_step⟩

theorem witness_StepKeepsInvariants : Inv Config.impl running ∧ ∃ t, step running = .next t :=
  ⟨running_inv, running_step⟩


end Sys2Proof.Tests
end

/-! SUPPORT. What every operation keeps: the operations as calls of the shared operations of Ops.lean, the
relations `Undisturbed` and `Accessed` for all but register writes and RESET, and the induction over a step. -/

namespace Sys2Proof.Machine

/-! ### The operations as calls of the shared operations -/

/-- What operation i does to the state where it is admitted, as one call of a shared operation, with what the
call needs to know of i: the alignment of a store, the register a write selects, the writes that clear. -/
inductive Meaning (i : Instr) : (State → State) → Prop
  | load (a n : Nat) (tag : Tag) (shape : Nat → ReadData) :
      Meaning i fun s => returning (memRead Config.impl a n tag s) shape
  | burstLoad (a k : Nat) : Meaning i fun s => returning (burstRead Config.impl a k s) .words
  | store (a n v : Nat) (tag : Tag) (hn : n ∣ idSlotBytes) (ha : a % n = 0) :
      Meaning i fun s => (memWrite Config.impl a n v tag s).returns .nothing
  | burstStore (a : Nat) (ws : List Word) (ha : a % 4 = 0) :
      Meaning i fun s => (burstWrite Config.impl a ws s).returns .nothing
  | regRead (id : DevId) (upper : Bool) (idx : RegIdx) (gate : Bool) :
      Meaning i (regRead Config.impl id upper idx gate)
  | regWrite (bc : Bool) (id : DevId) (upper : Bool) (idx : RegIdx) (w : Word)
      (hid : wellFormed i = true → isIdWrite i = false → sel upper idx ≠ .deviceId)
      (hmode : wellFormed i = true → isModeWrite i = false → sel upper idx ≠ .mode) :
      Meaning i (regWrite Config.impl bc id upper idx w)
  | riRead (ridx : BitVec 3) (v : Ri → Status → Word) : Meaning i fun s => riRead ridx (v s.ri s.status) s
  | riStore (ridx : BitVec 3) (w : Word) (g : Ri → Ri) :
      Meaning i fun s => riWrite ridx w { s with ri := g s.ri }
  | errorClear (w : Word) (h : isErrorWrite i = true) :
      Meaning i fun s => riWrite 6 w { s with status := clearErrors s.status }
  | bankClear (w : Word) (h : isBankWrite i = true) :
      Meaning i fun s => riWrite 7 w { s with status := clearBanks Config.impl s.status }
  | reset (exp : Bool) (h : isReset i = true) : Meaning i (resetBlock Config.impl exp)

/-- Operation i is refused in every state, or it completes in every state with one meaning. -/
def HasMeaning (i : Instr) : Prop :=
  (∃ r, ∀ s, exec i s = .refused r) ∨ ∃ f, Meaning i f ∧ ∀ s, exec i s = .next (f s)

/-- A memory-port operation is admitted by its address alone (44_memory_access.md R250). -/
theorem hasMeaning_of_memOp {i : Instr} {a : BitVec 32} {n : Nat} {f : State → State}
    (he : ∀ s, exec i s = memOp a n (f s)) (hf : a.toNat % n = 0 → Meaning i f) : HasMeaning i := by
  cases ha : admission a n with
  | some r => exact .inl ⟨r, fun s => by rw [he, memOp, ha]⟩
  | none => exact .inr ⟨f, hf (admission_none.1 ha).2, fun s => by rw [he, memOp, ha]⟩

theorem hasMeaning_of_next {i : Instr} {f : State → State} (hf : Meaning i f)
    (he : ∀ s, exec i s = .next (f s)) : HasMeaning i := .inr ⟨f, hf, he⟩

/-- A reserved index selects no register (30_encoding.md R101). -/
theorem sel_of_reservedIdx : ∀ (upper : Bool) (idx : RegIdx), reservedIdx idx = true → sel upper idx = .none := by
  decide +kernel

/-- The register write of a well-formed operation that is neither an identity nor a mode write. -/
theorem hasMeaning_of_plainWrite {i : Instr} {bc : Bool} {id : DevId} {upper : Bool} {idx : RegIdx} {w : Word}
    (h : wellFormed i = true → sel upper idx ≠ .deviceId ∧ sel upper idx ≠ .mode)
    (he : ∀ s, exec i s = .next (regWrite Config.impl bc id upper idx w s)) : HasMeaning i :=
  hasMeaning_of_next (.regWrite bc id upper idx w (fun hw _ => (h hw).1) (fun hw _ => (h hw).2)) he

/-- Every operation is one call of a shared operation. -/
theorem exec_hasMeaning (i : Instr) : HasMeaning i := by
  cases i with
  | ldB a tag => exact hasMeaning_of_memOp (fun _ => rfl) fun _ => .load ..
  | ldH a tag => exact hasMeaning_of_memOp (fun _ => rfl) fun _ => .load ..
  | ldW a tag => exact hasMeaning_of_memOp (fun _ => rfl) fun _ => .load ..
  | ldD a tag => exact hasMeaning_of_memOp (fun _ => rfl) fun _ => .load ..
  | ldb4 a => exact hasMeaning_of_memOp (fun _ => rfl) fun _ => .burstLoad ..
  | ldb8 a => exact hasMeaning_of_memOp (fun _ => rfl) fun _ => .burstLoad ..
  | stB a v tag => exact hasMeaning_of_memOp (fun _ => rfl) (.store _ _ _ _ (by decide))
  | stH a v tag => exact hasMeaning_of_memOp (fun _ => rfl) (.store _ _ _ _ (by decide))
  | stW a v tag => exact hasMeaning_of_memOp (fun _ => rfl) (.store _ _ _ _ (by decide))
  | stD a v tag => exact hasMeaning_of_memOp (fun _ => rfl) (.store _ _ _ _ (by decide))
  | stb4 a w0 w1 w2 w3 =>
    exact hasMeaning_of_memOp (fun _ => rfl) fun h => .burstStore _ _ (by omega)
  | stb8 a w0 w1 w2 w3 w4 w5 w6 w7 =>
    exact hasMeaning_of_memOp (fun _ => rfl) fun h => .burstStore _ _ (by omega)
  | rrDeviceType id gate => exact hasMeaning_of_next (.regRead ..) fun _ => rfl
  | rrDeviceId id gate => exact hasMeaning_of_next (.regRead ..) fun _ => rfl
  | rrDelay id upper gate => exact hasMeaning_of_next (.regRead ..) fun _ => rfl
  | rrMode id upper gate => exact hasMeaning_of_next (.regRead ..) fun _ => rfl
  | rrRefInterval id upper gate => exact hasMeaning_of_next (.regRead ..) fun _ => rfl
  | rrRefRow id upper gate => exact hasMeaning_of_next (.regRead ..) fun _ => rfl
  | rrRasInterval id upper gate => exact hasMeaning_of_next (.regRead ..) fun _ => rfl
  | rrMinInterval id upper gate => exact hasMeaning_of_next (.regRead ..) fun _ => rfl
  | rrAddrSelect id upper gate => exact hasMeaning_of_next (.regRead ..) fun _ => rfl
  | rrDeviceManuf id upper gate => exact hasMeaning_of_next (.regRead ..) fun _ => rfl
  | rrRow0 id gate => exact hasMeaning_of_next (.regRead ..) fun _ => rfl
  | rrRow1 id gate => exact hasMeaning_of_next (.regRead ..) fun _ => rfl
  | rrNone id upper idx gate => exact hasMeaning_of_next (.regRead ..) fun _ => rfl
  | rwDeviceType bc id w => exact hasMeaning_of_plainWrite (fun _ => by simp [sel]) fun _ => rfl
  | rwDeviceId bc id w =>
    exact hasMeaning_of_next (.regWrite bc id false 1 w (fun _ h => nomatch h) fun _ _ => by simp [sel])
      fun _ => rfl
  | rwDelay bc id upper w => exact hasMeaning_of_plainWrite (fun _ => by simp [sel]) fun _ => rfl
  | rwMode bc id upper w =>
    exact hasMeaning_of_next (.regWrite bc id upper 3 w (fun _ _ => by simp [sel]) fun _ h => nomatch h)
      fun _ => rfl
  | rwRefInterval bc id upper w => exact hasMeaning_of_plainWrite (fun _ => by simp [sel]) fun _ => rfl
  | rwRefRow bc id upper w => exact hasMeaning_of_plainWrite (fun _ => by simp [sel]) fun _ => rfl
  | rwRasInterval bc id upper w => exact hasMeaning_of_plainWrite (fun _ => by simp [sel]) fun _ => rfl
  | rwMinInterval bc id upper w => exact hasMeaning_of_plainWrite (fun _ => by simp [sel]) fun _ => rfl
  | rwAddrSelect bc id upper w => exact hasMeaning_of_plainWrite (fun _ => by simp [sel]) fun _ => rfl
  | rwDeviceManuf bc id upper w => exact hasMeaning_of_plainWrite (fun _ => by simp [sel]) fun _ => rfl
  | rwRow0 bc id w => exact hasMeaning_of_plainWrite (fun _ => by simp [sel]) fun _ => rfl
  | rwRow1 bc id w => exact hasMeaning_of_plainWrite (fun _ => by simp [sel]) fun _ => rfl
  | rwNone bc id upper idx w =>
    exact hasMeaning_of_plainWrite (fun h => by simp [sel_of_reservedIdx upper idx h]) fun _ => rfl
  | rirMode => exact hasMeaning_of_next (.riRead 0 fun r _ => packRiMode _ r) fun _ => rfl
  | rirConfig => exact hasMeaning_of_next (.riRead 1 fun r _ => packRiConfig _ r) fun _ => rfl
  | rirCurrentLoad => exact hasMeaning_of_next (.riRead 2 fun _ _ => 0) fun _ => rfl
  | rirSelect => exact hasMeaning_of_next (.riRead 3 fun r _ => packRiSelect _ r) fun _ => rfl
  | rirRefresh => exact hasMeaning_of_next (.riRead 4 fun r _ => packRiRefresh _ r) fun _ => rfl
  | rirLatency => exact hasMeaning_of_next (.riRead 5 fun r _ => packRiLatency _ r) fun _ => rfl
  | rirError => exact hasMeaning_of_next (.riRead 6 fun _ st => packError _ st) fun _ => rfl
  | rirBankStatus => exact hasMeaning_of_next (.riRead 7 fun _ st => packBankStatus _ st) fun _ => rfl
  | riwMode w => exact hasMeaning_of_next (.riStore 0 w (storeRiMode _ w)) fun _ => rfl
  | riwConfig w => exact hasMeaning_of_next (.riStore 1 w (storeRiConfig _ w)) fun _ => rfl
  | riwCurrentLoad w => exact hasMeaning_of_next (.riStore 2 w id) fun _ => rfl
  | riwSelect w => exact hasMeaning_of_next (.riStore 3 w (storeRiSelect _ w)) fun _ => rfl
  | riwRefresh w => exact hasMeaning_of_next (.riStore 4 w (storeRiRefresh _ w)) fun _ => rfl
  | riwLatency w => exact hasMeaning_of_next (.riStore 5 w (storeRiLatency _ w)) fun _ => rfl
  | riwError w => exact hasMeaning_of_next (.errorClear w rfl) fun _ => rfl
  | riwBankStatus w => exact hasMeaning_of_next (.bankClear w rfl) fun _ => rfl
  | reset exp => exact hasMeaning_of_next (.reset exp rfl) fun _ => rfl

/-- An operation that completes does so by its meaning. -/
theorem meaning_of_exec {i : Instr} {s t : State} (h : exec i s = .next t) : ∃ f, Meaning i f ∧ t = f s := by
  obtain ⟨r, hr⟩ | ⟨f, hf, he⟩ := exec_hasMeaning i
  · rw [hr] at h
    exact nomatch h
  · rw [he] at h
    exact ⟨f, hf, (Host.Outcome.next.inj h).symm⟩

/-- A step that completes is idle, or it takes the first transaction off the list and performs it. -/
theorem step_next {s t : State} (h : step s = .next t) :
    (s.pending = [] ∧ t = s) ∨
      ∃ r rest i, s.pending = r :: rest ∧ decode r = .ok i ∧ exec i { s with pending := rest } = .next t := by
  unfold step at h
  split at h
  next hp => exact .inl ⟨hp, (Host.Outcome.next.inj h).symm⟩
  next r rest hp =>
    split at h
    next => exact nomatch h
    next i hi => exact .inr ⟨r, rest, i, hp, hi, h⟩

end Sys2Proof.Machine

/-! SUPPORT. Accesses and register reads: what none of them disturbs. -/

namespace Sys2Proof.Machine

/-! ### The status block grows (10_state.md R39) -/

/-- No status bit is cleared, and the third error bit is as before. -/
structure StatusGrows (st st' : Status) : Prop where
  ackErr : st.ackErr = true → st'.ackErr = true
  overErr : st.overErr = true → st'.overErr = true
  nackErr : st'.nackErr = st.nackErr
  valid : ∀ b, st.valid.getLsbD b = true → st'.valid.getLsbD b = true
  dirty : ∀ b, st.dirty.getLsbD b = true → st'.dirty.getLsbD b = true

theorem StatusGrows.refl (st : Status) : StatusGrows st st := ⟨id, id, rfl, fun _ => id, fun _ => id⟩

theorem StatusGrows.trans {a b c : Status} (h : StatusGrows a b) (g : StatusGrows b c) : StatusGrows a c :=
  ⟨g.ackErr ∘ h.ackErr, g.overErr ∘ h.overErr, g.nackErr.trans h.nackErr,
    fun k => g.valid k ∘ h.valid k, fun k => g.dirty k ∘ h.dirty k⟩

theorem markAckErr_grows (st : Status) : StatusGrows st (markAckErr st) :=
  ⟨fun _ => rfl, id, rfl, fun _ => id, fun _ => id⟩

theorem getLsbD_or_of_left {n : Nat} (x y : BitVec n) (b : Nat) (h : x.getLsbD b = true) :
    (x ||| y).getLsbD b = true := by
  rw [BitVec.getLsbD_or, h, Bool.true_or]

theorem markBank_grows (b : Nat) (dir : Dir) (st : Status) : StatusGrows st (markBank b dir st) := by
  unfold markBank
  split_ifs
  · cases dir with
    | read => exact ⟨id, id, rfl, getLsbD_or_of_left _ _, fun _ => id⟩
    | write => exact ⟨id, id, rfl, getLsbD_or_of_left _ _, getLsbD_or_of_left _ _⟩
  · exact ⟨id, fun _ => rfl, rfl, fun _ => id, fun _ => id⟩

/-! ### States that differ by accesses -/

/-- N is M but for the sensed-row latches (44_memory_access.md R254). -/
def Latched (M N : MemModule) : Prop := ∃ x y, N = { M with row0 := x, row1 := y }

theorem Latched.refl (M : MemModule) : Latched M M := ⟨M.row0, M.row1, rfl⟩

theorem Latched.trans {L M N : MemModule} (h : Latched L M) (g : Latched M N) : Latched L N := by
  obtain ⟨x, y, rfl⟩ := h
  obtain ⟨x', y', rfl⟩ := g
  exact ⟨x', y', rfl⟩

theorem latchRow_latched (c : Config) (a : Nat) (M : MemModule) : Latched M (latchRow c a M) := by
  unfold latchRow
  split_ifs
  · exact ⟨M.row0, rowVal c.layout a, rfl⟩
  · exact ⟨rowVal c.layout a, M.row1, rfl⟩

theorem Latched.inv {c : Config} {M N : MemModule} (h : Latched M N) (hM : ModuleInv c M) : ModuleInv c N := by
  obtain ⟨x, y, rfl⟩ := h
  exact ⟨hM.deviceId_eq, hM.valid_eq⟩

/-- What everything but a register write and RESET leaves of s in t: the table, the modules but for their
latches, a canonical live buffer, and each byte of it that is in no module's range. -/
structure Undisturbed (s t : State) : Prop where
  expansion : t.expansion = s.expansion
  resp : t.resp = s.resp
  modules : ∀ m, Latched (s.modAt m) (t.modAt m)
  live_wf : s.live.wf → t.live.wf
  live_size : (∀ x ∈ s.live, x.1 < liveBytes) → ∀ x ∈ t.live, x.1 < liveBytes
  live_unmapped : s.live.wf → ∀ x, s.responder (memId specLayout x) = none → t.live.read x = s.live.read x

/-- `Undisturbed`, the status block grown, and the host's list kept. -/
structure Accessed (s t : State) : Prop extends Undisturbed s t where
  status : StatusGrows s.status t.status
  pending : t.pending = s.pending

theorem Undisturbed.responder {s t : State} (h : Undisturbed s t) (d : DevId) :
    t.responder d = s.responder d := by simp only [State.responder, h.resp]

theorem Undisturbed.trans {s t u : State} (h : Undisturbed s t) (g : Undisturbed t u) : Undisturbed s u :=
  ⟨g.expansion.trans h.expansion, g.resp.trans h.resp, fun m => (h.modules m).trans (g.modules m),
    g.live_wf ∘ h.live_wf, g.live_size ∘ h.live_size, fun hw x hx =>
      (g.live_unmapped (h.live_wf hw) x ((h.responder _).trans hx)).trans (h.live_unmapped hw x hx)⟩

theorem Accessed.trans {s t u : State} (h : Accessed s t) (g : Accessed t u) : Accessed s u :=
  ⟨h.toUndisturbed.trans g.toUndisturbed, h.status.trans g.status, g.pending.trans h.pending⟩

/-- A change of the latches and of no byte. -/
theorem Undisturbed.of_live_eq {s t : State} (hx : t.expansion = s.expansion) (hr : t.resp = s.resp)
    (hm : ∀ m, Latched (s.modAt m) (t.modAt m)) (hl : t.live = s.live) : Undisturbed s t :=
  ⟨hx, hr, hm, by rw [hl]; exact id, by rw [hl]; exact id, fun _ _ _ => by rw [hl]⟩

/-- A change of no module and no byte. -/
theorem Undisturbed.of_mods_eq {s t : State} (hx : t.expansion = s.expansion) (hr : t.resp = s.resp)
    (hm : t.mods = s.mods) (hl : t.live = s.live) : Undisturbed s t :=
  .of_live_eq hx hr (fun m => by rw [show t.modAt m = s.modAt m by simp only [State.modAt, hm]]; exact .refl _) hl

theorem Accessed.refl (s : State) : Accessed s s := ⟨.of_mods_eq rfl rfl rfl rfl, .refl _, rfl⟩

theorem accessed_returns (s : State) (r : ReadData) : Accessed s (s.returns r) :=
  ⟨.of_mods_eq rfl rfl rfl rfl, .refl _, rfl⟩

theorem accessed_emit (s : State) (e : Event) : Accessed s (s.emit e) :=
  ⟨.of_mods_eq rfl rfl rfl rfl, .refl _, rfl⟩

theorem accessed_recordNoResponder (k : AccessKind) (d : DevId) (s : State) :
    Accessed s (recordNoResponder k d s) :=
  ⟨.of_mods_eq rfl rfl rfl rfl, markAckErr_grows _, rfl⟩

theorem accessed_hookMemIf (tag : Tag) (e : Event) (s : State) : Accessed s (hookMemIf tag e s) := by
  rw [hookMemIf_eq]
  exact ⟨.of_mods_eq rfl rfl rfl rfl, .refl _, rfl⟩

theorem accessed_riRead (ridx : BitVec 3) (v : Word) (s : State) : Accessed s (riRead ridx v s) :=
  (accessed_emit s _).trans (accessed_returns _ _)

theorem accessed_riWrite (ridx : BitVec 3) (w : Word) (s : State) : Accessed s (riWrite ridx w s) :=
  (accessed_emit s _).trans (accessed_returns _ _)

theorem accessed_regRead (c : Config) (d : DevId) (upper : Bool) (idx : RegIdx) (gate : Bool) (s : State) :
    Accessed s (regRead c d upper idx gate s) := by
  obtain ⟨hx, hm, hl, hr, -, hp, hst⟩ := regRead_frame c d upper idx gate s
  refine ⟨.of_mods_eq hx hr hm hl, ?_, hp⟩
  rw [hst]
  exact ⟨fun h => by rw [h, Bool.true_or], id, rfl, fun _ => id, fun _ => id⟩

/-! ### Memory accesses -/

/-- The bookkeeping (44_memory_access.md R251). -/
theorem accessed_book {c : Config} (hl : c.layout = specLayout) (a : Nat) (dir : Dir) (s : State) :
    Accessed s (book c a dir s) := by
  refine ⟨.of_live_eq (book_expansion ..) (book_resp ..) (fun m => ?_) (book_live ..), ?_, book_pending ..⟩
  · rw [book_modAt c hl]
    split_ifs
    · exact latchRow_latched _ _ _
    · exact .refl _
  · have h := markBank_grows (bank specLayout a) dir s.status
    rw [book_status c hl]
    exact ⟨fun e => by rw [e, Bool.true_or], h.overErr, h.nackErr, h.valid, h.dirty⟩

theorem accessed_memRead {c : Config} (hl : c.layout = specLayout) (a n : Nat) (tag : Tag) (s : State) :
    Accessed s (memRead c a n tag s).1 :=
  (accessed_book hl a .read s).trans (accessed_hookMemIf _ _ _)

/-- The bytes of an aligned access lie in one slot. -/
theorem memId_of_aligned {a n x : Nat} (hn : n ∣ idSlotBytes) (ha : a % n = 0) (h1 : a ≤ x) (h2 : x < a + n) :
    memId specLayout x = memId specLayout a := by
  have hq : x / 2 ^ 20 = a / 2 ^ 20 := by
    obtain ⟨k, hk⟩ := hn
    obtain ⟨j, rfl⟩ := Nat.dvd_of_mod_eq_zero ha
    have hpos : 0 < n := by omega
    have hx : x / n = j := Nat.div_eq_of_lt_le (by linarith) (by linarith)
    rw [show 2 ^ 20 = n * k from hk, ← Nat.div_div_eq_div_mul, ← Nat.div_div_eq_div_mul, hx,
      Nat.mul_div_cancel_left _ hpos]
  rw [memId_eq, memId_eq, hq]

/-- An aligned store to a slot with a responder. -/
theorem accessed_liveWrite {s : State} {a n : Nat} (v : Nat) (hn : n ∣ idSlotBytes) (ha : a % n = 0)
    (hr : s.responder (memId specLayout a) ≠ none) (hle : a + n ≤ liveBytes) :
    Accessed s { s with live := liveWrite s.live a n v } := by
  refine ⟨⟨rfl, rfl, fun m => .refl _, fun h => wf_liveWrite h a n v, fun h => bound_liveWrite h hle v, ?_⟩,
    .refl _, rfl⟩
  intro hw x hx
  rw [read_liveWrite hw, if_neg]
  rintro ⟨h1, h2⟩
  exact hr (memId_of_aligned hn ha h1 h2 ▸ hx)

theorem accessed_memWrite {c : Config} (hl : c.layout = specLayout) {a n : Nat} (v : Nat) (tag : Tag) (s : State)
    (hn : n ∣ idSlotBytes) (ha : a % n = 0) : Accessed s (memWrite c a n v tag s) := by
  have hb := accessed_book hl a .write s
  unfold memWrite
  by_cases ht : transfers c s a n = true
  · obtain ⟨r, hr, -, hle⟩ := (transfers_iff hl s a n).1 ht
    have hw := accessed_liveWrite (s := book c a .write s) v hn ha (by rw [book_responder, hr]; simp) hle
    simp only [if_pos ht]
    exact (hb.trans hw).trans (accessed_hookMemIf _ _ _)
  · simp only [if_neg ht]
    exact hb.trans (accessed_hookMemIf _ _ _)

theorem accessed_burstWords {c : Config} (hl : c.layout = specLayout) (k : Nat) :
    ∀ (a : Nat) (s : State), Accessed s (burstWords c a k s).1 := by
  induction k with
  | zero => exact fun _ s => .refl s
  | succ k ih => exact fun a s => (accessed_memRead hl a 4 [] s).trans (ih (a + 4) _)

theorem accessed_burstRead {c : Config} (hl : c.layout = specLayout) (a k : Nat) (s : State) :
    Accessed s (burstRead c a k s).1 := by
  unfold burstRead
  split_ifs
  · exact .refl s
  · exact accessed_burstWords hl k a s

theorem accessed_burstStores {c : Config} (hl : c.layout = specLayout) (ws : List Word) :
    ∀ (a : Nat) (s : State), a % 4 = 0 → Accessed s (burstStores c a ws s) := by
  induction ws with
  | nil => exact fun _ s _ => .refl s
  | cons w rest ih =>
    exact fun a s ha =>
      (accessed_memWrite hl w.toNat [] s (by decide) ha).trans (ih (a + 4) _ (by omega))

theorem accessed_burstWrite {c : Config} (hl : c.layout = specLayout) {a : Nat} (ws : List Word) (s : State)
    (ha : a % 4 = 0) : Accessed s (burstWrite c a ws s) := by
  unfold burstWrite
  split_ifs
  · exact .refl s
  · exact accessed_burstStores hl ws a s ha

/-! ### What the invariants keep -/

theorem Undisturbed.deviceId {s t : State} (h : Undisturbed s t) (m : Slot) :
    (t.modAt m).deviceId = (s.modAt m).deviceId := by
  obtain ⟨x, y, e⟩ := h.modules m
  rw [e]

theorem Undisturbed.shadow {s t : State} (h : Undisturbed s t) (m : Slot) :
    (t.modAt m).shadow = (s.modAt m).shadow := by
  obtain ⟨x, y, e⟩ := h.modules m
  rw [e]

theorem Undisturbed.modulesInv {c : Config} {s t : State} (h : Undisturbed s t) (hs : ModulesInv c s) :
    ModulesInv c t := hs.congr h.expansion fun m => (h.modules m).inv

theorem Undisturbed.responderInv {c : Config} {s t : State} (h : Undisturbed s t) (hs : ResponderInv c s) :
    ResponderInv c t := hs.congr h.expansion h.resp h.deviceId

/-- Slot i of the table is the slot of every address in it. -/
theorem memId_of_slot {i : Fin 512} {a : Nat} (h1 : i.val * idSlotBytes ≤ a) (h2 : a < (i.val + 1) * idSlotBytes) :
    memId specLayout a = BitVec.ofFin i := by
  have hq : a / 2 ^ 20 = i.val := by
    simp only [idSlotBytes] at h1 h2
    omega
  rw [memId_eq, hq]
  exact BitVec.eq_of_toNat_eq (Nat.mod_eq_of_lt i.isLt)

theorem Undisturbed.zeroSlots {s t : State} (h : Undisturbed s t) (hw : s.live.wf) (hs : ZeroSlots s) :
    ZeroSlots t := by
  intro i hi hn a h1 h2
  rw [h.resp] at hn
  rw [h.live_unmapped hw a (by rw [memId_of_slot h1 h2]; exact hn)]
  exact hs i hi hn a h1 h2

theorem Undisturbed.bufferInv {c : Config} {s t : State} (h : Undisturbed s t) (hs : BufferInv c s) :
    BufferInv c t :=
  ⟨h.live_wf hs.live_wf, h.live_size hs.live_size, fun m => by rw [h.shadow]; exact hs.shadow_wf m,
    fun m => by rw [h.shadow]; exact hs.shadow_size m⟩

theorem Undisturbed.inv {c : Config} {s t : State} (h : Undisturbed s t) (hs : Inv c s) : Inv c t :=
  ⟨h.modulesInv hs.modules, h.responderInv hs.responders, h.bufferInv hs.buffers,
    h.zeroSlots hs.buffers.live_wf hs.zeroSlots⟩

end Sys2Proof.Machine

/-! SUPPORT. Register writes, RESET, and the inductions over an operation and a step. -/

namespace Sys2Proof.Machine

/-! ### The device-identity write of any module, in any state -/

/-- A module's registers after a device-identity write of w (41_module_registers.md R161). -/
def renamed (c : Config) (w : Word) (M : MemModule) : MemModule :=
  { M with idField := idDecode c.layout w, deviceId := idDecode c.layout w &&& c.idMask }

theorem renamed_inv {c : Config} {M : MemModule} (h : ModuleInv c M) (w : Word) : ModuleInv c (renamed c w M) :=
  ⟨rfl, h.valid_eq⟩

theorem SameRegisters.inv {c : Config} {M N : MemModule} (h : SameRegisters M N) (hN : ModuleInv c N) :
    ModuleInv c M :=
  ⟨by rw [h.deviceId, h.idField, hN.deviceId_eq], by rw [h.valid, h.de, h.cc, hN.valid_eq]⟩

/-- The identity write renames its module and keeps every other register, whoever answers. -/
theorem writeDeviceId_registers (c : Config) (m : Slot) (w : Word) (s : State) (j : Slot) :
    SameRegisters ((writeDeviceId c m w s).modAt j)
      (if j = m then renamed c w (s.modAt m) else s.modAt j) := by
  simp only [writeDeviceId]
  split_ifs with hnew hj hj
  · subst hj
    rw [State.modAt_setMod_self, renamed, hnew]
    rfl
  · rw [State.modAt_setMod_ne _ _ hj]
    rfl
  · subst hj
    have hleft := (unmapModule_frame c j
      (s.setMod j { s.modAt j with idField := idDecode c.layout w })).2.2.2.2.2.2.1 j
    rw [State.modAt_setMod_self] at hleft
    simp only [moveModule]
    rw [(mapModule_frame c j _).2.2.2.2.2.2.2, State.modAt_setMod_self]
    exact congrArg (fun M : MemModule => { M with deviceId := idDecode c.layout w &&& c.idMask }) hleft
  · have hleft := (unmapModule_frame c m
      (s.setMod m { s.modAt m with idField := idDecode c.layout w })).2.2.2.2.2.2.1 j
    rw [State.modAt_setMod_ne _ _ hj] at hleft
    refine ((mapModule_frame c m _).2.2.2.2.2.2.1 j).trans ?_
    rw [State.modAt_setMod_ne _ _ hj]
    exact hleft

/-- The identity write keeps what is no part of the mapping. -/
theorem writeDeviceId_frame (c : Config) (m : Slot) (w : Word) (s : State) :
    (writeDeviceId c m w s).expansion = s.expansion ∧ (writeDeviceId c m w s).status = s.status ∧
    (writeDeviceId c m w s).pending = s.pending := by
  simp only [writeDeviceId]
  split_ifs
  · exact ⟨rfl, rfl, rfl⟩
  · simp only [moveModule]
    obtain ⟨hx, hst, -, -, -, hp, -⟩ := unmapModule_frame c m
      (s.setMod m { s.modAt m with idField := idDecode c.layout w })
    obtain ⟨hx', hst', -, -, -, hp', -⟩ := mapModule_frame c m ((unmapModule c m
      (s.setMod m { s.modAt m with idField := idDecode c.layout w })).setMod m
        { (unmapModule c m (s.setMod m { s.modAt m with idField := idDecode c.layout w })).modAt m with
          deviceId := idDecode c.layout w &&& c.idMask })
    exact ⟨hx'.trans hx, hst'.trans hst, hp'.trans hp⟩

theorem writeDeviceId_modulesInv {c : Config} {s : State} (m : Slot) (w : Word) (hM : ModulesInv c s) :
    ModulesInv c (writeDeviceId c m w s) := by
  refine hM.congr (writeDeviceId_frame c m w s).1 fun j hj => ?_
  have hreg := writeDeviceId_registers c m w s j
  split_ifs at hreg with h
  · subst h
    exact hreg.inv (renamed_inv hj w)
  · exact hreg.inv hj

/-! ### `ModWrite` (41_module_registers.md R151) -/

section ModWrite

variable {c : Config} {s : State} {m : Slot} {upper : Bool} {idx : RegIdx} {w : Word}

theorem modWrite_frame (c : Config) (m : Slot) (upper : Bool) (idx : RegIdx) (w : Word) (s : State) :
    (modWrite c m upper idx w s).expansion = s.expansion ∧ (modWrite c m upper idx w s).status = s.status ∧
    (modWrite c m upper idx w s).pending = s.pending := by
  by_cases h : sel upper idx = .deviceId
  · rw [modWrite_of_identity h]
    exact writeDeviceId_frame c m w s
  · rw [modWrite_of_plain h]
    exact ⟨rfl, rfl, rfl⟩

/-- A change of one module that keeps its identity keeps the identities. -/
theorem deviceId_setMod {M : MemModule} (h : M.deviceId = (s.modAt m).deviceId) (j : Slot) :
    ((s.setMod m M).modAt j).deviceId = (s.modAt j).deviceId := by
  rw [State.modAt_setMod]
  split_ifs with e
  · rw [h, e]
  · rfl

theorem shadow_setMod {M : MemModule} (h : M.shadow = (s.modAt m).shadow) (j : Slot) :
    ((s.setMod m M).modAt j).shadow = (s.modAt j).shadow := by
  rw [State.modAt_setMod]
  split_ifs with e
  · rw [h, e]
  · rfl

theorem setMod_modulesInv {M : MemModule} (hM : ModulesInv c s)
    (h : ModuleInv c (s.modAt m) → ModuleInv c M) : ModulesInv c (s.setMod m M) := by
  refine hM.congr rfl fun j hj => ?_
  rw [State.modAt_setMod]
  split_ifs with e
  · exact h (e ▸ hj)
  · exact hj

theorem modWrite_modulesInv (hM : ModulesInv c s) : ModulesInv c (modWrite c m upper idx w s) := by
  by_cases h : sel upper idx = .deviceId
  · rw [modWrite_of_identity h]
    exact writeDeviceId_modulesInv m w hM
  · rw [modWrite_of_plain h]
    exact setMod_modulesInv hM fun hm => writeReg_inv hm _ w

theorem modWrite_responderInv (hM : ModulesInv c s) (hR : ResponderInv c s) (hm : Active s m) :
    ResponderInv c (modWrite c m upper idx w s) := by
  by_cases h : sel upper idx = .deviceId
  · rw [modWrite_of_identity h]
    exact (writeDeviceId_responders w hM hR hm).2
  · rw [modWrite_of_plain h]
    exact hR.congr rfl rfl (deviceId_setMod (writeReg_identity c _ w _).1)

theorem modWrite_inv (hI : Inv c s) (hm : Active s m) : Inv c (modWrite c m upper idx w s) := by
  by_cases h : sel upper idx = .deviceId
  · rw [modWrite_of_identity h]
    exact (writeDeviceId_spec w hI hm).inv
  · have hM := modWrite_modulesInv (m := m) (upper := upper) (idx := idx) (w := w) hI.modules
    have hR := modWrite_responderInv (upper := upper) (idx := idx) (w := w) hI.modules hI.responders hm
    rw [modWrite_of_plain h] at hM hR ⊢
    exact ⟨hM, hR, hI.buffers.congr rfl (shadow_setMod (writeReg_identity c _ w _).2.2),
      hI.zeroSlots.congr rfl rfl⟩

/-! ### `RegWrite` (42_registry_dispatch.md R202, R205) -/

/-- The modules that a register write can reach: a responder, or in a broadcast an existing one. -/
def Reached (s : State) (m : Slot) : Prop := Active s m ∨ ∃ d, s.responder d = some m

theorem Reached.active (h : Reached s m) (hR : ResponderInv c s) : Active s m := by
  obtain h | ⟨d, hd⟩ := h
  · exact h
  · exact (hR.range d.toFin m (by rw [← State.responder_eq]; exact hd)).1

/-- What accesses keep and each single module write keeps, a register write keeps. -/
theorem regWrite_keeps {P : State → Prop} (hacc : ∀ s t, P s → Accessed s t → P t)
    (hmod : ∀ s m, P s → Reached s m → P (modWrite c m upper idx w s)) (bc : Bool) (id : DevId)
    (hs : P s) : P (regWrite c bc id upper idx w s) := by
  have hdone : ∀ t e r, P t → P ((t.emit e).returns r) := fun t e r ht =>
    hacc _ _ ht ((accessed_emit t e).trans (accessed_returns _ r))
  have hall : ∀ (l : List Slot) (t : State), P t → t.expansion = s.expansion → (∀ m ∈ l, Active s m) →
      P (l.foldl (fun u m => modWrite c m upper idx w u) t) := by
    intro l
    induction l with
    | nil => exact fun t ht _ _ => ht
    | cons x xs ih =>
      intro t ht hx hl
      have hact : Active t x := by
        unfold Active
        rw [hx]
        exact hl x List.mem_cons_self
      exact ih _ (hmod t x ht (.inl hact)) ((modWrite_frame c x upper idx w t).1.trans hx)
        fun m hm => hl m (List.mem_cons_of_mem x hm)
  cases bc with
  | true =>
    rw [regWrite_broadcast]
    exact hdone _ _ _ (hall _ s hs rfl fun m => (mem_activeSlots _ m).1)
  | false =>
    cases hr : s.responder id with
    | none =>
      rw [regWrite_of_none hr]
      exact hdone _ _ _ (hacc _ _ hs (accessed_recordNoResponder _ _ s))
    | some r =>
      rw [regWrite_of_responder hr]
      exact hdone _ _ _ (hmod s r hs (.inr ⟨id, hr⟩))

/-- A register write clears no status bit and keeps the host's list. -/
theorem regWrite_status (c : Config) (bc : Bool) (id : DevId) (upper : Bool) (idx : RegIdx) (w : Word)
    (s : State) : StatusGrows s.status (regWrite c bc id upper idx w s).status ∧
      (regWrite c bc id upper idx w s).pending = s.pending := by
  refine regWrite_keeps (P := fun t => StatusGrows s.status t.status ∧ t.pending = s.pending) ?_ ?_ bc id
    ⟨.refl _, rfl⟩
  · rintro t u ⟨hst, hp⟩ h
    exact ⟨hst.trans h.status, h.pending.trans hp⟩
  · rintro t m ht -
    obtain ⟨-, hst, hp⟩ := modWrite_frame c m upper idx w t
    rw [hst, hp]
    exact ht

end ModWrite

/-! ### RESET (70_reset_and_hazards.md R310, R311) -/

theorem modAt_factory {s : State} (h : s.mods = Vector.replicate 4 factoryModule) (m : Slot) :
    s.modAt m = factoryModule := by
  simp [State.modAt, h]

/-- The first map claims the low range for module 0 and moves no byte, all buffers being empty. -/
theorem claim_clearedState (c : Config) (exp : Bool) (s : State) :
    claim c 0 (clearedState c exp s)
      = { State.afterReset c exp with trace := s.trace, pending := s.pending } := by
  have hM : (clearedState c exp s).modAt 0 = factoryModule := modAt_factory rfl 0
  have hr : fillResp (Vector.replicate 512 none) 0 c.capMib (some 0) = initialResp c := by
    apply Vector.ext
    intro i hi
    rw [getElem_fillResp, getElem_initialResp, Vector.getElem_replicate]
    simp
  have hresp : (claim c 0 (clearedState c exp s)).resp = initialResp c := by
    rw [claim_resp, hM]
    exact hr
  have hlive : (claim c 0 (clearedState c exp s)).live = [] := by
    rw [claim_live, hM]
    split_ifs <;> rfl
  have e : claim c 0 (clearedState c exp s) = { clearedState c exp s with
      resp := (claim c 0 (clearedState c exp s)).resp, live := (claim c 0 (clearedState c exp s)).live } := rfl
  rw [e, hresp, hlive]
  rfl

/-- Once module 0 answers at ID 0, the other initial maps find it there and yield. -/
theorem mapModule_yields {c : Config} {s : State} {m : Slot} (hid : (s.modAt m).deviceId = 0)
    (hr : s.responder 0 = some 0) : mapModule c m s = s := by
  rw [mapModule_eq, hid, hr]
  exact if_neg (Fin.not_lt_zero m)

theorem foldl_mapModule_yields {c : Config} {s : State} (hid : ∀ m, (s.modAt m).deviceId = 0)
    (hr : s.responder 0 = some 0) (l : List Slot) : l.foldl (fun t m => mapModule c m t) s = s := by
  induction l with
  | nil => rfl
  | cons x xs ih => rw [List.foldl_cons, mapModule_yields (hid x) hr, ih]

theorem responder_zero_of_initial {c : Config} {s : State} (h : s.resp = initialResp c) :
    s.responder 0 = some 0 := by
  have h0 : (initialResp c)[0] = some 0 := by
    rw [getElem_initialResp, if_pos c.capMib_pos]
  simp only [State.responder, h]
  exact h0

/-- Module 0 comes first among the existing modules. -/
theorem activeSlots_eq_cons (e : Bool) : ∃ rest, activeSlots e = 0 :: rest := by
  cases e <;> exact ⟨_, rfl⟩

/-- RESET leaves every field at its reset value, the host's list apart (10_state.md R50). -/
theorem resetBlock_eq (c : Config) (exp : Bool) (s : State) :
    resetBlock c exp s = { State.afterReset c exp with pending := s.pending } := by
  obtain ⟨rest, hrest⟩ := activeSlots_eq_cons exp
  have hnone : (clearedState c exp s).responder ((clearedState c exp s).modAt 0).deviceId = none := by
    simp [State.responder, clearedState]
  have hmap : mapModule c 0 (clearedState c exp s)
      = { State.afterReset c exp with trace := s.trace, pending := s.pending } := by
    rw [mapModule_eq, hnone]
    exact claim_clearedState c exp s
  have hid : ∀ m, (State.modAt { State.afterReset c exp with trace := s.trace, pending := s.pending } m).deviceId
      = 0 := fun m => by rw [modAt_factory rfl]; rfl
  rw [resetBlock, hrest, List.foldl_cons, hmap, foldl_mapModule_yields hid (responder_zero_of_initial rfl)]
  rfl

theorem active_slot_zero (s : State) : Active s 0 := by
  unfold Active nmod
  split_ifs <;> decide

theorem factoryModule_inv (c : Config) : ModuleInv c factoryModule := ⟨by simp [factoryModule], by simp [factoryModule]⟩

/-- The invariants of a state with factory modules, an empty live buffer and the table of reset. -/
theorem inv_of_factory {c : Config} {s : State} (hm : s.mods = Vector.replicate 4 factoryModule)
    (hl : s.live = []) (hr : s.resp = initialResp c) : Inv c s := by
  have hmod : ∀ m, s.modAt m = factoryModule := modAt_factory hm
  have hget : ∀ i : Fin 512, s.resp[i] = if i.val < c.capMib then some 0 else none := fun i => by
    rw [hr]
    exact getElem_initialResp c i.val i.isLt
  refine ⟨fun m _ => ?_, ⟨?_, ?_⟩, ⟨?_, ?_, fun m => ?_, fun m => ?_⟩, ?_⟩
  · rw [hmod]
    exact factoryModule_inv c
  · intro i m hi
    rw [hget] at hi
    split_ifs at hi
    obtain rfl : 0 = m := Option.some.inj hi
    refine ⟨active_slot_zero s, fun j => ?_⟩
    rw [hget, hmod]
    simp [Claims, factoryModule]
  · intro k _
    simp only [hmod]
    exact ⟨0, responder_zero_of_initial hr, active_slot_zero s, trivial, fun j _ _ => Fin.zero_le j⟩
  · rw [hl]
    exact Memory.wf_nil
  · rw [hl]
    exact fun x hx => nomatch hx
  · rw [hmod]
    exact Memory.wf_nil
  · rw [hmod]
    exact fun x hx => nomatch hx
  · intro i _ _ a _ _
    rw [hl, Memory.read_nil]

theorem resetBlock_inv (c : Config) (exp : Bool) (s : State) : Inv c (resetBlock c exp s) := by
  rw [resetBlock_eq]
  exact inv_of_factory rfl rfl rfl

/-! ### The inductions -/

/-- An RI write, whatever it leaves in the register file and in the status block. -/
theorem undisturbed_riWrite (ridx : BitVec 3) (w : Word) (r : Ri) (st : Status) (s : State) :
    Undisturbed s (riWrite ridx w { s with ri := r, status := st }) := .of_mods_eq rfl rfl rfl rfl

/-- What an operation that completes may do to the state: an access, a register write, one of the two clears of
the RI, or RESET. The register that a well-formed operation writes is the one of its name. -/
inductive Change (i : Instr) (s : State) : State → Prop
  | accessed {t : State} (h : Accessed s t) : Change i s t
  | regWrite (bc : Bool) (id : DevId) (upper : Bool) (idx : RegIdx) (w : Word)
      (hid : wellFormed i = true → isIdWrite i = false → sel upper idx ≠ .deviceId)
      (hmode : wellFormed i = true → isModeWrite i = false → sel upper idx ≠ .mode) :
      Change i s (regWrite Config.impl bc id upper idx w s)
  | errorClear (w : Word) (h : isErrorWrite i = true) :
      Change i s (riWrite 6 w { s with status := clearErrors s.status })
  | bankClear (w : Word) (h : isBankWrite i = true) :
      Change i s (riWrite 7 w { s with status := clearBanks Config.impl s.status })
  | reset (exp : Bool) (h : isReset i = true) : Change i s (resetBlock Config.impl exp s)

theorem exec_change {i : Instr} {s t : State} (h : exec i s = .next t) : Change i s t := by
  obtain ⟨f, hf, rfl⟩ := meaning_of_exec h
  have hl := Config.impl_layout
  cases hf with
  | load a n tag shape => exact .accessed ((accessed_memRead hl a n tag s).trans (accessed_returns _ _))
  | burstLoad a k => exact .accessed ((accessed_burstRead hl a k s).trans (accessed_returns _ _))
  | store a n v tag hn ha => exact .accessed ((accessed_memWrite hl v tag s hn ha).trans (accessed_returns _ _))
  | burstStore a ws ha => exact .accessed ((accessed_burstWrite hl ws s ha).trans (accessed_returns _ _))
  | regRead id upper idx gate => exact .accessed (accessed_regRead _ _ _ _ _ s)
  | regWrite bc id upper idx w hid hmode => exact .regWrite bc id upper idx w hid hmode
  | riRead ridx v => exact .accessed (accessed_riRead _ _ s)
  | riStore ridx w g => exact .accessed ⟨undisturbed_riWrite .., .refl _, rfl⟩
  | errorClear w hi => exact .errorClear w hi
  | bankClear w hi => exact .bankClear w hi
  | reset exp hi => exact .reset exp hi

/-- No operation changes the host's list (10_state.md R21). -/
theorem exec_pending {i : Instr} {s t : State} (h : exec i s = .next t) : t.pending = s.pending := by
  cases exec_change h with
  | accessed ha => exact ha.pending
  | regWrite bc id upper idx w => exact (regWrite_status _ bc id upper idx w s).2
  | errorClear w => rfl
  | bankClear w => rfl
  | reset exp => rw [resetBlock_eq]

section Keeps

variable {P : State → Prop} (hundisturbed : ∀ s t, P s → Undisturbed s t → P t)
  (hmod : ∀ s m upper idx w, P s → Reached s m → P (modWrite Config.impl m upper idx w s))
  (hreset : ∀ exp s, P s → P (resetBlock Config.impl exp s))

include hundisturbed hmod hreset

/-- What everything undisturbed keeps, each module write keeps and RESET keeps, every operation keeps. -/
theorem exec_keeps {i : Instr} {s t : State} (hs : P s) (h : exec i s = .next t) : P t := by
  cases exec_change h with
  | accessed ha => exact hundisturbed s t hs ha.toUndisturbed
  | regWrite bc id upper idx w =>
    exact regWrite_keeps (fun s t hs ha => hundisturbed s t hs ha.toUndisturbed)
      (fun s m => hmod s m upper idx w) bc id hs
  | errorClear w => exact hundisturbed s _ hs (undisturbed_riWrite ..)
  | bankClear w => exact hundisturbed s _ hs (undisturbed_riWrite ..)
  | reset exp => exact hreset exp s hs

/-- The same over a step: taking a transaction off the host's list disturbs nothing. -/
theorem step_keeps {s t : State} (hs : P s) (h : step s = .next t) : P t := by
  obtain ⟨-, rfl⟩ | ⟨r, rest, i, -, -, he⟩ := step_next h
  · exact hs
  · have htaken : P { s with pending := rest } := hundisturbed _ _ hs (.of_mods_eq rfl rfl rfl rfl)
    exact exec_keeps hundisturbed hmod hreset htaken he

end Keeps

theorem step_modulesInv {s t : State} (hs : ModulesInv Config.impl s) (h : step s = .next t) :
    ModulesInv Config.impl t :=
  step_keeps (fun _ _ hs hu => hu.modulesInv hs) (fun _ _ _ _ _ hs _ => modWrite_modulesInv hs)
    (fun exp s _ => (resetBlock_inv Config.impl exp s).modules) hs h

theorem step_responderInv {s t : State} (hM : ModulesInv Config.impl s) (hR : ResponderInv Config.impl s)
    (h : step s = .next t) : ModulesInv Config.impl t ∧ ResponderInv Config.impl t := by
  refine step_keeps (P := fun s => ModulesInv Config.impl s ∧ ResponderInv Config.impl s) ?_ ?_ ?_ ⟨hM, hR⟩ h
  · rintro s t ⟨hM, hR⟩ hu
    exact ⟨hu.modulesInv hM, hu.responderInv hR⟩
  · rintro s m upper idx w ⟨hM, hR⟩ hr
    exact ⟨modWrite_modulesInv hM, modWrite_responderInv hM hR (hr.active hR)⟩
  · intro exp s _
    have hI := resetBlock_inv Config.impl exp s
    exact ⟨hI.modules, hI.responders⟩

theorem step_inv {s t : State} (hs : Inv Config.impl s) (h : step s = .next t) : Inv Config.impl t :=
  step_keeps (fun _ _ hs hu => hu.inv hs) (fun _ _ _ _ _ hs hr => modWrite_inv hs (hr.active hs.responders))
    (fun exp s _ => resetBlock_inv Config.impl exp s) hs h

end Sys2Proof.Machine

/-! PROOFS. The invariants and the status bits (10_state.md). -/

namespace Sys2Proof.Machine

/-! ### The invariants -/

/-- Settles O53: between the two halves of an identity write the responder invariant holds of all modules but
the moving one (`writeDeviceId_responders`); nothing else but RESET touches the table or an identity. -/
theorem stepKeepsResponderInvariant : Obligations.StepKeepsResponderInvariant := by
  intro s t hM hR h
  exact (step_responderInv hM hR h).2

/-- Settles O55: each of the invariants is kept by every access, by every register write to an existing module,
and by RESET. -/
theorem stepKeepsInvariants : Obligations.StepKeepsInvariants := by
  intro s t hI h
  exact step_inv hI h

/-- Settles O52: a masked identity is a multiple of CAP_MIB, which divides both the number of IDs and the
window. -/
theorem stepKeepsDerivedFields : Obligations.StepKeepsDerivedFields := by
  intro s t hM h m hm
  have hMt := step_modulesInv hM h
  have hinv := hMt m hm
  have hmod := hMt.aligned m hm
  refine ⟨hinv.deviceId_eq, hmod, room_of_mod hmod Config.impl.capMib_dvd (t.modAt m).deviceId.isLt,
    room_of_mod hmod Config.impl.capMib_dvd_window, hinv.valid_eq, ?_⟩
  have := (t.modAt m).cc.isLt
  omega

/-- Settles O51. -/
theorem powerOnStateSatisfiesInvariants : Obligations.PowerOnStateSatisfiesInvariants :=
  inv_of_factory rfl rfl rfl

theorem reset_modAt (m : Slot) : State.reset.modAt m = factoryModule := modAt_factory rfl m

/-- Settles O49, by the table and the modules of power-on. -/
theorem powerOnStateIsFactoryState : Obligations.PowerOnStateIsFactoryState := by
  refine ⟨fun i => getElem_initialResp Config.impl i.val i.isLt, fun m => ?_, fun _ => rfl, rfl, rfl, rfl, rfl,
    rfl, rfl⟩
  rw [reset_modAt]
  exact ⟨rfl, rfl, rfl, fun _ => rfl⟩

/-! ### The status bits -/

/-- Settles O17: of the ways to lose a status bit, the error clear keeps the bank bits and the bank clear keeps
the error bits. -/
theorem statusBitsAreSticky : Obligations.StatusBitsAreSticky := by
  intro i s t h hreset
  cases exec_change h with
  | accessed ha =>
    have hg := ha.status
    exact ⟨fun _ => ⟨hg.ackErr, hg.overErr, hg.nackErr.trans⟩, fun _ b => ⟨hg.valid b, hg.dirty b⟩⟩
  | regWrite bc id upper idx w =>
    have hg := (regWrite_status Config.impl bc id upper idx w s).1
    exact ⟨fun _ => ⟨hg.ackErr, hg.overErr, hg.nackErr.trans⟩, fun _ b => ⟨hg.valid b, hg.dirty b⟩⟩
  | errorClear w hi => exact ⟨fun hn => absurd (hi.symm.trans hn) (by decide), fun _ _ => ⟨id, id⟩⟩
  | bankClear w hi => exact ⟨fun _ => ⟨id, id, id⟩, fun hn => absurd (hi.symm.trans hn) (by decide)⟩
  | reset exp hi => exact absurd (hi.symm.trans hreset) (by decide)

/-- No operation sets the third error bit (10_state.md R39). -/
theorem exec_nackErr {i : Instr} {s t : State} (hs : s.status.nackErr = false) (h : exec i s = .next t) :
    t.status.nackErr = false := by
  cases exec_change h with
  | accessed ha => exact ha.status.nackErr.trans hs
  | regWrite bc id upper idx w => exact (regWrite_status _ bc id upper idx w s).1.nackErr.trans hs
  | errorClear w => rfl
  | bankClear w => exact hs
  | reset exp =>
    rw [resetBlock_eq]
    rfl

/-- Settles O19. -/
theorem nackErrorIsNeverSet : Obligations.NackErrorIsNeverSet := by
  intro s t hs h
  obtain ⟨-, rfl⟩ | ⟨r, rest, i, -, -, he⟩ := step_next h
  · exact hs
  · have htaken : ({ s with pending := rest } : State).status.nackErr = false := hs
    exact exec_nackErr htaken he

/-! ### The mode bits and the mapping -/

/-- Two modules agree in what the mode register holds, the derived validity included (10_state.md R25, R28). -/
def SameMode (M N : MemModule) : Prop :=
  M.valid = N.valid ∧ M.de = N.de ∧ M.cc = N.cc ∧ M.ce = N.ce ∧ M.x2 = N.x2

/-- Two modules agree in their identity and their shadow (10_state.md R23, R24, R36). -/
def SameIdentity (M N : MemModule) : Prop :=
  M.deviceId = N.deviceId ∧ M.idField = N.idField ∧ M.shadow = N.shadow

theorem SameRegisters.sameMode {M N : MemModule} (h : SameRegisters M N) : SameMode M N :=
  ⟨h.valid, h.de, h.cc, h.ce, h.x2⟩

theorem Latched.sameMode {M N : MemModule} (h : Latched M N) : SameMode N M := by
  obtain ⟨x, y, rfl⟩ := h
  exact ⟨rfl, rfl, rfl, rfl, rfl⟩

theorem Latched.sameIdentity {M N : MemModule} (h : Latched M N) : SameIdentity N M := by
  obtain ⟨x, y, rfl⟩ := h
  exact ⟨rfl, rfl, rfl⟩

theorem SameMode.trans {L M N : MemModule} (h : SameMode L M) (g : SameMode M N) : SameMode L N := by
  obtain ⟨h1, h2, h3, h4, h5⟩ := h
  obtain ⟨g1, g2, g3, g4, g5⟩ := g
  exact ⟨h1.trans g1, h2.trans g2, h3.trans g3, h4.trans g4, h5.trans g5⟩

theorem SameIdentity.trans {L M N : MemModule} (h : SameIdentity L M) (g : SameIdentity M N) :
    SameIdentity L N := by
  obtain ⟨h1, h2, h3⟩ := h
  obtain ⟨g1, g2, g3⟩ := g
  exact ⟨h1.trans g1, h2.trans g2, h3.trans g3⟩

/-- A write to any register but mode keeps the mode bits (41_module_registers.md section 3). -/
theorem writeReg_sameMode (c : Config) {r : ModReg} (h : r ≠ .mode) (w : Word) (M : MemModule) :
    SameMode (writeReg c r w M) M := by
  cases r with
  | mode => exact absurd rfl h
  | _ => exact ⟨rfl, rfl, rfl, rfl, rfl⟩

/-- A write of one module to any register but mode, the identity register included. -/
theorem modWrite_sameMode {c : Config} {m : Slot} {upper : Bool} {idx : RegIdx} (w : Word) (s : State)
    (h : sel upper idx ≠ .mode) (j : Slot) : SameMode ((modWrite c m upper idx w s).modAt j) (s.modAt j) := by
  by_cases hid : sel upper idx = .deviceId
  · rw [modWrite_of_identity hid]
    have hreg := (writeDeviceId_registers c m w s j).sameMode
    split_ifs at hreg with hj
    · rw [hj] at hreg ⊢
      exact hreg
    · exact hreg
  · rw [modWrite_of_plain hid, State.modAt_setMod]
    split_ifs with hj
    · rw [hj]
      exact writeReg_sameMode c h w _
    · exact ⟨rfl, rfl, rfl, rfl, rfl⟩

/-- A write of one module to any register but the identity. -/
theorem modWrite_sameIdentity {c : Config} {m : Slot} {upper : Bool} {idx : RegIdx} (w : Word) (s : State)
    (h : sel upper idx ≠ .deviceId) (j : Slot) :
    SameIdentity ((modWrite c m upper idx w s).modAt j) (s.modAt j) := by
  rw [modWrite_of_plain h, State.modAt_setMod]
  split_ifs with hj
  · rw [hj]
    exact writeReg_identity c _ w _
  · exact ⟨rfl, rfl, rfl⟩

/-- What O30 says holds of every admitted operation: a mode write and RESET alone change a mode
bit, a calibration value or a validity (10_state.md R25, R28). -/
theorem exec_sameMode {i : Instr} {s t : State} (hw : wellFormed i = true) (h : exec i s = .next t)
    (hi : isModeWrite i = false) (hr : isReset i = false) (m : Slot) : SameMode (t.modAt m) (s.modAt m) := by
  cases exec_change h with
  | accessed ha => exact (ha.modules m).sameMode
  | regWrite bc id upper idx w _ hmode =>
    have hne := hmode hw hi
    exact regWrite_keeps (P := fun u => SameMode (u.modAt m) (s.modAt m))
      (fun _ _ hu ha => (ha.modules m).sameMode.trans hu)
      (fun u _ hu _ => (modWrite_sameMode w u hne m).trans hu) bc id ⟨rfl, rfl, rfl, rfl, rfl⟩
  | errorClear w => exact ⟨rfl, rfl, rfl, rfl, rfl⟩
  | bankClear w => exact ⟨rfl, rfl, rfl, rfl, rfl⟩
  | reset exp hi' => exact absurd (hi'.symm.trans hr) (by decide)

/-- What O34 says holds of every admitted operation: a device-identity write and RESET alone
change the table, an identity or a shadow (10_state.md R23, R36, R38). -/
theorem exec_sameMapping {i : Instr} {s t : State} (hw : wellFormed i = true) (h : exec i s = .next t)
    (hi : isIdWrite i = false) (hr : isReset i = false) :
    t.resp = s.resp ∧ ∀ m, SameIdentity (t.modAt m) (s.modAt m) := by
  cases exec_change h with
  | accessed ha => exact ⟨ha.resp, fun m => (ha.modules m).sameIdentity⟩
  | regWrite bc id upper idx w hid =>
    have hne := hid hw hi
    refine regWrite_keeps (P := fun u => u.resp = s.resp ∧ ∀ m, SameIdentity (u.modAt m) (s.modAt m))
      ?_ ?_ bc id ⟨rfl, fun m => ⟨rfl, rfl, rfl⟩⟩
    · rintro u v ⟨hresp, hmod⟩ ha
      exact ⟨ha.resp.trans hresp, fun m => (ha.modules m).sameIdentity.trans (hmod m)⟩
    · rintro u j ⟨hresp, hmod⟩ -
      refine ⟨?_, fun m => (modWrite_sameIdentity w u hne m).trans (hmod m)⟩
      rw [modWrite_of_plain hne]
      exact hresp
  | errorClear w => exact ⟨rfl, fun m => ⟨rfl, rfl, rfl⟩⟩
  | bankClear w => exact ⟨rfl, fun m => ⟨rfl, rfl, rfl⟩⟩
  | reset exp hi' => exact absurd (hi'.symm.trans hr) (by decide)

/-- At power-on a register write to ID 0 reaches module 0. -/
theorem reset_regWrite_modAt (upper : Bool) (idx : RegIdx) (w : Word) (m : Slot) :
    (regWrite Config.impl false 0 upper idx w State.reset).modAt m
      = (modWrite Config.impl 0 upper idx w State.reset).modAt m := by
  rw [regWrite_of_responder (responder_zero_of_initial rfl), State.returns_modAt, State.emit_modAt]

/-- Refutes O30: its quantifier over `Instr` takes in RW.NONE with an index that is not reserved, which is
no operation of the interface (30_encoding.md R101, `wellFormed`). With index 3 it writes the mode register: at
power-on it enables module 0. Of the admitted operations the statement holds (`exec_sameMode`). -/
theorem not_onlyModeWriteAndResetChangeValidity : ¬ Obligations.OnlyModeWriteAndResetChangeValidity := by
  intro h
  obtain ⟨-, hde, -⟩ := h (.rwNone false 0 false 3 0x02000000) State.reset
    (regWrite Config.impl false 0 false 3 0x02000000 State.reset) 0 rfl rfl rfl
  have hmode : sel false 3 = .mode := rfl
  have hbit : modeDe specLayout 0x02000000 = true := by decide
  rw [reset_regWrite_modAt, modWrite_of_plain (by rw [hmode]; decide), State.modAt_setMod_self, hmode,
    reset_modAt] at hde
  exact absurd (hbit.symm.trans hde) (by decide)

/-- Refutes O34 by the same operation with index 1: it writes the identity register, and at power-on it leaves
the identity field 64 in module 0. Of the admitted operations the statement holds (`exec_sameMapping`). -/
theorem not_onlyIdWriteAndResetRemap : ¬ Obligations.OnlyIdWriteAndResetRemap := by
  intro h
  obtain ⟨-, hmod⟩ := h (.rwNone false 0 false 1 0x00800000) State.reset
    (regWrite Config.impl false 0 false 1 0x00800000 State.reset) rfl rfl rfl
  obtain ⟨-, hfield, -⟩ := hmod 0
  rw [reset_regWrite_modAt, modWrite_of_identity rfl, writeDeviceId_idField, reset_modAt] at hfield
  exact absurd hfield (by decide)

end Sys2Proof.Machine

/-! SUPPORT. States that no operation tells apart: equal but for the host's list and, for O8, the inverted swap
fields. Every shared operation takes such states to such states. -/

namespace Sys2Proof.Machine

/-- What is compared of a module: all of it, or all but the inverted swap field (10_state.md R33). -/
def compared (all : Bool) (M : MemModule) : MemModule := if all then M else { M with swapInv := 0 }

/-- Two states agree in all but the host's list, their modules in what is compared of them. -/
structure Alike (all : Bool) (s u : State) : Prop where
  expansion : s.expansion = u.expansion
  mods : ∀ m, compared all (s.modAt m) = compared all (u.modAt m)
  live : s.live = u.live
  resp : s.resp = u.resp
  status : s.status = u.status
  ri : s.ri = u.ri
  trace : s.trace = u.trace
  result : s.result = u.result

theorem compared_deviceId (all : Bool) (M : MemModule) : (compared all M).deviceId = M.deviceId := by
  cases all <;> rfl

theorem compared_valid (all : Bool) (M : MemModule) : (compared all M).valid = M.valid := by cases all <;> rfl

theorem compared_shadow (all : Bool) (M : MemModule) : (compared all M).shadow = M.shadow := by
  cases all <;> rfl

/-- No register reads the inverted swap field. -/
theorem readReg_compared (all : Bool) (c : Config) (r : ModReg) (M : MemModule) :
    readReg c r (compared all M) = readReg c r M := by
  cases all <;> cases r <;> rfl

/-- A change of a module that looks only at what is compared of it. -/
def Compatible (all : Bool) (f : MemModule → MemModule) : Prop :=
  ∀ M, compared all (f M) = compared all (f (compared all M))

theorem compatible_writeReg (all : Bool) (c : Config) (r : ModReg) (w : Word) :
    Compatible all (writeReg c r w) := by
  intro M
  cases all <;> cases r <;> rfl

theorem compatible_latchRow (all : Bool) (c : Config) (a : Nat) : Compatible all (latchRow c a) := by
  intro M
  unfold latchRow
  cases all <;> split_ifs <;> rfl

theorem compatible_idField (all : Bool) (f : DevId) : Compatible all fun M => { M with idField := f } := by
  intro M
  cases all <;> rfl

theorem compatible_deviceId (all : Bool) (d : DevId) : Compatible all fun M => { M with deviceId := d } := by
  intro M
  cases all <;> rfl

theorem compatible_shadow (all : Bool) (b : Memory) : Compatible all fun M => { M with shadow := b } := by
  intro M
  cases all <;> rfl

theorem Compatible.congr {all : Bool} {f : MemModule → MemModule} (hf : Compatible all f) {M N : MemModule}
    (h : compared all M = compared all N) : compared all (f M) = compared all (f N) := by
  rw [hf M, h, ← hf N]

namespace Alike

variable {all : Bool} {c : Config} {s u : State}

theorem deviceId (h : Alike all s u) (m : Slot) : (s.modAt m).deviceId = (u.modAt m).deviceId := by
  rw [← compared_deviceId all, h.mods, compared_deviceId]

theorem valid (h : Alike all s u) (m : Slot) : (s.modAt m).valid = (u.modAt m).valid := by
  rw [← compared_valid all, h.mods, compared_valid]

theorem shadow (h : Alike all s u) (m : Slot) : (s.modAt m).shadow = (u.modAt m).shadow := by
  rw [← compared_shadow all, h.mods, compared_shadow]

theorem readReg (h : Alike all s u) (r : ModReg) (m : Slot) :
    readReg c r (s.modAt m) = readReg c r (u.modAt m) := by
  rw [← readReg_compared all, h.mods, readReg_compared]

theorem responder (h : Alike all s u) (d : DevId) : s.responder d = u.responder d := by
  simp only [State.responder, h.resp]

/-! ### The updates of the state -/

theorem emit (h : Alike all s u) (e : Event) : Alike all (s.emit e) (u.emit e) :=
  ⟨h.expansion, h.mods, h.live, h.resp, h.status, h.ri, by simp only [State.emit_trace, h.trace], h.result⟩

theorem returns (h : Alike all s u) (r : ReadData) : Alike all (s.returns r) (u.returns r) :=
  ⟨h.expansion, h.mods, h.live, h.resp, h.status, h.ri, h.trace, rfl⟩

theorem setStatus (h : Alike all s u) (g : Status → Status) :
    Alike all { s with status := g s.status } { u with status := g u.status } :=
  ⟨h.expansion, h.mods, h.live, h.resp, congrArg g h.status, h.ri, h.trace, h.result⟩

theorem setRi (h : Alike all s u) (g : Ri → Ri) : Alike all { s with ri := g s.ri } { u with ri := g u.ri } :=
  ⟨h.expansion, h.mods, h.live, h.resp, h.status, congrArg g h.ri, h.trace, h.result⟩

/-- The mapping replaced: table and live buffer. -/
theorem remap (h : Alike all s u) {r r' : Vector (Option Slot) 512} {l l' : Memory} (hr : r = r') (hl : l = l') :
    Alike all { s with resp := r, live := l } { u with resp := r', live := l' } :=
  ⟨h.expansion, h.mods, hl, hr, h.status, h.ri, h.trace, h.result⟩

/-- One module changed in the same way in both. -/
theorem modify (h : Alike all s u) {f : MemModule → MemModule} (hf : Compatible all f) (m : Slot) :
    Alike all (s.setMod m (f (s.modAt m))) (u.setMod m (f (u.modAt m))) := by
  refine ⟨h.expansion, fun j => ?_, h.live, h.resp, h.status, h.ri, h.trace, h.result⟩
  rw [State.modAt_setMod, State.modAt_setMod]
  split_ifs
  · exact hf.congr (h.mods m)
  · exact h.mods j

theorem recordNoResponder (h : Alike all s u) (k : AccessKind) (d : DevId) :
    Alike all (recordNoResponder k d s) (recordNoResponder k d u) := (h.setStatus markAckErr).emit _

theorem hookMemIf (h : Alike all s u) (tag : Tag) (e : Event) :
    Alike all (hookMemIf tag e s) (hookMemIf tag e u) := by
  unfold Machine.hookMemIf
  split_ifs
  · exact h
  · exact h.emit e

/-! ### Arbitration -/

theorem nextClaimant (h : Alike all s u) (m : Slot) (d : DevId) :
    nextClaimant s m d = nextClaimant u m d := by
  simp only [Machine.nextClaimant, h.expansion, h.deviceId]

theorem claim (h : Alike all s u) (m : Slot) : Alike all (claim c m s) (claim c m u) :=
  h.remap (by rw [h.deviceId, h.resp]) (by simp only [h.deviceId, h.live, h.shadow])

theorem saveImage (h : Alike all s u) (m : Slot) : Alike all (saveImage c m s) (saveImage c m u) := by
  rw [saveImage_eq, saveImage_eq, h.deviceId, h.live, h.shadow]
  exact h.modify (compatible_shadow all _) m

theorem evicted (h : Alike all s u) (m : Slot) : Alike all (evicted c m s) (evicted c m u) :=
  (h.saveImage m).remap (by rw [h.deviceId, h.resp, h.nextClaimant])
    (by simp only [h.deviceId, h.live, h.shadow, h.nextClaimant])

theorem unmapModule (h : Alike all s u) (m : Slot) : Alike all (unmapModule c m s) (unmapModule c m u) := by
  rw [unmapModule_eq, unmapModule_eq, h.deviceId, h.responder]
  split_ifs
  · exact h.evicted m
  · exact h

theorem mapModule (h : Alike all s u) (m : Slot) : Alike all (mapModule c m s) (mapModule c m u) := by
  rw [mapModule_eq, mapModule_eq, h.deviceId, h.responder]
  cases u.responder (u.modAt m).deviceId with
  | none => exact h.claim m
  | some r =>
    simp only []
    split_ifs
    · exact h.unmapModule r
    · exact h

/-! ### Register accesses -/

theorem moveModule (h : Alike all s u) (m : Slot) (new : DevId) :
    Alike all (moveModule c m new s) (moveModule c m new u) :=
  ((h.unmapModule m).modify (compatible_deviceId all new) m).mapModule m

theorem writeDeviceId (h : Alike all s u) (m : Slot) (w : Word) :
    Alike all (writeDeviceId c m w s) (writeDeviceId c m w u) := by
  have hstored := h.modify (compatible_idField all (idDecode c.layout w)) m
  simp only [Machine.writeDeviceId]
  by_cases hnew : idDecode c.layout w &&& c.idMask = (u.modAt m).deviceId
  · rw [if_pos hnew, if_pos (hnew.trans (h.deviceId m).symm)]
    exact hstored
  · rw [if_neg hnew, if_neg fun e => hnew (e.trans (h.deviceId m))]
    exact hstored.moveModule m _

theorem modWrite (h : Alike all s u) (m : Slot) (upper : Bool) (idx : RegIdx) (w : Word) :
    Alike all (modWrite c m upper idx w s) (modWrite c m upper idx w u) := by
  by_cases hid : sel upper idx = .deviceId
  · rw [modWrite_of_identity hid, modWrite_of_identity hid]
    exact h.writeDeviceId m w
  · rw [modWrite_of_plain hid, modWrite_of_plain hid]
    exact h.modify (compatible_writeReg all c _ w) m

theorem foldl_modWrite (upper : Bool) (idx : RegIdx) (w : Word) (l : List Slot) : ∀ {s u : State}, Alike all s u →
    Alike all (l.foldl (fun t m => Machine.modWrite c m upper idx w t) s)
      (l.foldl (fun t m => Machine.modWrite c m upper idx w t) u) := by
  induction l with
  | nil => exact id
  | cons x xs ih => exact fun h => ih (h.modWrite x upper idx w)

theorem regWrite (h : Alike all s u) (bc : Bool) (id : DevId) (upper : Bool) (idx : RegIdx) (w : Word) :
    Alike all (regWrite c bc id upper idx w s) (regWrite c bc id upper idx w u) := by
  cases bc with
  | true =>
    rw [regWrite_broadcast, regWrite_broadcast, h.expansion]
    exact ((foldl_modWrite upper idx w _ h).emit _).returns _
  | false =>
    cases hr : u.responder id with
    | none =>
      rw [regWrite_of_none hr, regWrite_of_none ((h.responder id).trans hr)]
      exact ((h.recordNoResponder _ _).emit _).returns _
    | some r =>
      rw [regWrite_of_responder hr, regWrite_of_responder ((h.responder id).trans hr)]
      exact ((h.modWrite r upper idx w).emit _).returns _

/-- A read of a module answers the same value and leaves states alike. -/
theorem modRead (h : Alike all s u) (m : Slot) (upper : Bool) (idx : RegIdx) (gate : Bool) :
    Alike all (modRead c m upper idx gate s).1 (modRead c m upper idx gate u).1 ∧
      (modRead c m upper idx gate s).2 = (modRead c m upper idx gate u).2 := by
  unfold Machine.modRead
  split_ifs
  · exact ⟨h.emit _, rfl⟩
  · exact ⟨h, h.readReg _ m⟩

theorem regRead (h : Alike all s u) (id : DevId) (upper : Bool) (idx : RegIdx) (gate : Bool) :
    Alike all (regRead c id upper idx gate s) (regRead c id upper idx gate u) := by
  cases hr : u.responder id with
  | none =>
    rw [regRead_of_none hr, regRead_of_none ((h.responder id).trans hr)]
    exact ((h.recordNoResponder _ _).emit _).returns _
  | some r =>
    obtain ⟨hstate, hvalue⟩ := h.modRead (c := c) r upper idx gate
    rw [regRead_of_responder hr, regRead_of_responder ((h.responder id).trans hr), hvalue]
    exact (hstate.emit _).returns _

theorem riRead (h : Alike all s u) (ridx : BitVec 3) (v : Word) : Alike all (riRead ridx v s) (riRead ridx v u) :=
  (h.emit _).returns _

theorem riWrite (h : Alike all s u) (ridx : BitVec 3) (w : Word) : Alike all (riWrite ridx w s) (riWrite ridx w u) :=
  (h.emit _).returns _

/-! ### Memory accesses -/

theorem transfers (h : Alike all s u) (a n : Nat) : transfers c s a n = transfers c u a n := by
  simp only [Machine.transfers, h.responder, h.valid]

theorem book (h : Alike all s u) (a : Nat) (dir : Dir) : Alike all (book c a dir s) (book c a dir u) := by
  have hmarked := h.setStatus (markBank (bank c.layout a) dir)
  simp only [Machine.book, h.responder]
  cases u.responder (memId c.layout a) with
  | none => exact hmarked.recordNoResponder _ _
  | some r => exact hmarked.modify (compatible_latchRow all c a) r

/-- A memory read answers the same value and leaves states alike. -/
theorem memRead (h : Alike all s u) (a n : Nat) (tag : Tag) :
    Alike all (memRead c a n tag s).1 (memRead c a n tag u).1 ∧ (memRead c a n tag s).2 = (memRead c a n tag u).2 :=
  ⟨(h.book a .read).hookMemIf tag _, by simp only [Machine.memRead, h.transfers, h.live]⟩

theorem memWrite (h : Alike all s u) (a n v : Nat) (tag : Tag) :
    Alike all (memWrite c a n v tag s) (memWrite c a n v tag u) := by
  have hb := h.book (c := c) a .write
  simp only [Machine.memWrite, h.transfers]
  split_ifs
  · exact (hb.remap hb.resp (by rw [hb.live])).hookMemIf tag _
  · exact hb.hookMemIf tag _

theorem burstWords (k : Nat) : ∀ (a : Nat) {s u : State}, Alike all s u →
    Alike all (burstWords c a k s).1 (burstWords c a k u).1 ∧ (burstWords c a k s).2 = (burstWords c a k u).2 := by
  induction k with
  | zero => exact fun _ _ _ h => ⟨h, rfl⟩
  | succ k ih =>
    intro a s u h
    obtain ⟨hfirst, hvalue⟩ := h.memRead (c := c) a 4 []
    obtain ⟨hrest, hvalues⟩ := ih (a + 4) hfirst
    exact ⟨hrest, by simp only [Machine.burstWords, hvalue, hvalues]⟩

theorem burstRead (h : Alike all s u) (a k : Nat) :
    Alike all (burstRead c a k s).1 (burstRead c a k u).1 ∧ (burstRead c a k s).2 = (burstRead c a k u).2 := by
  unfold Machine.burstRead
  split_ifs
  · exact ⟨h, rfl⟩
  · exact burstWords k a h

theorem burstStores (ws : List Word) : ∀ (a : Nat) {s u : State}, Alike all s u →
    Alike all (burstStores c a ws s) (burstStores c a ws u) := by
  induction ws with
  | nil => exact fun _ _ _ h => h
  | cons w rest ih => exact fun a _ _ h => ih (a + 4) (h.memWrite a 4 w.toNat [])

theorem burstWrite (h : Alike all s u) (a : Nat) (ws : List Word) :
    Alike all (burstWrite c a ws s) (burstWrite c a ws u) := by
  unfold Machine.burstWrite
  split_ifs
  · exact h
  · exact burstStores ws a h

theorem returning {α : Type} {p q : State × α} (h : Alike all p.1 q.1 ∧ p.2 = q.2) (f : α → ReadData) :
    Alike all (returning p f) (returning q f) := by
  unfold Machine.returning
  rw [h.2]
  exact h.1.returns _

/-! ### Whole operations -/

theorem resetBlock (c : Config) (exp : Bool) (s u : State) :
    Alike all (resetBlock c exp s) (resetBlock c exp u) := by
  rw [resetBlock_eq, resetBlock_eq]
  exact ⟨rfl, fun _ => rfl, rfl, rfl, rfl, rfl, rfl, rfl⟩

/-- Every operation takes states that are alike to states that are. -/
theorem meaning {i : Instr} {f : State → State} (hf : Meaning i f) (h : Alike all s u) : Alike all (f s) (f u) := by
  cases hf with
  | load a n tag shape => exact returning (h.memRead a n tag) shape
  | burstLoad a k => exact returning (h.burstRead a k) _
  | store a n v tag => exact (h.memWrite a n v tag).returns _
  | burstStore a ws => exact (h.burstWrite a ws).returns _
  | regRead id upper idx gate => exact h.regRead id upper idx gate
  | regWrite bc id upper idx w => exact h.regWrite bc id upper idx w
  | riRead ridx v =>
    simp only [h.ri, h.status]
    exact h.riRead ridx _
  | riStore ridx w g => exact (h.setRi g).riWrite ridx w
  | errorClear w => exact (h.setStatus clearErrors).riWrite 6 w
  | bankClear w => exact (h.setStatus (clearBanks Config.impl)).riWrite 7 w
  | reset exp => exact resetBlock Config.impl exp s u

end Alike

/-! ### Outcomes -/

/-- Two alike runs of one operation end alike, whatever view of the states alikeness settles. -/
theorem sameOutcome_of_alike {all : Bool} {s u : State} (i : Instr) (h : Alike all s u) {view : State → State}
    (hview : ∀ t v, exec i s = .next t → exec i u = .next v → Alike all t v → view t = view v) :
    SameOutcome view (exec i s) (exec i u) := by
  obtain ⟨r, hr⟩ | ⟨f, hf, he⟩ := exec_hasMeaning i
  · rw [hr, hr]
    exact rfl
  · have heq := hview _ _ (he s) (he u) (h.meaning hf)
    rw [he, he]
    exact heq

/-- Where all of a module is compared, the list is the only difference. -/
theorem Alike.eq_but_pending {s u : State} (h : Alike true s u) :
    { s with pending := [] } = { u with pending := [] } := by
  have hmods : s.mods = u.mods := State.mods_ext h.mods
  obtain ⟨hx, -, hl, hr, hst, hri, htr, hre⟩ := h
  cases s
  cases u
  simp_all

/-- Two states that the host's list alone tells apart are alike in every module. -/
theorem alike_pending (s : State) (p : List Request) : Alike true s { s with pending := p } :=
  ⟨rfl, fun _ => rfl, rfl, rfl, rfl, rfl, rfl, rfl⟩

theorem modAt_hideSwapInv (s : State) (m : Slot) : (hideSwapInv s).modAt m = compared false (s.modAt m) := by
  simp [State.modAt, hideSwapInv, compared]

/-- Equal but for the inverted swap fields: alike, with the same list of the host (10_state.md R33). -/
theorem hideSwapInv_eq_iff {s u : State} :
    hideSwapInv s = hideSwapInv u ↔ Alike false s u ∧ s.pending = u.pending := by
  constructor
  · intro h
    have hmods : ∀ m, compared false (s.modAt m) = compared false (u.modAt m) := fun m => by
      rw [← modAt_hideSwapInv, ← modAt_hideSwapInv, h]
    simp only [hideSwapInv, State.mk.injEq] at h
    obtain ⟨hx, -, hl, hr, hst, hri, htr, hre, hp⟩ := h
    exact ⟨⟨hx, hmods, hl, hr, hst, hri, htr, hre⟩, hp⟩
  · rintro ⟨h, hp⟩
    have hmods : (hideSwapInv s).mods = (hideSwapInv u).mods := State.mods_ext fun m => by
      rw [modAt_hideSwapInv, modAt_hideSwapInv, h.mods]
    obtain ⟨hx, -, hl, hr, hst, hri, htr, hre⟩ := h
    simp only [hideSwapInv] at hmods ⊢
    rw [hmods, hx, hl, hr, hst, hri, htr, hre, hp]

/-- Settles O6: a state and the same state with another list are alike, and stay so under every operation. -/
theorem operationsLeavePendingAlone : Obligations.OperationsLeavePendingAlone := by
  refine ⟨fun i s p => ⟨?_, fun t => exec_pending⟩, ?_⟩
  · exact sameOutcome_of_alike i (alike_pending s p) fun _ _ _ _ h => h.eq_but_pending
  · intro s t r rest hp h
    obtain ⟨hnil, -⟩ | ⟨r', rest', i, hp', -, he⟩ := step_next h
    · exact nomatch hnil.symm.trans hp
    · have hrest : rest' = rest := (List.cons.inj (hp'.symm.trans hp)).2
      rw [exec_pending he, hrest]

/-- Settles O8: the two states are alike when the inverted swap fields are left out of the comparison. -/
theorem swapInverseIsNeverRead : Obligations.SwapInverseIsNeverRead := by
  intro i s u h
  obtain ⟨halike, hp⟩ := hideSwapInv_eq_iff.1 h
  refine sameOutcome_of_alike i halike fun t v ht hv htv => hideSwapInv_eq_iff.2 ⟨htv, ?_⟩
  rw [exec_pending ht, exec_pending hv, hp]

end Sys2Proof.Machine

/-! SUPPORT. The decoder, equation by equation: the command-word bits it looks at on each port
(30_encoding.md R90, R92, R100, R112). -/

namespace Sys2Proof

/-- Bits agree at every position of a field of consecutive bits: the fields are equal. -/
theorem extractLsb'_congr {m : Nat} {x y : BitVec m} (lo n : Nat)
    (h : ∀ i < n, x.getLsbD (lo + i) = y.getLsbD (lo + i)) : x.extractLsb' lo n = y.extractLsb' lo n := by
  apply BitVec.eq_of_getLsbD_eq
  intro i hi
  rw [BitVec.getLsbD_extractLsb', BitVec.getLsbD_extractLsb', h i hi]

/-- The address stands in the low bits of the command word (R90). -/
theorem getLsbD_cwAddr (cw : BitVec 38) {k : Nat} (hk : k < 32) : (cwAddr cw).getLsbD k = cw.getLsbD k := by
  simp [cwAddr, hk]

/-- Port, direction and size stand in bits 37..32 of the command word (R90). -/
theorem cwHead_congr {x y : BitVec 38} (h : ∀ k < 38, 32 ≤ k → x.getLsbD k = y.getLsbD k) :
    cwPort x = cwPort y ∧ cwDir x = cwDir y ∧ cwSz x = cwSz y :=
  ⟨extractLsb'_congr 36 2 fun i hi => h (36 + i) (by omega) (by omega), h 35 (by omega) (by omega),
    extractLsb'_congr 32 3 fun i hi => h (32 + i) (by omega) (by omega)⟩

/-- The fields id, upper and idx stand in bits 18..2 of an RDRAM-port address (R100). -/
theorem regFields_congr {a b : BitVec 32} (h : ∀ k < 19, 2 ≤ k → a.getLsbD k = b.getLsbD k) :
    regId specLayout a = regId specLayout b ∧ regUpper specLayout a = regUpper specLayout b ∧
    regIdx specLayout a = regIdx specLayout b := by
  obtain ⟨-, hid, hupper, hidx⟩ := regFields a
  obtain ⟨-, hid', hupper', hidx'⟩ := regFields b
  rw [hid, hid', hupper, hupper', hidx, hidx']
  exact ⟨extractLsb'_congr 10 9 fun i hi => h (10 + i) (by omega) (by omega), h 9 (by omega) (by omega),
    extractLsb'_congr 2 7 fun i hi => h (2 + i) (by omega) (by omega)⟩

/-- The field ridx stands in bits 4..2 of an RI-port address (R112). -/
theorem riIdx_congr {a b : BitVec 32} (h : ∀ k < 5, 2 ≤ k → a.getLsbD k = b.getLsbD k) :
    riIdx specLayout a = riIdx specLayout b := by
  rw [riIdx_eq, riIdx_eq]
  exact extractLsb'_congr 2 3 fun i hi => h (2 + i) (by omega) (by omega)

/-- The fields of the address settle an RDRAM-port transaction; the broadcast bit only where it writes
(42_registry_dispatch.md R206). -/
theorem decodeRdram_congr {dir : Bool} {a b : BitVec 32} (w : Word) (gate : Bool)
    (h : ∀ k < 19, 2 ≤ k → a.getLsbD k = b.getLsbD k) (hbc : dir = true → a.getLsbD 19 = b.getLsbD 19) :
    decodeRdram specLayout dir a w gate = decodeRdram specLayout dir b w gate := by
  obtain ⟨hid, hupper, hidx⟩ := regFields_congr h
  unfold decodeRdram
  rw [hid, hupper, hidx]
  cases dir with
  | false => rfl
  | true => rw [show regBc specLayout a = regBc specLayout b from hbc rfl]

/-- Port 1 is the RDRAM port (R92). -/
theorem decode_of_rdramPort {r : Request} (h : cwPort r.cw = 1#2) :
    decode r = if cwSz r.cw = 2#3 then
      .ok (decodeRdram specLayout (cwDir r.cw) (cwAddr r.cw) (r.data.setWidth 32) r.gate)
      else .error .registerSize := by
  unfold decode
  rw [h]
  rfl

/-- Port 2 is the RI port (R92). -/
theorem decode_of_riPort {r : Request} (h : cwPort r.cw = 2#2) :
    decode r = if cwSz r.cw = 2#3 then
      .ok (decodeRi specLayout (cwDir r.cw) (cwAddr r.cw) (r.data.setWidth 32))
      else .error .registerSize := by
  unfold decode
  rw [h]
  rfl

section Decode

variable {r q : Request}

/-- All of a transaction but EXT_DIAG settles its decoding (00_scope.md R12). -/
theorem decode_congr (hcw : r.cw = q.cw) (hdata : r.data = q.data) (htag : r.tag = q.tag)
    (hgate : r.gate = q.gate) : decode r = decode q := by
  unfold decode
  rw [hcw, hdata, htag, hgate]

/-- Of the address of an RDRAM-port transaction bits 18..2 count, and bit 19 on a write (20_memory.md R62). -/
theorem decode_rdram_congr (hdata : r.data = q.data) (hgate : r.gate = q.gate) (hport : cwPort r.cw = 1#2)
    (h : ∀ k < 38, 2 ≤ k → (k < 19 ∨ 32 ≤ k) → r.cw.getLsbD k = q.cw.getLsbD k)
    (hbc : cwDir r.cw = true → r.cw.getLsbD 19 = q.cw.getLsbD 19) : decode r = decode q := by
  obtain ⟨hp, hdir, hsz⟩ := cwHead_congr fun k hk h32 => h k hk (by omega) (.inr h32)
  have hlow : ∀ k < 19, 2 ≤ k → (cwAddr r.cw).getLsbD k = (cwAddr q.cw).getLsbD k := fun k hk h2 => by
    rw [getLsbD_cwAddr _ (by omega), getLsbD_cwAddr _ (by omega), h k (by omega) h2 (.inl hk)]
  have h19 : cwDir r.cw = true → (cwAddr r.cw).getLsbD 19 = (cwAddr q.cw).getLsbD 19 := fun hw => by
    rw [getLsbD_cwAddr _ (by omega), getLsbD_cwAddr _ (by omega), hbc hw]
  rw [decode_of_rdramPort hport, decode_of_rdramPort (hp ▸ hport), decodeRdram_congr _ _ hlow h19, hdir, hsz,
    hdata, hgate]

/-- Of the address of an RI-port transaction bits 4..2 count (20_memory.md R63). -/
theorem decode_ri_congr (hdata : r.data = q.data) (hport : cwPort r.cw = 2#2)
    (h : ∀ k < 38, 2 ≤ k → (k < 5 ∨ 32 ≤ k) → r.cw.getLsbD k = q.cw.getLsbD k) : decode r = decode q := by
  obtain ⟨hp, hdir, hsz⟩ := cwHead_congr fun k hk h32 => h k hk (by omega) (.inr h32)
  have hridx : riIdx specLayout (cwAddr r.cw) = riIdx specLayout (cwAddr q.cw) := riIdx_congr fun k hk h2 => by
    rw [getLsbD_cwAddr _ (by omega), getLsbD_cwAddr _ (by omega), h k (by omega) h2 (.inl hk)]
  rw [decode_of_riPort hport, decode_of_riPort (hp ▸ hport), decodeRi, decodeRi, hridx, hdir, hsz, hdata]

end Decode

/-- Settles O4: on each register port the decoder reads the fields of the address alone. -/
theorem undecodedBitsDecideNothing : Obligations.UndecodedBitsDecideNothing := by
  intro r q hdata htag hgate
  refine ⟨fun hcw => decode_congr hcw hdata htag hgate, fun hport h => ?_, fun hport hread h => ?_,
    decode_ri_congr hdata⟩
  · exact decode_rdram_congr hdata hgate hport (fun k hk h2 hor => h k hk h2 (by omega))
      fun _ => h 19 (by omega) (by omega) (by omega)
  · exact decode_rdram_congr hdata hgate hport h fun hwrite => absurd (hread.symm.trans hwrite) (by decide)

end Sys2Proof

/-! SUPPORT. The memory-port operations: all are admitted in one way, and a read gives back what a write left
(20_memory.md R61, R70 to R72, R76). -/

namespace Sys2Proof.Machine

/-! ### Admission (44_memory_access.md R250) -/

theorem admission_of_beyond {a : BitVec 32} (n : Nat) (h : memSpaceBytes ≤ a.toNat) :
    admission a n = some .addressOutOfIdSpace := if_pos h

theorem admission_of_misaligned {a : BitVec 32} {n : Nat} (h : a.toNat < memSpaceBytes) (hn : a.toNat % n ≠ 0) :
    admission a n = some .misaligned := by
  rw [admission, if_neg (by omega), if_pos hn]

/-- An operation that is not admitted is refused. -/
theorem memOp_refused {a : BitVec 32} {n : Nat} {r : Refusal} (h : admission a n = some r) (t : State) :
    memOp a n t = .refused r := by
  rw [memOp, h]

/-- Every operation with an address and a size is a memory-port operation of that address and size. -/
theorem exec_of_accessSpan {i : Instr} {a : BitVec 32} {n : Nat} (h : accessSpan i = some (a, n)) :
    ∃ f : State → State, ∀ s, exec i s = memOp a n (f s) := by
  cases i with
  | ldB | ldH | ldW | ldD | ldb4 | ldb8 | stB | stH | stW | stD | stb4 | stb8 =>
    cases h
    exact ⟨_, fun _ => rfl⟩
  | _ => exact nomatch h

/-- Settles O10: admission looks at the address space first and at the alignment second. -/
theorem inadmissibleAccessesRefused : Obligations.InadmissibleAccessesRefused := by
  intro i a n s hspan
  obtain ⟨f, hf⟩ := exec_of_accessSpan hspan
  have hbeyond : 2 ^ 29 ≤ a.toNat → exec i s = .refused .addressOutOfIdSpace := fun h => by
    rw [hf, memOp_refused (admission_of_beyond n h)]
  refine ⟨fun h _ => hbeyond h, fun h hn => ?_, fun h _ => ⟨_, hbeyond h⟩⟩
  rw [hf, memOp_refused (admission_of_misaligned h hn)]

/-! ### A read after a write -/

/-- A second operation of the same address and size is admitted where the first was. -/
theorem exec_next_after {i j : Instr} {a : BitVec 32} {n : Nat} {f g : State → State} {s t : State}
    (hi : ∀ s, exec i s = memOp a n (f s)) (hj : ∀ s, exec j s = memOp a n (g s)) (h : exec i s = .next t) :
    (a.toNat < memSpaceBytes ∧ a.toNat % n = 0) ∧ exec j t = .next (g (f s)) := by
  obtain ⟨⟨hspace, halign⟩, rfl⟩ := memOp_next.1 ((hi s).symm.trans h)
  exact ⟨⟨hspace, halign⟩, (hj _).trans (memOp_of_admitted hspace halign)⟩

/-- `MemRead` after a `MemWrite` of as many bytes at the same place gives the value written. -/
theorem memRead_memWrite {c : Config} (hl : c.layout = specLayout) {a n v : Nat} (tag tag' : Tag) {s : State}
    (hw : s.live.wf) (ha : a < memSpaceBytes) (hd : DataMoves s a n) (hv : v < 256 ^ n) :
    (memRead c a n tag' ((memWrite c a n v tag s).returns .nothing)).2 = v := by
  obtain ⟨hbook, -, -, hlive, -⟩ := memWrite_spec c hl ha n v tag s
  obtain ⟨-, -, -, -, hdata, -⟩ := memRead_spec c hl ha n tag' ((memWrite c a n v tag s).returns .nothing)
  have hmoves : DataMoves ((memWrite c a n v tag s).returns .nothing) a n := (hbook.dataMoves a n).2 hd
  rw [hdata hmoves, State.returns_live, hlive hd, liveRead_liveWrite hw, Nat.mod_eq_of_lt hv]

/-- A read operation after a write operation of the same size gives the value written. -/
theorem load_after_store {i j : Instr} {a : BitVec 32} {n v : Nat} {tag tag' : Tag} {shape : Nat → ReadData}
    {s t : State}
    (hi : ∀ s, exec i s = memOp a n ((memWrite Config.impl a.toNat n v tag s).returns .nothing))
    (hj : ∀ s, exec j s = memOp a n (returning (memRead Config.impl a.toNat n tag' s) shape))
    (hw : s.live.wf) (hv : v < 256 ^ n) (hd : DataMoves s a.toNat n) (h : exec i s = .next t) :
    ∃ u, exec j t = .next u ∧ u.result = shape v := by
  obtain ⟨⟨hspace, -⟩, hnext⟩ := exec_next_after hi hj h
  exact ⟨_, hnext, congrArg shape (memRead_memWrite rfl tag tag' hw hspace hd hv)⟩

/-- The list of words written from a on is read back there, word by word. -/
theorem map_wordAt_wordsWritten {m : Memory} (h : m.wf) (a : Nat) (ws : List Word) :
    (List.range ws.length).map (fun i => wordAt (wordsWritten m a ws) (a + 4 * i)) = ws := by
  apply List.ext_getElem
  · simp
  · intro i _ hi
    rw [List.getElem_map, List.getElem_range, wordAt_wordsWritten h hi]

/-- `BurstRead` after a `BurstWrite` of as many words in the same row gives the words written. -/
theorem burstRead_burstWrite {c : Config} (hl : c.layout = specLayout) {a : Nat} {ws : List Word} {s : State}
    (hw : s.live.wf) (ha : a < memSpaceBytes) (hws : ws ≠ [])
    (hrow : (a + 4 * ws.length - 1) / 2 ^ 11 = a / 2 ^ 11) (hd : DataMoves s a (4 * ws.length)) :
    (burstRead c a ws.length ((burstWrite c a ws s).returns .nothing)).2 = ws := by
  have hlen : 0 < ws.length := List.length_pos_iff.2 hws
  have hin : ¬ liveBytes ≤ a := by
    obtain ⟨-, -, -, hle⟩ := hd
    omega
  obtain ⟨hbook, -, -, hlive, -⟩ := burstStores_spec c hl a ws a s ha fun _ => ⟨rfl, hrow⟩
  obtain ⟨-, -, -, hdata, -⟩ := burstWords_spec c hl a ws.length a ((burstStores c a ws s).returns .nothing) ha
    fun _ => ⟨rfl, hrow⟩
  have hmoves : DataMoves ((burstStores c a ws s).returns .nothing) a (4 * ws.length) :=
    ((hbook hws).dataMoves _ _).2 hd
  rw [burstRead, burstWrite, if_neg hin, if_neg hin, hdata hmoves, State.returns_live, hlive hd,
    map_wordAt_wordsWritten hw]

/-- A burst read after a burst write of the same four or eight words: its alignment keeps it in one row. -/
theorem burstLoad_after_burstStore {i j : Instr} {a : BitVec 32} {ws : List Word} {s t : State}
    (hk : ws.length = 4 ∨ ws.length = 8)
    (hi : ∀ s, exec i s = memOp a (4 * ws.length) ((burstWrite Config.impl a.toNat ws s).returns .nothing))
    (hj : ∀ s, exec j s = memOp a (4 * ws.length) (returning (burstRead Config.impl a.toNat ws.length s) .words))
    (hw : s.live.wf) (hd : DataMoves s a.toNat (4 * ws.length)) (h : exec i s = .next t) :
    ∃ u, exec j t = .next u ∧ u.result = .words ws := by
  obtain ⟨⟨hspace, halign⟩, hnext⟩ := exec_next_after hi hj h
  have hws : ws ≠ [] := List.length_pos_iff.1 (by omega)
  have hrow : (a.toNat + 4 * ws.length - 1) / 2 ^ 11 = a.toNat / 2 ^ 11 := by
    obtain hk | hk := hk <;> rw [hk] at halign ⊢ <;> omega
  exact ⟨_, hnext, congrArg ReadData.words (burstRead_burstWrite rfl hw hspace hws hrow hd)⟩

/-- Settles O16: each single read and each burst read, after the write of its width. -/
theorem loadReturnsStoredValue : Obligations.LoadReturnsStoredValue := by
  intro s t a tag tag' hw
  refine ⟨fun v hd h => ?_, fun v hd h => ?_, fun v hd h => ?_, fun v hd h => ?_,
    fun w0 w1 w2 w3 hd h => ?_, fun w0 w1 w2 w3 w4 w5 w6 w7 hd h => ?_⟩
  · simpa using load_after_store (j := .ldB a tag') (fun _ => rfl) (fun _ => rfl) hw v.isLt hd h
  · simpa using load_after_store (j := .ldH a tag') (fun _ => rfl) (fun _ => rfl) hw v.isLt hd h
  · simpa using load_after_store (j := .ldW a tag') (fun _ => rfl) (fun _ => rfl) hw v.isLt hd h
  · simpa using load_after_store (j := .ldD a tag') (fun _ => rfl) (fun _ => rfl) hw v.isLt hd h
  · exact burstLoad_after_burstStore (ws := [w0, w1, w2, w3]) (.inl rfl) (fun _ => rfl) (fun _ => rfl) hw hd h
  · exact burstLoad_after_burstStore (ws := [w0, w1, w2, w3, w4, w5, w6, w7]) (.inr rfl) (fun _ => rfl)
      (fun _ => rfl) hw hd h

end Sys2Proof.Machine

/-! SUPPORT. The decoder against the encoder and against the reserved words: one equation per port
(30_encoding.md R90 to R93). -/

namespace Sys2Proof

/-! ### The two other ports -/

/-- Port 0 is the MEM port (R92). -/
theorem decode_of_memPort {r : Request} (h : cwPort r.cw = 0#2) :
    decode r = decodeMem (cwDir r.cw) (cwSz r.cw) (cwAddr r.cw) r.data r.tag := by
  unfold decode
  rw [h]
  rfl

/-- Port 3 is the CTRL port (R92). -/
theorem decode_of_ctrlPort {r : Request} (h : cwPort r.cw = 3#2) :
    decode r = if cwDir r.cw = true ∧ cwSz r.cw = 0#3 ∧ (cwAddr r.cw).extractLsb' 1 31 = 0#31 then
      .ok (.reset ((cwAddr r.cw).getLsbD 0)) else .error .ctrlWord := by
  unfold decode
  rw [h]
  rfl

/-! ### Decoding an encoded transaction -/

theorem decode_encodeLoad (sz : BitVec 3) (a : BitVec 32) (tag : Tag) :
    decode (encodeLoad sz a tag) = decodeMem false sz a 0 tag := by
  simp [encodeLoad, decode_of_memPort]

theorem decode_encodeStore (sz : BitVec 3) (a : BitVec 32) (d : BitVec 256) (tag : Tag) :
    decode (encodeStore sz a d tag) = decodeMem true sz a d tag := by
  simp [encodeStore, decode_of_memPort]

theorem decode_encodeRegRead (id : DevId) (upper : Bool) (idx : RegIdx) (gate : Bool) :
    decode (encodeRegRead id upper idx gate) = .ok (decodeRegRead id upper idx gate) := by
  simp [encodeRegRead, decode_of_rdramPort, decodeRdram]

theorem decode_encodeRegWrite (bc : Bool) (id : DevId) (upper : Bool) (idx : RegIdx) (w : Word) :
    decode (encodeRegWrite bc id upper idx w) = .ok (decodeRegWrite bc id upper idx w) := by
  simp [encodeRegWrite, decode_of_rdramPort, decodeRdram]

theorem decode_encodeRiRead (ridx : BitVec 3) :
    decode (encodeRiRead ridx) = .ok (decodeRiRead ridx) := by
  simp [encodeRiRead, decode_of_riPort, decodeRi]

theorem decode_encodeRiWrite (ridx : BitVec 3) (w : Word) :
    decode (encodeRiWrite ridx w) = .ok (decodeRiWrite ridx w) := by
  simp [encodeRiWrite, decode_of_riPort, decodeRi]

theorem decode_encode_reset (exp : Bool) : decode (encode (.reset exp)) = .ok (.reset exp) := by
  cases exp <;> simp [encode, decode_of_ctrlPort]

/-- A reserved index selects no register (R101). -/
theorem decodeReg_of_reservedIdx {idx : RegIdx} (h : reservedIdx idx = true) (bc : Bool) (id : DevId)
    (upper : Bool) (w : Word) (gate : Bool) :
    decodeRegRead id upper idx gate = .rrNone id upper idx gate ∧
    decodeRegWrite bc id upper idx w = .rwNone bc id upper idx w := by
  obtain ⟨k, hk⟩ := Nat.exists_eq_add_of_le' (of_decide_eq_true h)
  simp only [decodeRegRead, decodeRegWrite, hk, and_self]

/-- Settles O1: each encoded transaction decodes by the equation of its port; left over are the narrow store
operands, the burst words and the reserved indices. -/
theorem decodeEncodeRoundTrip : Obligations.DecodeEncodeRoundTrip := by
  intro i hwf
  cases i with
  | ldB | ldH | ldW | ldD | ldb4 | ldb8 => exact decode_encodeLoad ..
  | stB a v tag | stH a v tag | stW a v tag | stD a v tag =>
    refine (decode_encodeStore ..).trans ?_
    simp [decodeMem]
  | stb4 a w0 w1 w2 w3 =>
    obtain ⟨h0, h1, h2, h3⟩ := dataWord_packWords4 w0 w1 w2 w3
    refine (decode_encodeStore ..).trans ?_
    simp [decodeMem, h0, h1, h2, h3]
  | stb8 a w0 w1 w2 w3 w4 w5 w6 w7 =>
    obtain ⟨h0, h1, h2, h3, h4, h5, h6, h7⟩ := dataWord_packWords8 w0 w1 w2 w3 w4 w5 w6 w7
    refine (decode_encodeStore ..).trans ?_
    simp [decodeMem, h0, h1, h2, h3, h4, h5, h6, h7]
  | rrNone id upper idx gate =>
    rw [encode, decode_encodeRegRead, (decodeReg_of_reservedIdx hwf false id upper 0 gate).1]
  | rwNone bc id upper idx w =>
    rw [encode, decode_encodeRegWrite, (decodeReg_of_reservedIdx hwf bc id upper w false).2]
  | rrDeviceType | rrDeviceId | rrDelay | rrMode | rrRefInterval | rrRefRow | rrRasInterval | rrMinInterval
  | rrAddrSelect | rrDeviceManuf | rrRow0 | rrRow1 => exact decode_encodeRegRead ..
  | rwDeviceType | rwDeviceId | rwDelay | rwMode | rwRefInterval | rwRefRow | rwRasInterval | rwMinInterval
  | rwAddrSelect | rwDeviceManuf | rwRow0 | rwRow1 => exact decode_encodeRegWrite ..
  | rirMode | rirConfig | rirCurrentLoad | rirSelect | rirRefresh | rirLatency | rirError | rirBankStatus =>
    exact decode_encodeRiRead _
  | riwMode | riwConfig | riwCurrentLoad | riwSelect | riwRefresh | riwLatency | riwError | riwBankStatus =>
    exact decode_encodeRiWrite ..
  | reset exp => exact decode_encode_reset exp

/-! ### The words of no operation (R93) -/

/-- The fields of a command word as numbers (R90). -/
theorem cwFields_toNat (cw : BitVec 38) :
    (cwPort cw).toNat = cw.toNat / 2 ^ 36 ∧ (cwSz cw).toNat = cw.toNat / 2 ^ 32 % 8 ∧
    ((cwAddr cw).extractLsb' 1 31 = 0#31 ↔ cw.toNat % 2 ^ 32 / 2 = 0) := by
  have hlt := cw.isLt
  refine ⟨?_, ?_, ?_⟩
  · rw [cwPort, BitVec.extractLsb'_toNat, Nat.shiftRight_eq_div_pow]
    omega
  · rw [cwSz, BitVec.extractLsb'_toNat, Nat.shiftRight_eq_div_pow]
  · simp only [cwAddr, ← BitVec.toNat_inj, BitVec.extractLsb'_toNat, Nat.shiftRight_eq_div_pow, BitVec.toNat_ofNat]
    omega

/-- A choice between an operation and an error refuses exactly where its test fails. -/
theorem refuses_ite_iff {p : Prop} [Decidable p] {i : Instr} {e : DecodeError} :
    (∃ e', (if p then .ok i else .error e : Except DecodeError Instr) = .error e') ↔ ¬ p := by
  split_ifs with h <;> simp [h]

/-- The MEM port refuses two of its eight size codes. -/
theorem decodeMem_refuses_iff (dir : Bool) (sz : BitVec 3) (a : BitVec 32) (d : BitVec 256) (tag : Tag) :
    (∃ e, decodeMem dir sz a d tag = .error e) ↔ sz.toNat = 6 ∨ sz.toNat = 7 := by
  have hsz : sz.toNat < 8 := sz.isLt
  unfold decodeMem
  generalize sz.toNat = n at hsz ⊢
  cases dir <;> interval_cases n <;> simp

/-- Settles O2: the four ports one by one, then the fields of the word as numbers. -/
theorem decodeRefusesExactlyReservedWords : Obligations.DecodeRefusesExactlyReservedWords := by
  intro r
  obtain ⟨hport, hsz, haddr⟩ := cwFields_toNat r.cw
  simp only [ne_eq, ← hport, ← hsz, ← haddr]
  have hports : ∀ p : BitVec 2, p = 0#2 ∨ p = 1#2 ∨ p = 2#2 ∨ p = 3#2 := by decide
  obtain h | h | h | h := hports (cwPort r.cw)
  · simp [decode_of_memPort h, decodeMem_refuses_iff, h]
  · simp [decode_of_rdramPort h, refuses_ite_iff, h, ← BitVec.toNat_inj]
  · simp [decode_of_riPort h, refuses_ite_iff, h, ← BitVec.toNat_inj]
  · simp [decode_of_ctrlPort h, refuses_ite_iff, h, ← BitVec.toNat_inj, cwDir, imp_iff_not_or]

/-! ### Sample words -/

/-- A table word that decodes as the encoding of a well-formed operation decodes to it. -/
theorem decodeTableWord_of_encode {nbits w : Nat} {i : Instr} (hwf : wellFormed i = true)
    (h : decode (tableRequest nbits w) = decode (encode i)) : decodeTableWord nbits w = some i := by
  rw [decodeTableWord, h, decodeEncodeRoundTrip i hwf]

/-- A table word that the decoder refuses. -/
theorem decodeTableWord_of_refused {nbits w : Nat} (h : ∃ e, decode (tableRequest nbits w) = .error e) :
    decodeTableWord nbits w = none := by
  obtain ⟨e, he⟩ := h
  rw [decodeTableWord, he]

/-- Settles O3: six words are encodings, the RI word differs from one in an undecoded address bit, and the last
has port MEM and size code 6. -/
theorem sampleWordsDecode : Obligations.SampleWordsDecode := by
  refine ⟨?_, ?_, ?_, ?_, ?_, ?riLatency, ?_, ?memSize6⟩
  case riLatency => exact decodeTableWord_of_encode rfl (decode_ri_congr rfl (by decide) (by decide))
  case memSize6 =>
    refine decodeTableWord_of_refused ((decodeRefusesExactlyReservedWords _).2 (.inl ⟨?_, .inl ?_⟩)) <;> rfl
  all_goals exact decodeTableWord_of_encode (by decide) (congrArg decode (by decide))

end Sys2Proof

/-! SUPPORT. A register read after a register write, on both register ports: the stored bits of the word
(30_encoding.md R103 to R118). -/

namespace Sys2Proof.Machine

/-! ### Packing what a write stores -/

/-- A field read from a word and placed again is the word under the field's mask. -/
theorem scatter_gather {n : Nat} (p : Bits n) (w : Word) :
    scatter p (gather p w.getLsbD) = w &&& scatter p (BitVec.allOnes n) := by
  apply BitVec.eq_of_getLsbD_eq
  intro j hj
  rw [BitVec.getLsbD_and, getLsbD_scatter, getLsbD_scatter, Bool.eq_iff_iff]
  simp only [getLsbD_gather, BitVec.getLsbD_allOnes, hj, Fin.is_lt, decide_true, and_true, Bool.true_and,
    Bool.and_eq_true, decide_eq_true_eq]
  constructor
  · rintro ⟨i, rfl, h⟩
    exact ⟨h, i, rfl⟩
  · rintro ⟨h, i, rfl⟩
    exact ⟨i, rfl, h⟩

/-- A flag read from a word and placed again is the word under the flag's mask. -/
theorem placeBit_getLsbD (w : Word) (k : Nat) : placeBit (w.getLsbD k) k = w &&& placeBit true k := by
  apply BitVec.eq_of_getLsbD_eq
  intro j hj
  rw [BitVec.getLsbD_and, getLsbD_placeBit, getLsbD_placeBit]
  by_cases h : j = k <;> simp [h, Bool.and_comm]

section

variable (w : Word) (M : MemModule) (r : Ri)

/-- Delay register (R105). -/
theorem packDelay_storeDelay : packDelay specLayout (storeDelay specLayout w M) = w &&& 0x38383838#32 := by
  simp only [packDelay, storeDelay, scatter_gather, ← BitVec.and_or_distrib_left]
  rfl

/-- Timing register (R109). -/
theorem packRas_storeRas : packRas specLayout (storeRas specLayout w M) = w &&& 0x1F1F1F1F#32 := by
  simp only [packRas, storeRas, scatter_gather, ← BitVec.and_or_distrib_left]
  rfl

/-- Mode register in manual mode (R106). -/
theorem packMode_storeMode {c : Config} (hl : c.layout = specLayout) (hw : w.getLsbD 31 = false) :
    packMode c (storeMode c w M) = w &&& 0xC2C0C0C0#32 := by
  have hcc : (storeMode c w M).cc = ccDecode c w := by
    rw [storeMode, hl, show modeCe specLayout w = false from hw]
    rfl
  have hxor : ccGather specLayout w ^^^ c.ccXor ^^^ c.ccXor = ccGather specLayout w := by
    rw [BitVec.xor_assoc, BitVec.xor_self, BitVec.xor_zero]
  rw [packMode, hcc, modeWord, ccEncode, ccDecode, hl, hxor]
  simp only [storeMode, hl, modeCe, modeX2, modeDe, ccScatter, ccGather, scatter_gather, placeBit_getLsbD,
    ← BitVec.and_or_distrib_left]
  rfl

/-- Address-swap register (R111). -/
theorem packSwap_storeSwap : packSwap specLayout (storeSwap specLayout w M) = w &&& 0x1FF#32 :=
  scatter_gather specLayout.swap w

/-- Sensed-row latches (R111). -/
theorem packRow0_storeRow0 : packRow0 specLayout (storeRow0 specLayout w M) = w &&& 0x1FF#32 :=
  scatter_gather specLayout.row w

theorem packRow1_storeRow1 : packRow1 specLayout (storeRow1 specLayout w M) = w &&& 0x1FF#32 :=
  scatter_gather specLayout.row w

/-- RI mode (R113). -/
theorem packRiMode_storeRiMode : packRiMode specLayout (storeRiMode specLayout w r) = w &&& 0xF#32 := by
  simp only [packRiMode, storeRiMode, scatter_gather, placeBit_getLsbD, ← BitVec.and_or_distrib_left]
  rfl

/-- RI config (R114). -/
theorem packRiConfig_storeRiConfig : packRiConfig specLayout (storeRiConfig specLayout w r) = w &&& 0x7F#32 := by
  simp only [packRiConfig, storeRiConfig, scatter_gather, placeBit_getLsbD, ← BitVec.and_or_distrib_left]
  rfl

/-- RI select (R116). -/
theorem packRiSelect_storeRiSelect : packRiSelect specLayout (storeRiSelect specLayout w r) = w &&& 0xFF#32 := by
  simp only [packRiSelect, storeRiSelect, scatter_gather, ← BitVec.and_or_distrib_left]
  rfl

/-- RI refresh (R117). -/
theorem packRiRefresh_storeRiRefresh :
    packRiRefresh specLayout (storeRiRefresh specLayout w r) = w &&& 0x7FFFFF#32 := by
  simp only [packRiRefresh, storeRiRefresh, scatter_gather, placeBit_getLsbD, ← BitVec.and_or_distrib_left]
  rfl

/-- RI latency (R118). -/
theorem packRiLatency_storeRiLatency : packRiLatency specLayout (storeRiLatency specLayout w r) = w &&& 0xF#32 :=
  scatter_gather specLayout.latency w

end

/-! ### Reading what was written -/

/-- The RI read of a register after the RI write to it returns what the write stored, packed. -/
theorem riRead_after_riWrite {i j : Instr} {x y : BitVec 3} {w v : Word} {store : Ri → Ri} {pack : Ri → Word}
    {s t : State} (hi : ∀ s, exec i s = .next (riWrite x w { s with ri := store s.ri }))
    (hj : ∀ s, exec j s = .next (riRead y (pack s.ri) s)) (hv : ∀ r, pack (store r) = v)
    (h : exec i s = .next t) : ∃ u, exec j t = .next u ∧ u.result = .word v := by
  obtain rfl := Host.Outcome.next.inj ((hi s).symm.trans h)
  exact ⟨_, hj _, congrArg ReadData.word (hv s.ri)⟩

/-- Settles O47: each of the five RI registers with stored bits packs what it unpacked. -/
theorem riWrittenFieldsReadBack : Obligations.RiWrittenFieldsReadBack := fun _ _ w =>
  ⟨riRead_after_riWrite (fun _ => rfl) (fun _ => rfl) (packRiMode_storeRiMode w),
    riRead_after_riWrite (fun _ => rfl) (fun _ => rfl) (packRiConfig_storeRiConfig w),
    riRead_after_riWrite (fun _ => rfl) (fun _ => rfl) (packRiSelect_storeRiSelect w),
    riRead_after_riWrite (fun _ => rfl) (fun _ => rfl) (packRiRefresh_storeRiRefresh w),
    riRead_after_riWrite (fun _ => rfl) (fun _ => rfl) (packRiLatency_storeRiLatency w)⟩

/-- What an open read of a responder returns. -/
theorem regRead_open_result {c : Config} {id : DevId} {upper : Bool} {idx : RegIdx} {gate : Bool} {s : State}
    {r : Slot} (hr : s.responder id = some r) (hopen : gate = true ∨ alwaysOn (sel upper idx) = true) :
    (regRead c id upper idx gate s).result = .word (readReg c (sel upper idx) (s.modAt r)) := by
  rw [regRead_of_responder hr, modRead_open hopen, State.returns_result]

/-- The read of a register other than the identity, after the write to it at the same ID, returns what the write
stored, packed: the responder is as before. -/
theorem regRead_after_regWrite (reg : ModReg) {i j : Instr} {id : DevId} {upper up gate : Bool} {idx : RegIdx}
    {w v : Word} {s t : State} {r : Slot}
    (hi : ∀ s, exec i s = .next (regWrite Config.impl false id upper idx w s))
    (hj : ∀ s, exec j s = .next (regRead Config.impl id up idx gate s))
    (hsel : sel upper idx = reg ∧ sel up idx = reg) (hreg : reg ≠ .deviceId)
    (hopen : gate = true ∨ alwaysOn reg = true)
    (hv : ∀ M, readReg Config.impl reg (writeReg Config.impl reg w M) = v)
    (hr : s.responder id = some r) (h : exec i s = .next t) :
    ∃ u, exec j t = .next u ∧ u.result = .word v := by
  obtain ⟨hwrite, rfl⟩ := hsel
  have ht := Host.Outcome.next.inj ((hi s).symm.trans h)
  rw [regWrite_of_responder hr, modWrite_of_plain (hwrite ▸ hreg), hwrite] at ht
  subst ht
  refine ⟨_, hj _, (regRead_open_result (r := r) ?_ hopen).trans ?_⟩
  · exact hr
  · rw [State.returns_modAt, State.emit_modAt, State.modAt_setMod_self, hv]

/-- The device-identity register returns the field as last written, wherever its module answers (R153). -/
theorem readDeviceId_after_write {s t : State} {id d : DevId} {r : Slot} {w : Word}
    (hr : s.responder id = some r) (h : exec (.rwDeviceId false id w) s = .next t) (hd : t.responder d = some r) :
    ∃ u, exec (.rrDeviceId d true) t = .next u ∧ u.result = .word (w &&& 0xFC800300#32) := by
  have ht : t.modAt r = (writeDeviceId Config.impl r w s).modAt r := by
    rw [← Host.Outcome.next.inj h, regWrite_of_responder hr, State.returns_modAt, State.emit_modAt,
      modWrite_of_identity rfl]
  refine ⟨_, rfl, ?_⟩
  rw [regRead_open_result hd (.inl rfl)]
  refine congrArg ReadData.word ?_
  rw [show sel false 1 = .deviceId from rfl, readReg, ht, writeDeviceId_idField, Config.impl_layout,
    idEncode_idDecode]

/-- Settles O28: the identity register wherever its module answers, and each other register at its ID. -/
theorem writtenFieldsReadBack : Obligations.WrittenFieldsReadBack := by
  intro s t id r upper up gate w hr
  refine ⟨fun h d => readDeviceId_after_write hr h, ?_, ?_, fun h hw => ?_, ?_, ?_, ?_, ?_⟩
  · exact regRead_after_regWrite .delay (fun _ => rfl) (fun _ => rfl) ⟨rfl, rfl⟩ (by decide) (.inr rfl)
      (packDelay_storeDelay w) hr
  · exact regRead_after_regWrite .rasInterval (fun _ => rfl) (fun _ => rfl) ⟨rfl, rfl⟩ (by decide) (.inr rfl)
      (packRas_storeRas w) hr
  · exact regRead_after_regWrite .mode (fun _ => rfl) (fun _ => rfl) ⟨rfl, rfl⟩ (by decide) (.inl rfl)
      (fun M => packMode_storeMode w M rfl hw) hr h
  · exact regRead_after_regWrite .refRow (fun _ => rfl) (fun _ => rfl) ⟨rfl, rfl⟩ (by decide) (.inl rfl)
      (fun _ => rfl) hr
  · exact regRead_after_regWrite .addrSelect (fun _ => rfl) (fun _ => rfl) ⟨rfl, rfl⟩ (by decide) (.inl rfl)
      (packSwap_storeSwap w) hr
  · exact regRead_after_regWrite .row0 (fun _ => rfl) (fun _ => rfl) ⟨rfl, rfl⟩ (by decide) (.inl rfl)
      (packRow0_storeRow0 w) hr
  · exact regRead_after_regWrite .row1 (fun _ => rfl) (fun _ => rfl) ⟨rfl, rfl⟩ (by decide) (.inl rfl)
      (packRow1_storeRow1 w) hr

end Sys2Proof.Machine

/-! SUPPORT. `map` and `unmap`, case by case (40_arbitration.md R131, R135): which case applies, and what the claim
and the eviction leave in the table, the live buffer and the shadows. -/

namespace Sys2Proof.Machine

section Arbitration

variable {c : Config} {s : State} {m r : Slot}

/-! ### The cases -/

theorem mapModule_of_unclaimed (h : s.responder (s.modAt m).deviceId = none) : mapModule c m s = claim c m s := by
  rw [mapModule_eq, h]

theorem mapModule_of_held (h : s.responder (s.modAt m).deviceId = some r) (hle : r ≤ m) : mapModule c m s = s := by
  rw [mapModule_eq, h]
  exact if_neg (not_lt.2 hle)

theorem unmapModule_of_responder (h : s.responder (s.modAt m).deviceId = some m) :
    unmapModule c m s = evicted c m s := by
  rw [unmapModule_eq, if_pos h]

theorem unmapModule_of_nonResponder (h : s.responder (s.modAt m).deviceId ≠ some m) : unmapModule c m s = s := by
  rw [unmapModule_eq, if_neg h]

theorem mapModule_of_lower (h : s.responder (s.modAt m).deviceId = some r) (hlt : m < r)
    (hid : (s.modAt r).deviceId = (s.modAt m).deviceId) : mapModule c m s = evicted c r s := by
  have hr : s.responder (s.modAt r).deviceId = some r := by rw [hid, h]
  rw [mapModule_eq, h, ← unmapModule_of_responder hr]
  exact if_pos hlt

/-- One nested call of `map` is all that `unmap` needs: the range is clear when it is made (R141). -/
theorem unmapWith_mapFuel_succ (c : Config) (f : Nat) (m : Slot) (s : State) :
    unmapWith c (mapFuel c (f + 1)) m s = unmapModule c m s := by
  by_cases h : s.responder (s.modAt m).deviceId = some m
  · rw [unmapWith_mapFuel h, unmapModule_of_responder h]
  · rw [unmapModule_of_nonResponder h]
    exact if_pos h

/-- At any depth from two on `map` does what `mapModule` does (R141). -/
theorem mapFuel_add_two (c : Config) (f : Nat) (m : Slot) (s : State) :
    mapFuel c (f + 2) m s = mapModule c m s := by
  rw [mapModule_eq, mapFuel]
  cases s.responder (s.modAt m).deviceId with
  | none => rfl
  | some r => simp only [unmapWith_mapFuel_succ]

/-! ### The claim -/

theorem not_inWindow {d : DevId} (h : windowIds ≤ d.toNat) : ¬ inWindow d = true := fun hw => by
  have := (inWindow_iff d).1 hw
  omega

/-- In the window a claim shows the shadow of the module. -/
theorem read_claim_inside (hw : (s.modAt m).deviceId.toNat < windowIds) {o : Nat} (ho : o < c.capBytes) :
    (claim c m s).live.read ((s.modAt m).deviceId.toNat * idSlotBytes + o) = (s.modAt m).shadow.read o := by
  rw [read_claim_live, if_pos ⟨(inWindow_iff _).2 hw, Nat.le_add_right _ _, Nat.add_lt_add_left ho _⟩,
    Nat.add_sub_cancel_left]

theorem claim_live_beyond (h : windowIds ≤ (s.modAt m).deviceId.toNat) : (claim c m s).live = s.live := by
  rw [claim_live, if_neg (not_inWindow h)]

/-! ### The eviction -/

/-- In the window an eviction shows the shadow of the next claimant. -/
theorem read_evicted_some {k : Slot} (hn : nextClaimant s m (s.modAt m).deviceId = some k)
    (hw : (s.modAt m).deviceId.toNat < windowIds) {o : Nat} (ho : o < c.capBytes) :
    (evicted c m s).live.read ((s.modAt m).deviceId.toNat * idSlotBytes + o) = (s.modAt k).shadow.read o := by
  rw [read_evicted_live, if_pos ⟨(inWindow_iff _).2 hw, Nat.le_add_right _ _, Nat.add_lt_add_left ho _⟩, hn,
    Nat.add_sub_cancel_left]

/-- In the window an eviction without a next claimant leaves zeros. -/
theorem read_evicted_none (hn : nextClaimant s m (s.modAt m).deviceId = none)
    (hw : (s.modAt m).deviceId.toNat < windowIds) {o : Nat} (ho : o < c.capBytes) :
    (evicted c m s).live.read ((s.modAt m).deviceId.toNat * idSlotBytes + o) = 0#8 := by
  rw [read_evicted_live, if_pos ⟨(inWindow_iff _).2 hw, Nat.le_add_right _ _, Nat.add_lt_add_left ho _⟩, hn]

/-- In the window the evicted module's shadow holds what stood in its region. -/
theorem evicted_shadow_read (hw : (s.modAt m).deviceId.toNat < windowIds) {o : Nat} (ho : o < c.capBytes) :
    ((evicted c m s).modAt m).shadow.read o = s.live.read ((s.modAt m).deviceId.toNat * idSlotBytes + o) := by
  rw [evicted_modAt, read_saveImage_shadow, if_pos ⟨(inWindow_iff _).2 hw, ho⟩]

theorem evicted_shadow_beyond (h : windowIds ≤ (s.modAt m).deviceId.toNat) :
    ((evicted c m s).modAt m).shadow = (s.modAt m).shadow := by
  rw [evicted_modAt, saveImage, if_neg (not_inWindow h)]

/-- Outside the window, and outside the region, an eviction changes no byte of the live buffer. -/
theorem read_evicted_elsewhere {a : Nat} (h : windowIds ≤ (s.modAt m).deviceId.toNat ∨
      a < (s.modAt m).deviceId.toNat * idSlotBytes ∨
      (s.modAt m).deviceId.toNat * idSlotBytes + c.capBytes ≤ a) :
    (evicted c m s).live.read a = s.live.read a := by
  obtain h | h := h
  · rw [evicted_live_outside (not_inWindow h)]
  · exact read_evicted_outside h

/-- An eviction changes the table, the live buffer and the modules, nothing else. -/
theorem evicted_frame (c : Config) (m : Slot) (s : State) : evicted c m s =
    { s with resp := (evicted c m s).resp, live := (evicted c m s).live, mods := (evicted c m s).mods } := by
  rw [evicted, saveImage_eq, State.setMod]

/-- The module that arrives is the next claimant of the one it evicts, when that one comes before all others. -/
theorem nextClaimant_of_arrival (hm : Active s m) (hlt : m < r)
    (hid : (s.modAt r).deviceId = (s.modAt m).deviceId)
    (hleast : ∀ j, Active s j → j ≠ m → (s.modAt j).deviceId = (s.modAt m).deviceId → r ≤ j) :
    nextClaimant s r (s.modAt r).deviceId = some m := by
  refine nextClaimant_eq_some.2 ⟨hm, ne_of_lt hlt, hid.symm, fun j hj _ hjd => ?_⟩
  by_cases hjm : j = m
  · exact hjm.ge
  · exact hlt.le.trans (hleast j hj hjm (hjd.trans hid))

end Arbitration

end Sys2Proof.Machine

/-! SUPPORT. What the invariants determine: the responder table, the bytes of the live buffer that a visible image
shows, and what an external reader sees of a slot without a responder. -/

namespace Sys2Proof.Machine

/-! ### The table and the live buffer -/

section Restore

variable {c : Config} {s t : State} {m : Slot}

/-- The responder of a claimed ID is the entry at every slot of the claimed range. -/
theorem ResponderInv.entry_of_claims (hR : ResponderInv c s) (hr : s.responder (s.modAt m).deviceId = some m)
    {i : Fin 512} (hi : Claims c (s.modAt m) i.val) : s.resp[i] = some m :=
  ((hR.range _ m (by rw [← State.responder_eq]; exact hr)).2 i).2 hi

/-- A module in the table of one state is in the table of any other that agrees in the existing modules and their
identities: it is the smallest claimant of its ID. -/
theorem ResponderInv.entry_transfer (hs : ResponderInv c s) (ht : ResponderInv c t)
    (hx : t.expansion = s.expansion) (hid : ∀ j, (t.modAt j).deviceId = (s.modAt j).deviceId) {i : Fin 512}
    (hi : s.resp[i] = some m) : t.resp[i] = some m := by
  have hact : ∀ j, Active t j ↔ Active s j := fun j => by simp only [Active, hx]
  obtain ⟨hm, hrange⟩ := hs.range i m hi
  have hself : s.responder (s.modAt m).deviceId = some m := responder_of_entry hrange hi
  obtain ⟨r, hr, -, -, hrleast⟩ := hs.least m hm
  obtain rfl : r = m := Option.some.inj (hr.symm.trans hself)
  obtain ⟨q, hq, hqa, hqd, hqleast⟩ := ht.least r ((hact r).2 hm)
  rw [hid, hid] at hqd
  obtain rfl : q = r := le_antisymm (hqleast r ((hact r).2 hm) rfl) (hrleast q ((hact q).1 hqa) hqd)
  exact ht.entry_of_claims hq ((Claims.congr (hid q) _).2 ((hrange i).1 hi))

/-- The responder invariant fixes the table: the existing modules and their identities determine it
(10_state.md R47). -/
theorem ResponderInv.resp_eq (hs : ResponderInv c s) (ht : ResponderInv c t) (hx : t.expansion = s.expansion)
    (hid : ∀ j, (t.modAt j).deviceId = (s.modAt j).deviceId) : t.resp = s.resp := by
  refine State.resp_ext fun i => Option.ext fun q => ⟨fun hi => ?_, fun hi => ?_⟩
  · exact ht.entry_transfer hs hx.symm (fun j => (hid j).symm) hi
  · exact hs.entry_transfer ht hx hid hi

/-- A buffer of its size lists nothing beyond it. -/
theorem BufferInv.read_beyond (hB : BufferInv c s) {a : Nat} (ha : liveBytes ≤ a) : s.live.read a = 0#8 :=
  Memory.read_of_not_listed _ _ fun x hx => ((hB.live_size x hx).trans_le ha).ne

/-- Two states with one table and the same identities that agree in the image of a responder and outside its region
have the same live buffer: in the window the region shows the image, beyond it the buffer lists nothing. -/
theorem live_eq_of_image (hs : BufferInv c s) (ht : BufferInv c t) (hr : s.responder (s.modAt m).deviceId = some m)
    (hresp : t.resp = s.resp) (hid : (t.modAt m).deviceId = (s.modAt m).deviceId)
    (himage : ∀ o < c.capBytes, imageByte t m o = imageByte s m o)
    (hout : ∀ a, (a < (s.modAt m).deviceId.toNat * idSlotBytes ∨
      (s.modAt m).deviceId.toNat * idSlotBytes + c.capBytes ≤ a) → t.live.read a = s.live.read a) :
    t.live = s.live := by
  have hrt : t.responder (t.modAt m).deviceId = some m := by
    rw [State.responder_eq, hresp, ← State.responder_eq, hid, hr]
  refine Memory.ext_read ht.live_wf hs.live_wf fun a => ?_
  by_cases hin : (s.modAt m).deviceId.toNat * idSlotBytes ≤ a ∧
      a < (s.modAt m).deviceId.toNat * idSlotBytes + c.capBytes
  · obtain ⟨o, rfl⟩ := Nat.exists_eq_add_of_le hin.1
    by_cases hw : (s.modAt m).deviceId.toNat < windowIds
    · have h := himage o (Nat.lt_of_add_lt_add_left hin.2)
      rwa [imageByte_of_visible ⟨hrt, hid ▸ hw⟩, imageByte_of_visible ⟨hr, hw⟩, hid] at h
    · have hbeyond : liveBytes ≤ (s.modAt m).deviceId.toNat * idSlotBytes + o := by
        simp only [liveBytes, idSlotBytes, windowIds] at hw ⊢
        omega
      rw [hs.read_beyond hbeyond, ht.read_beyond hbeyond]
  · exact hout a (by omega)

end Restore

/-! ### The zero slots -/

/-- What an external reader sees of one byte inside the live buffer (60_exceptions.md R301). -/
theorem peek_one {s : State} {a : Nat} (h : a < liveBytes) : s.peek a 1 = some (s.live.read a).toNat := by
  rw [State.peek, if_pos (Nat.succ_le_of_lt h)]
  simp [liveRead]

/-- An external reader sees zeros in a slot of the window without a responder. -/
theorem ZeroSlots.peek {s : State} (hz : ZeroSlots s) {i : Fin 512} (hi : i.val < windowIds)
    (hn : s.resp[i] = none) {o : Nat} (ho : o < idSlotBytes) : s.peek (i.val * idSlotBytes + o) 1 = some 0 := by
  have hlive : i.val * idSlotBytes + o < liveBytes := by
    simp only [windowIds, idSlotBytes, liveBytes] at *
    omega
  rw [peek_one hlive, hz i hi hn _ (Nat.le_add_right _ _) (by rw [Nat.succ_mul]; omega)]
  rfl

end Sys2Proof.Machine

/-! SUPPORT. Images: no operation but a store changes a byte of one, and a store changes none outside its span
(40_arbitration.md R140, 70_reset_and_hazards.md R322, R323). -/

namespace Sys2Proof.Machine

/-! ### Operations that keep every image -/

/-- The existing modules of s and their images are those of t. -/
structure ImagesKept (c : Config) (s t : State) : Prop where
  expansion : t.expansion = s.expansion
  images : ∀ m, Active s m → ∀ o < c.capBytes, imageByte t m o = imageByte s m o

section Kept

variable {c : Config} {s t u : State} {m : Slot}

theorem ImagesKept.refl (c : Config) (s : State) : ImagesKept c s s := ⟨rfl, fun _ _ _ _ => rfl⟩

theorem ImagesKept.active (h : ImagesKept c s t) (hm : Active s m) : Active t m := by
  unfold Active
  rw [h.expansion]
  exact hm

theorem ImagesKept.trans (h : ImagesKept c s t) (g : ImagesKept c t u) : ImagesKept c s u :=
  ⟨g.expansion.trans h.expansion, fun m hm o ho =>
    (g.images m (h.active hm) o ho).trans (h.images m hm o ho)⟩

/-- What disturbs nothing and changes no byte of the live buffer keeps the images. -/
theorem Undisturbed.imagesKept (h : Undisturbed s t) (hl : t.live = s.live) : ImagesKept c s t :=
  ⟨h.expansion, fun m _ o _ => imageByte_congr hl h.resp (h.deviceId m) (h.shadow m) o⟩

theorem burstWords_live (c : Config) (k : Nat) :
    ∀ (a : Nat) (s : State), (burstWords c a k s).1.live = s.live := by
  induction k with
  | zero => exact fun _ _ => rfl
  | succ k ih =>
    intro a s
    rw [burstWords, ih, memRead, hookMemIf_live, book_live]

theorem burstRead_live (c : Config) (a k : Nat) (s : State) : (burstRead c a k s).1.live = s.live := by
  unfold burstRead
  split_ifs
  · rfl
  · exact burstWords_live c k a s

/-- A single read and a burst read, whatever they return. -/
theorem imagesKept_memRead (hl : c.layout = specLayout) (a n : Nat) (tag : Tag) (shape : Nat → ReadData) (s : State) :
    ImagesKept c s (returning (memRead c a n tag s) shape) := by
  refine ((accessed_memRead hl a n tag s).trans (accessed_returns _ _)).imagesKept ?_
  rw [State.returns_live, memRead, hookMemIf_live, book_live]

theorem imagesKept_burstRead (hl : c.layout = specLayout) (a k : Nat) (s : State) :
    ImagesKept c s (returning (burstRead c a k s) .words) :=
  ((accessed_burstRead hl a k s).trans (accessed_returns _ _)).imagesKept (burstRead_live c a k s)

theorem imagesKept_regRead (c : Config) (d : DevId) (upper : Bool) (idx : RegIdx) (gate : Bool) (s : State) :
    ImagesKept c s (regRead c d upper idx gate s) := by
  obtain ⟨-, -, hl, -⟩ := regRead_frame c d upper idx gate s
  exact (accessed_regRead c d upper idx gate s).imagesKept hl

theorem imagesKept_done (c : Config) (s : State) (e : Event) (r : ReadData) :
    ImagesKept c s ((s.emit e).returns r) :=
  ((accessed_emit s e).trans (accessed_returns _ r)).imagesKept rfl

/-- A write to one module: an identity write moves the images whole, any other write touches none. -/
theorem imagesKept_modWrite (upper : Bool) (idx : RegIdx) (w : Word) (hI : Inv c s) (hm : Active s m) :
    ImagesKept c s (modWrite c m upper idx w s) := by
  by_cases h : sel upper idx = .deviceId
  · rw [modWrite_of_identity h]
    have hw := writeDeviceId_spec w hI hm
    exact ⟨hw.expansion, hw.images⟩
  · obtain ⟨hid, -, hshadow⟩ := writeReg_identity c (sel upper idx) w (s.modAt m)
    rw [modWrite_of_plain h]
    exact ⟨rfl, fun j _ o _ => imageByte_congr (State.setMod_live ..) (State.setMod_resp ..)
      (deviceId_setMod hid j) (shadow_setMod hshadow j) o⟩

/-- Writes to existing modules, one after another, with the invariant between them. -/
theorem imagesKept_foldl_modWrite (upper : Bool) (idx : RegIdx) (w : Word) (l : List Slot) :
    ∀ s, Inv c s → (∀ m ∈ l, Active s m) →
      ImagesKept c s (l.foldl (fun t m => modWrite c m upper idx w t) s) := by
  induction l with
  | nil => exact fun s _ _ => .refl c s
  | cons x xs ih =>
    intro s hI hl
    obtain ⟨hx, hxs⟩ := List.forall_mem_cons.1 hl
    have hfirst := imagesKept_modWrite upper idx w hI hx
    exact hfirst.trans (ih _ (modWrite_inv hI hx) fun m hm => hfirst.active (hxs m hm))

theorem imagesKept_regWrite (bc : Bool) (id : DevId) (upper : Bool) (idx : RegIdx) (w : Word) (hI : Inv c s) :
    ImagesKept c s (regWrite c bc id upper idx w s) := by
  cases bc with
  | true =>
    rw [regWrite_broadcast]
    exact (imagesKept_foldl_modWrite upper idx w _ s hI fun m => (mem_activeSlots _ m).1).trans
      (imagesKept_done c _ _ _)
  | false =>
    cases hr : s.responder id with
    | none =>
      rw [regWrite_of_none hr]
      exact ((accessed_recordNoResponder _ _ s).imagesKept rfl).trans (imagesKept_done c _ _ _)
    | some r =>
      have hact : Active s r := Reached.active (.inr ⟨id, hr⟩) hI.responders
      rw [regWrite_of_responder hr]
      exact (imagesKept_modWrite upper idx w hI hact).trans (imagesKept_done c _ _ _)

theorem imagesKept_riWrite (ridx : BitVec 3) (w : Word) (r : Ri) (st : Status) (s : State) :
    ImagesKept c s (riWrite ridx w { s with ri := r, status := st }) :=
  (undisturbed_riWrite ridx w r st s).imagesKept rfl

end Kept

/-- An operation that names no store destination keeps every image, RESET excepted. -/
theorem exec_imagesKept {i : Instr} {s t : State} (hI : Inv Config.impl s) (hspan : storeSpan i = none)
    (hreset : isReset i = false) (h : exec i s = .next t) : ImagesKept Config.impl s t := by
  cases i with
  | stB | stH | stW | stD | stb4 | stb8 => exact nomatch hspan
  | reset => exact nomatch hreset
  | ldB | ldH | ldW | ldD =>
    obtain ⟨-, rfl⟩ := memOp_next.1 h
    exact imagesKept_memRead Config.impl_layout _ _ _ _ s
  | ldb4 | ldb8 =>
    obtain ⟨-, rfl⟩ := memOp_next.1 h
    exact imagesKept_burstRead Config.impl_layout _ _ s
  | rrDeviceType | rrDeviceId | rrDelay | rrMode | rrRefInterval | rrRefRow | rrRasInterval | rrMinInterval
  | rrAddrSelect | rrDeviceManuf | rrRow0 | rrRow1 | rrNone =>
    obtain rfl := Host.Outcome.next.inj h
    exact imagesKept_regRead _ _ _ _ _ s
  | rwDeviceType | rwDeviceId | rwDelay | rwMode | rwRefInterval | rwRefRow | rwRasInterval | rwMinInterval
  | rwAddrSelect | rwDeviceManuf | rwRow0 | rwRow1 | rwNone =>
    obtain rfl := Host.Outcome.next.inj h
    exact imagesKept_regWrite _ _ _ _ _ hI
  | rirMode | rirConfig | rirCurrentLoad | rirSelect | rirRefresh | rirLatency | rirError | rirBankStatus =>
    obtain rfl := Host.Outcome.next.inj h
    exact imagesKept_done _ s _ _
  | riwMode | riwConfig | riwCurrentLoad | riwSelect | riwRefresh | riwLatency | riwError | riwBankStatus =>
    obtain rfl := Host.Outcome.next.inj h
    exact imagesKept_riWrite _ _ _ _ s

/-! ### Stores -/

/-- A store of n bytes at a: what it leaves of s in t, inside one slot and where its data moves. -/
structure Stored (s t : State) (a n : Nat) : Prop where
  undisturbed : Undisturbed s t
  oneSlot : ∀ x, a ≤ x → x < a + n → memId specLayout x = memId specLayout a
  outside : s.live.wf → ∀ x, ¬ (a ≤ x ∧ x < a + n) → t.live.read x = s.live.read x
  unmoved : ¬ DataMoves s a n → t.live = s.live

/-- A single store operation. -/
theorem stored_of_memWrite {i : Instr} {a : BitVec 32} {n v : Nat} {tag : Tag} {s t : State}
    (hi : ∀ s, exec i s = memOp a n ((memWrite Config.impl a.toNat n v tag s).returns .nothing))
    (hn : n ∣ idSlotBytes) (h : exec i s = .next t) : Stored s t a.toNat n := by
  obtain ⟨⟨hspace, halign⟩, rfl⟩ := memOp_next.1 ((hi s).symm.trans h)
  have hl := Config.impl_layout
  obtain ⟨-, -, -, hmoved, hunmoved⟩ := memWrite_spec Config.impl hl hspace n v tag s
  refine ⟨((accessed_memWrite hl v tag s hn halign).trans (accessed_returns _ _)).toUndisturbed,
    fun x => memId_of_aligned hn halign, fun hw x hx => ?_, hunmoved⟩
  rw [State.returns_live]
  by_cases hd : DataMoves s a.toNat n
  · rw [hmoved hd, read_liveWrite hw, if_neg hx]
  · rw [hunmoved hd]

/-- The data of an aligned burst moves where the data of any of its words does. -/
theorem dataMoves_of_word {s : State} {a n b : Nat} (hn : n ∣ idSlotBytes) (ha : a % n = 0) (hlive : a < liveBytes)
    (h1 : a ≤ b) (h2 : b < a + n) (h : DataMoves s b 4) : DataMoves s a n := by
  obtain ⟨r, hr, hv, -⟩ := h
  rw [memId_of_aligned hn ha h1 h2] at hr
  exact ⟨r, hr, hv, room_of_mod ha (hn.trans (by decide)) hlive⟩

/-- A burst store operation of four or eight words. -/
theorem stored_of_burstWrite {i : Instr} {a : BitVec 32} {ws : List Word} {s t : State}
    (hk : ws.length = 4 ∨ ws.length = 8)
    (hi : ∀ s, exec i s = memOp a (4 * ws.length) ((burstWrite Config.impl a.toNat ws s).returns .nothing))
    (h : exec i s = .next t) : Stored s t a.toNat (4 * ws.length) := by
  obtain ⟨⟨hspace, halign⟩, rfl⟩ := memOp_next.1 ((hi s).symm.trans h)
  have hl := Config.impl_layout
  have hn : 4 * ws.length ∣ idSlotBytes := by
    obtain hk | hk := hk <;> rw [hk] <;> decide
  have hfour : a.toNat % 4 = 0 := by
    obtain hk | hk := hk <;> rw [hk] at halign <;> omega
  have hslot : ∀ x, a.toNat ≤ x → x < a.toNat + 4 * ws.length → memId specLayout x = memId specLayout a.toNat :=
    fun x => memId_of_aligned hn halign
  have hu := ((accessed_burstWrite hl ws s hfour).trans (accessed_returns _ .nothing)).toUndisturbed
  by_cases hlive : liveBytes ≤ a.toNat
  · have hsame : burstWrite Config.impl a.toNat ws s = s := if_pos hlive
    refine ⟨hu, hslot, fun _ x _ => ?_, fun _ => ?_⟩ <;> rw [State.returns_live, hsame]
  · have hrow : (a.toNat + 4 * ws.length - 1) / 2 ^ 11 = a.toNat / 2 ^ 11 := by
      obtain hk | hk := hk <;> rw [hk] at halign ⊢ <;> omega
    obtain ⟨-, -, -, hmoved, hunmoved⟩ :=
      burstStores_spec Config.impl hl a.toNat ws a.toNat s hspace fun _ => ⟨rfl, hrow⟩
    have hstores : burstWrite Config.impl a.toNat ws s = burstStores Config.impl a.toNat ws s := if_neg hlive
    have hnone : ¬ DataMoves s a.toNat (4 * ws.length) → (burstStores Config.impl a.toNat ws s).live = s.live :=
      fun hd => hunmoved fun k hk hw => hd (dataMoves_of_word hn halign (not_le.1 hlive) (by omega) (by omega) hw)
    refine ⟨hu, hslot, fun hw x hx => ?_, fun hd => ?_⟩
    · rw [State.returns_live, hstores]
      by_cases hd : DataMoves s a.toNat (4 * ws.length)
      · rw [hmoved hd, read_wordsWritten_outside hw (by omega)]
      · rw [hnone hd]
    · rw [State.returns_live, hstores, hnone hd]

/-- Every operation that names a store destination is a store there. -/
theorem exec_stored {i : Instr} {s t : State} {a n : Nat} (hspan : storeSpan i = some (a, n))
    (h : exec i s = .next t) : Stored s t a n := by
  cases i with
  | stB | stH | stW | stD =>
    cases hspan
    exact stored_of_memWrite (fun _ => rfl) (by decide) h
  | stb4 a w0 w1 w2 w3 =>
    cases hspan
    exact stored_of_burstWrite (ws := [w0, w1, w2, w3]) (.inl rfl) (fun _ => rfl) h
  | stb8 a w0 w1 w2 w3 w4 w5 w6 w7 =>
    cases hspan
    exact stored_of_burstWrite (ws := [w0, w1, w2, w3, w4, w5, w6, w7]) (.inr rfl) (fun _ => rfl) h
  | _ => exact nomatch hspan

/-- The responder of every address in the region of a visible module is that module. -/
theorem responder_in_region {c : Config} {s : State} {m : Slot} (hA : Aligned c s) (hR : ResponderInv c s)
    (hm : Active s m) (hr : s.responder (s.modAt m).deviceId = some m) {o : Nat} (ho : o < c.capBytes) :
    s.responder (memId specLayout ((s.modAt m).deviceId.toNat * idSlotBytes + o)) = some m := by
  have hroom : (s.modAt m).deviceId.toNat + c.capMib ≤ 512 :=
    room_of_mod (hA m hm) c.capMib_dvd (s.modAt m).deviceId.isLt
  have hclaims : Claims c (s.modAt m)
      (memId specLayout ((s.modAt m).deviceId.toNat * idSlotBytes + o)).toNat := by
    rw [memId_toNat]
    simp only [Claims, Config.capBytes, idSlotBytes] at ho ⊢
    omega
  rw [State.responder_eq]
  exact ((hR.range _ m (by rw [← State.responder_eq]; exact hr)).2 _).2 hclaims

/-- A store changes a byte of an image only inside its span, in the region of the module that answers it. -/
theorem Stored.imageByte {c : Config} {s t : State} {a n : Nat} (h : Stored s t a n) (hI : Inv c s) {m : Slot}
    (hm : Active s m) {o : Nat} (ho : o < c.capBytes) :
    imageByte t m o = imageByte s m o ∨
      DataMoves s a n ∧ s.responder (memId specLayout a) = some m ∧
        a ≤ (s.modAt m).deviceId.toNat * idSlotBytes + o ∧
        (s.modAt m).deviceId.toNat * idSlotBytes + o < a + n := by
  have hu := h.undisturbed
  by_cases hd : DataMoves s a n
  · by_cases hv : s.responder (s.modAt m).deviceId = some m ∧ (s.modAt m).deviceId.toNat < windowIds
    · by_cases hin : a ≤ (s.modAt m).deviceId.toNat * idSlotBytes + o ∧
          (s.modAt m).deviceId.toNat * idSlotBytes + o < a + n
      · have hresp := responder_in_region hI.modules.aligned hI.responders hm hv.1 ho
        rw [h.oneSlot _ hin.1 hin.2] at hresp
        exact .inr ⟨hd, hresp, hin⟩
      · rw [imageByte_of_visible hv, imageByte_of_visible (by rw [hu.responder, hu.deviceId]; exact hv),
          hu.deviceId, h.outside hI.buffers.live_wf _ hin]
        exact .inl rfl
    · rw [imageByte_of_hidden hv, imageByte_of_hidden (by rw [hu.responder, hu.deviceId]; exact hv), hu.shadow]
      exact .inl rfl
  · exact .inl ((hu.imagesKept (h.unmoved hd)).images m hm o ho)

end Sys2Proof.Machine

/-! PROOFS. Arbitration (40_arbitration.md). -/

namespace Sys2Proof.Machine

/-! ### `map` -/

/-- Settles O42: two nested calls give the same as four. -/
theorem arbitrationDepthIsBounded : Obligations.ArbitrationDepthIsBounded := by
  intro c fuel m s h
  obtain ⟨f, rfl⟩ := Nat.exists_eq_add_of_le' h
  exact mapFuel_add_two c f m s

/-- Settles O37: the last case of `map`, which evicts only for a strictly smaller slot. -/
theorem mapYieldsToHigherPriority : Obligations.MapYieldsToHigherPriority :=
  fun _ _ _ _ hr hle => mapModule_of_held hr hle

/-- Settles O36: `map` of such a module is the claim. -/
theorem mapClaimsUnclaimedId : Obligations.MapClaimsUnclaimedId := by
  intro c s m h
  simp only [mapModule_of_unclaimed h]
  exact ⟨claim_resp_get c m s, fun hw => ⟨fun o => read_claim_inside hw, fun a => read_claim_outside⟩,
    claim_live_beyond, rfl⟩

/-- Settles O38: `map` of such a module is the eviction of the responder, whose next claimant it is. -/
theorem mapEvictsLowerPriority : Obligations.MapEvictsLowerPriority := by
  intro c s m r hm _ hr hlt hid hleast
  have hn := nextClaimant_of_arrival hm hlt hid hleast
  have hget := evicted_resp_get c r s
  simp only [mapModule_of_lower hr hlt hid, ← hid, ← Claims.congr (c := c) hid]
  refine ⟨fun i => hn ▸ hget i, fun hw o ho => ⟨read_evicted_some hn hw ho, evicted_shadow_read hw ho⟩,
    evicted_shadow_beyond, fun a => read_evicted_elsewhere, saveImage_registers c r r s,
    fun j hj => saveImage_modAt_ne c s hj, evicted_frame c r s⟩

/-! ### `unmap` -/

/-- Settles O39: the first case of `unmap`. -/
theorem unmapOfNonResponderIsNoOp : Obligations.UnmapOfNonResponderIsNoOp :=
  fun _ _ _ h => unmapModule_of_nonResponder h

/-- Settles O40: the eviction has no next claimant, and after it the module is no responder. -/
theorem vacatedIdIsZeroFilled : Obligations.VacatedIdIsZeroFilled := by
  intro c s m hr halone
  have hn : nextClaimant s m (s.modAt m).deviceId = none := nextClaimant_eq_none.2 halone
  have hget := evicted_resp_get c m s
  rw [hn] at hget
  have hgone : (evicted c m s).responder ((evicted c m s).modAt m).deviceId ≠ some m := by
    rw [evicted_modAt, saveImage_deviceId, State.responder_eq, (hget _).1 (Claims.self c _)]
    exact (Option.some_ne_none m).symm
  simp only [unmapModule_of_responder hr]
  exact ⟨hget, fun hw o ho => ⟨read_evicted_none hn hw ho, evicted_shadow_read hw ho⟩, evicted_shadow_beyond,
    fun a => read_evicted_elsewhere, saveImage_registers c m m s, fun j hj => saveImage_modAt_ne c s hj,
    evicted_frame c m s, unmapModule_of_nonResponder hgone⟩

/-- Settles O41: the pair keeps the responder invariant, which fixes the table, and the image of the module, which
the live buffer shows before and after. -/
theorem unmapThenMapRestores : Obligations.UnmapThenMapRestores := by
  intro s m hI hm hr
  have hA := hI.modules.aligned
  obtain ⟨hx, -, -, -, -, -, hreg, -⟩ := unmapModule_frame Config.impl m s
  have hid : ∀ j, ((unmapModule Config.impl m s).modAt j).deviceId = (s.modAt j).deviceId :=
    fun j => (hreg j).deviceId
  have hbut := unmapModule_responders hI.responders hA hm
  have hB := bufferInv_unmapModule hI.buffers hA hm
  have hA' : Aligned Config.impl (unmapModule Config.impl m s) := hA.congr hx hid
  have hm' : Active (unmapModule Config.impl m s) m := by
    unfold Active
    rw [hx]
    exact hm
  obtain ⟨hx', -, -, -, -, -, hreg', -⟩ := mapModule_frame Config.impl m (unmapModule Config.impl m s)
  have hid' := fun j => (hreg' j).deviceId.trans (hid j)
  have hresp := hI.responders.resp_eq (mapModule_responders hbut hA' hm') (hx'.trans hx) hid'
  refine ⟨hresp, live_eq_of_image hI.buffers (bufferInv_mapModule hbut hB hA' hm') hr hresp (hid' m) ?_ ?_⟩
  · intro o ho
    rw [imageByte_mapModule hbut hA' hm' hm' ho, imageByte_unmapModule hA hm hm ho]
  · intro a ha
    rw [read_mapModule_outside hbut hA' hm' (by rw [hid]; exact ha), read_unmapModule_outside ha]

/-! ### Every operation and every step -/

/-- Settles O35: an operation that names no store destination keeps every image, and one that names it changes a
byte only there. -/
theorem imagesChangeOnlyByOwnStores : Obligations.ImagesChangeOnlyByOwnStores := by
  intro i s t m o hI h hreset hm ho
  cases hspan : storeSpan i with
  | none => exact .inl ((exec_imagesKept hI hspan hreset h).images m hm o ho)
  | some span => exact ((exec_stored hspan h).imageByte hI hm ho).imp_right fun hstore => ⟨_, _, rfl, hstore⟩

/-- Settles O54: every step keeps the invariants (`step_inv`), the zero slots among them. -/
theorem stepKeepsUnmappedSlotsZero : Obligations.StepKeepsUnmappedSlotsZero := by
  intro s t hI h
  have hz := (step_inv hI h).zeroSlots
  exact ⟨hz, fun i hi hn o ho => hz.peek hi hn ho⟩

end Sys2Proof.Machine

/-! PROOFS. The module registers: what a read of a responder answers and what a write to one leaves
(41_module_registers.md). -/

namespace Sys2Proof.Machine

section Effects

variable {i : Instr} {id : DevId} {gate : Bool} {w : Word} {s : State} {r : Slot}

/-! ### Reads -/

/-- A register read that the gate lets through answers the packed register of the responder (R150). -/
theorem exec_openRead (upper : Bool) (idx : RegIdx) (reg : ModReg) {v : Word}
    (hi : exec i s = .next (regRead Config.impl id upper idx gate s)) (hsel : sel upper idx = reg)
    (hopen : gate = true ∨ alwaysOn reg = true) (hr : s.responder id = some r)
    (hv : readReg Config.impl reg (s.modAt r) = v) : exec i s = readDone s id (subAddr upper idx) v := by
  subst hsel hv
  rw [hi, regRead_of_responder hr, modRead_open hopen]
  rfl

/-- A register read that the gate turns away (R150, 60_exceptions.md R282). -/
theorem exec_gatedRead (upper : Bool) (idx : RegIdx) (reg : ModReg)
    (hi : exec i s = .next (regRead Config.impl id upper idx false s))
    (hsel : sel upper idx = reg) (hgated : alwaysOn reg = false) (hr : s.responder id = some r) :
    exec i s = readGated s id r (subAddr upper idx) := by
  subst hsel
  rw [hi, regRead_of_responder hr, modRead_gated hgated, recordGateClosed_eq]
  simp [readGated, State.emit, State.returns]

/-- The mode register with its scattered calibration field bit by bit (30_encoding.md R106). -/
theorem packMode_bits {c : Config} (hl : c.layout = specLayout) (M : MemModule) :
    packMode c M = BitVec.ofBool M.ce ++ BitVec.ofBool M.x2 ++ 0#4 ++ BitVec.ofBool M.de ++ 0#1
      ++ BitVec.ofBool ((M.cc ^^^ c.ccXor).getLsbD 5) ++ BitVec.ofBool ((M.cc ^^^ c.ccXor).getLsbD 2) ++ 0#6
      ++ BitVec.ofBool ((M.cc ^^^ c.ccXor).getLsbD 4) ++ BitVec.ofBool ((M.cc ^^^ c.ccXor).getLsbD 1) ++ 0#6
      ++ BitVec.ofBool ((M.cc ^^^ c.ccXor).getLsbD 3) ++ BitVec.ofBool ((M.cc ^^^ c.ccXor).getLsbD 0)
      ++ 0#6 := by
  rw [packMode_fields hl, ccEncode, hl, ccScatter_fields]
  apply BitVec.eq_of_getLsbD_eq
  intro i hi
  simp only [BitVec.getLsbD_append, BitVec.getLsbD_extractLsb', BitVec.getLsbD_zero]
  interval_cases i <;> simp

/-! ### Writes of the plain registers -/

/-- A register write that makes M of the responder and touches nothing else. -/
theorem exec_writeDone (upper : Bool) (idx : RegIdx) {M : MemModule}
    (hi : exec i s = .next (regWrite Config.impl false id upper idx w s))
    (hr : s.responder id = some r) (hM : modWrite Config.impl r upper idx w s = s.setMod r M) :
    exec i s = writeDone s id r (subAddr upper idx) w M := by
  rw [hi, regWrite_of_responder hr, hM]
  rfl

/-- A write to any register but the identity leaves what the register's write rule makes of the responder. -/
theorem exec_plainWrite (upper : Bool) (idx : RegIdx) (reg : ModReg) {M : MemModule}
    (hi : exec i s = .next (regWrite Config.impl false id upper idx w s)) (hsel : sel upper idx = reg)
    (hreg : reg ≠ .deviceId) (hr : s.responder id = some r) (hM : writeReg Config.impl reg w (s.modAt r) = M) :
    exec i s = writeDone s id r (subAddr upper idx) w M := by
  subst hsel hM
  exact exec_writeDone upper idx hi hr (modWrite_of_plain hreg)

/-- Mode register: the three flags, the calibration value and the validity derived from it (R164, R165). -/
theorem storeMode_fields {c : Config} (hl : c.layout = specLayout) (w : Word) (M : MemModule) :
    storeMode c w M = modeWritten c w
      (if w.getLsbD 31 then BitVec.ofNat 6 (min 63 (c.autoCal (ccDecode c w))) else ccDecode c w) M := by
  obtain ⟨hce, hx2, hde⟩ := modeFlags w
  simp only [storeMode, modeWritten, calStore, validFlag, hl, hce, hx2, hde, Bool.and_assoc, Bool.decide_and]

/-! ### Writes without effect -/

/-- A write to a register whose write rule stores nothing, broadcast or to a responder, leaves the hook event
alone. -/
theorem exec_ignoredWrite (upper : Bool) (idx : RegIdx) (reg : ModReg) {bc : Bool}
    (hi : exec i s = .next (regWrite Config.impl bc id upper idx w s)) (hsel : sel upper idx = reg)
    (hreg : reg ≠ .deviceId) (hkeep : ∀ M, writeReg Config.impl reg w M = M)
    (hr : bc = false → s.responder id ≠ none) :
    exec i s = writeIgnored s (if bc then .broadcast else .id id) (subAddr upper idx) w := by
  subst hsel
  have hsame : ∀ m, modWrite Config.impl m upper idx w s = s := fun m => by
    rw [modWrite_of_plain hreg, hkeep, State.setMod_modAt]
  cases bc with
  | true =>
    rw [hi, regWrite_broadcast, List.foldl_fixed' hsame]
    rfl
  | false =>
    obtain ⟨r, hr⟩ := Option.ne_none_iff_exists'.1 (hr rfl)
    rw [hi, regWrite_of_responder hr, hsame]
    rfl

/-! ### The device-identity write -/

/-- An identity write that leaves the effective ID alone stores the field (R162 (a)). -/
theorem writeDeviceId_of_same {c : Config} {m : Slot}
    (h : idDecode c.layout w &&& c.idMask = (s.modAt m).deviceId) :
    writeDeviceId c m w s = s.setMod m { s.modAt m with idField := idDecode c.layout w } := if_pos h

end Effects

/-! ### The statements -/

/-- Settles O21: none of the ten registers is always on. -/
theorem closedGateReadsZero : Obligations.ClosedGateReadsZero := by
  intro s id r upper idx hr hidx
  have hnone : sel upper idx = .none := sel_of_reservedIdx upper idx (decide_eq_true hidx)
  exact ⟨exec_gatedRead false 1 .deviceId rfl rfl rfl hr,
    exec_gatedRead upper 3 .mode rfl rfl rfl hr,
    exec_gatedRead upper 4 .refInterval rfl rfl rfl hr,
    exec_gatedRead upper 5 .refRow rfl rfl rfl hr,
    exec_gatedRead upper 7 .minInterval rfl rfl rfl hr,
    exec_gatedRead upper 8 .addrSelect rfl rfl rfl hr,
    exec_gatedRead upper 9 .deviceManuf rfl rfl rfl hr,
    exec_gatedRead true 0 .row0 rfl rfl rfl hr,
    exec_gatedRead true 1 .row1 rfl rfl rfl hr,
    exec_gatedRead upper idx .none rfl hnone rfl hr⟩

/-- Settles O22: the three registers are always on, so neither value of the gate turns the read away. -/
theorem alwaysOnReadsReturnFields : Obligations.AlwaysOnReadsReturnFields := by
  intro s id r upper gate hr
  exact ⟨exec_openRead false 0 .deviceType rfl rfl (.inr rfl) hr rfl,
    exec_openRead upper 2 .delay rfl rfl (.inr rfl) hr (packDelay_fields _),
    exec_openRead upper 6 .rasInterval rfl rfl (.inr rfl) hr (packRas_fields _)⟩

/-- Settles O23: the gate is open, and each register packs its fields at their positions. -/
theorem openGateReadsReturnFields : Obligations.OpenGateReadsReturnFields := by
  intro s id r upper idx hr hidx
  have hnone : sel upper idx = .none := sel_of_reservedIdx upper idx (decide_eq_true hidx)
  exact ⟨exec_openRead false 1 .deviceId rfl rfl (.inl rfl) hr (idEncode_fields _),
    exec_openRead upper 3 .mode rfl rfl (.inl rfl) hr (packMode_bits rfl _),
    exec_openRead upper 4 .refInterval rfl rfl (.inl rfl) hr rfl,
    exec_openRead upper 5 .refRow rfl rfl (.inl rfl) hr rfl,
    exec_openRead upper 7 .minInterval rfl rfl (.inl rfl) hr rfl,
    exec_openRead upper 8 .addrSelect rfl rfl (.inl rfl) hr (packSwap_fields _),
    exec_openRead upper 9 .deviceManuf rfl rfl (.inl rfl) hr rfl,
    exec_openRead true 0 .row0 rfl rfl (.inl rfl) hr (packRow0_fields _),
    exec_openRead true 1 .row1 rfl rfl (.inl rfl) hr (packRow1_fields _),
    exec_openRead upper idx .none rfl hnone (.inl rfl) hr rfl⟩

/-- Settles O25: each plain register stores its own fields of the word. -/
theorem registerWritesStoreFields : Obligations.RegisterWritesStoreFields := by
  intro s id r upper w hr
  exact ⟨exec_plainWrite upper 2 .delay rfl rfl (by decide) hr (storeDelay_fields w _),
    exec_plainWrite upper 3 .mode rfl rfl (by decide) hr (storeMode_fields rfl w _),
    exec_plainWrite upper 5 .refRow rfl rfl (by decide) hr rfl,
    exec_plainWrite upper 6 .rasInterval rfl rfl (by decide) hr (storeRas_fields w _),
    exec_plainWrite upper 8 .addrSelect rfl rfl (by decide) hr (storeSwap_fields w _),
    exec_plainWrite true 0 .row0 rfl rfl (by decide) hr (storeRow0_fields w _),
    exec_plainWrite true 1 .row1 rfl rfl (by decide) hr (storeRow1_fields w _)⟩

/-- Settles O29: the clamp on naturals comes before the value is narrowed, so that no bit of it is lost
(R164, R181). -/
theorem autoCalibrationIsClampedTransform : Obligations.AutoCalibrationIsClampedTransform := by
  intro s t id r upper w hr hauto h
  have hwrite : exec (.rwMode false id upper w) s = _ :=
    exec_plainWrite upper 3 .mode rfl rfl (by decide) hr (storeMode_fields rfl w _)
  have hcc : (t.modAt r).cc = BitVec.ofNat 6 (min 63 (Config.impl.autoCal (ccDecode Config.impl w))) := by
    rw [← Host.Outcome.next.inj (hwrite.symm.trans h), if_pos hauto]
    exact congrArg MemModule.cc (State.modAt_setMod_self s r _)
  rw [hcc, BitVec.toNat_ofNat, ← Config.impl_layout]
  exact Nat.mod_eq_of_lt (Nat.lt_succ_of_le (Nat.min_le_left ..))

/-- Settles O26: the four read-only registers and the reserved indices store nothing. -/
theorem readOnlyWritesChangeNothing : Obligations.ReadOnlyWritesChangeNothing := by
  intro s bc id upper idx w hr hidx
  have hnone : sel upper idx = .none := sel_of_reservedIdx upper idx (decide_eq_true hidx)
  exact ⟨exec_ignoredWrite false 0 .deviceType rfl rfl (by decide) (fun _ => rfl) hr,
    exec_ignoredWrite upper 4 .refInterval rfl rfl (by decide) (fun _ => rfl) hr,
    exec_ignoredWrite upper 7 .minInterval rfl rfl (by decide) (fun _ => rfl) hr,
    exec_ignoredWrite upper 9 .deviceManuf rfl rfl (by decide) (fun _ => rfl) hr,
    exec_ignoredWrite upper idx .none rfl hnone (by decide) (fun _ => rfl) hr⟩

/-- Settles O31: the identity write is a write of the one field then. -/
theorem sameIdWriteStoresFieldOnly : Obligations.SameIdWriteStoresFieldOnly := by
  intro s id r w hr hsame
  exact exec_writeDone false 1 rfl hr ((modWrite_of_identity rfl).trans (writeDeviceId_of_same hsame))

/-- Settles O32: `writeDeviceId_spec` says what the write leaves of the responder, which exists by the responder
invariant; the hook event and the empty result come on top. -/
theorem idWriteMovesModuleWithoutDataLoss : Obligations.IdWriteMovesModuleWithoutDataLoss := by
  intro s id r w hI hr
  have hact : Active s r := Reached.active (.inr ⟨id, hr⟩) hI.responders
  have hw := writeDeviceId_spec w hI hact
  have hexec : exec (.rwDeviceId false id w) s
      = .next (((writeDeviceId Config.impl r w s).emit (.hookReg .write (.id id) 0x01 w)).returns .nothing) :=
    congrArg Host.Outcome.next (regWrite_of_responder hr)
  generalize writeDeviceId Config.impl r w s = u at hw hexec
  refine ⟨_, hexec, hw.inv.responders.congr rfl rfl fun _ => rfl, hw.idField, hw.deviceId, hw.registers,
    hw.others, hw.images, hw.outside, hw.expansion, hw.status, hw.ri, hw.pending, rfl, ?_⟩
  rw [State.returns_trace, State.emit_trace, hw.trace]

end Sys2Proof.Machine

/-! PROOFS. The Registry dispatch (42_registry_dispatch.md): accesses that find no responder, broadcast writes, and
the end-to-end scenario. -/

namespace Sys2Proof.Machine

section Dispatch

variable {i : Instr} {id : DevId} {gate : Bool} {w : Word} {s : State}

/-! ### No responder (R204) -/

/-- A register read of an ID without a responder does not get as far as the gate. -/
theorem exec_missedRead (upper : Bool) (idx : RegIdx)
    (hi : exec i s = .next (regRead Config.impl id upper idx gate s)) (hr : s.responder id = none) :
    exec i s = readMissed s id (subAddr upper idx) := by
  rw [hi, regRead_of_none hr]
  simp [readMissed, recordNoResponder, markAckErr, State.emit, State.returns]

/-- A non-broadcast register write to an ID without a responder reaches no module. -/
theorem exec_missedWrite (upper : Bool) (idx : RegIdx)
    (hi : exec i s = .next (regWrite Config.impl false id upper idx w s)) (hr : s.responder id = none) :
    exec i s = writeMissed s id (subAddr upper idx) w := by
  rw [hi, regWrite_of_none hr]
  simp [writeMissed, recordNoResponder, markAckErr, State.emit, State.returns]

/-! ### Broadcast (R205) -/

/-- A broadcast write to any register but the identity makes of every existing module what the register's write
rule makes of one. -/
theorem exec_broadcastPlain (upper : Bool) (idx : RegIdx) (reg : ModReg) {f : MemModule → MemModule}
    (hi : exec i s = .next (regWrite Config.impl true id upper idx w s)) (hsel : sel upper idx = reg)
    (hreg : reg ≠ .deviceId) (hf : ∀ M, writeReg Config.impl reg w M = f M) :
    BroadcastDone (exec i s) s (subAddr upper idx) w f := by
  subst hsel
  obtain ⟨hact, hinact, hframe⟩ := broadcast_plain (c := Config.impl) (w := w) (s := s) hreg
  rw [hi, regWrite_broadcast]
  exact ⟨_, rfl, fun m hm => (hact m hm).trans (hf _), hinact,
    congrArg (fun t => (t.emit (.hookReg .write .broadcast (subAddr upper idx) w)).returns .nothing) hframe⟩

/-- A broadcast identity write is an identity write to each existing module, one after another. -/
theorem broadcast_identity {c : Config} (w : Word) (hI : Inv c s) :
    IdsWritten c w s ((activeSlots s.expansion).foldl (fun u m => modWrite c m false 1 w u) s) (Active s) := by
  have hmem : ∀ m, m ∈ activeSlots s.expansion ↔ Active s m := mem_activeSlots s.expansion
  have h := IdsWritten.foldl (activeSlots s.expansion) (activeSlots_nodup _) (fun m => (hmem m).1) s _
    (IdsWritten.refl (w := w) hI) fun _ _ => not_false
  simp only [modWrite_of_identity (show sel false 1 = .deviceId from rfl)]
  simpa only [hmem, false_or] using h

end Dispatch

/-! ### The responder table -/

section Table

variable {c : Config} {s : State} {m : Slot}

/-- The smallest claimant of an ID answers there (10_state.md R47 (c)). -/
theorem ResponderInv.responder_of_least (hR : ResponderInv c s) (hm : Active s m)
    (hleast : ∀ j, Active s j → (s.modAt j).deviceId = (s.modAt m).deviceId → m ≤ j) :
    s.responder (s.modAt m).deviceId = some m := by
  obtain ⟨r, hr, hra, hrd, hrleast⟩ := hR.least m hm
  rw [hr, le_antisymm (hrleast m hm rfl) (hleast r hra hrd)]

/-- A module that answers at its own ID answers at exactly its claimed range (10_state.md R47 (b)). -/
theorem ResponderInv.entry_iff_claims (hR : ResponderInv c s) (hr : s.responder (s.modAt m).deviceId = some m)
    (i : Fin 512) : s.resp[i] = some m ↔ Claims c (s.modAt m) i.val :=
  (hR.range (s.modAt m).deviceId.toFin m (by rwa [← State.responder_eq])).2 i

/-- No module answers at an ID that no existing module claims. -/
theorem ResponderInv.entry_of_unclaimed (hR : ResponderInv c s) {i : Fin 512}
    (h : ∀ m, Active s m → ¬ Claims c (s.modAt m) i.val) : s.resp[i] = none := by
  refine Option.eq_none_iff_forall_ne_some.2 fun m hm => ?_
  obtain ⟨hact, hrange⟩ := hR.range i m hm
  exact h m hact ((hrange i).1 hm)

/-- Module 0 comes before every other claimant of its ID. -/
theorem ResponderInv.responder_zero (hR : ResponderInv c s) : s.responder (s.modAt 0).deviceId = some 0 :=
  hR.responder_of_least (active_slot_zero s) fun j _ _ => Fin.zero_le j

/-- Module 1 answers at its ID unless module 0 claims it too. -/
theorem ResponderInv.responder_one (hR : ResponderInv c s) (h1 : Active s 1)
    (hid : (s.modAt 0).deviceId ≠ (s.modAt 1).deviceId) : s.responder (s.modAt 1).deviceId = some 1 := by
  refine hR.responder_of_least h1 fun j _ hj => ?_
  have hj0 : j ≠ 0 := by
    rintro rfl
    exact hid hj
  exact Fin.one_le_of_ne_zero hj0

/-- When every existing module claims the ID of module 0, the table holds module 0 at the one claimed range and
nothing elsewhere. -/
theorem ResponderInv.table_of_shared (hR : ResponderInv c s)
    (hid : ∀ m, Active s m → (s.modAt m).deviceId = (s.modAt 0).deviceId) (i : Fin 512) :
    (Claims c (s.modAt 0) i.val → s.resp[i] = some 0) ∧ (¬ Claims c (s.modAt 0) i.val → s.resp[i] = none) :=
  ⟨hR.entry_of_claims hR.responder_zero,
    fun h => hR.entry_of_unclaimed fun m hm hc => h ((Claims.congr (hid m hm) _).1 hc)⟩

/-- The table after reset names module 0 alone (70_reset_and_hazards.md R311). -/
theorem eq_zero_of_initial_entry (h : s.resp = initialResp c) {i : Fin 512} (hi : s.resp[i] = some m) : m = 0 := by
  have hget : s.resp[i] = if i.val < c.capMib then some 0 else none := by
    rw [h]
    exact getElem_initialResp c i.val i.isLt
  rw [hget] at hi
  split_ifs at hi
  exact (Option.some.inj hi).symm

end Table

/-- RESET leaves factory modules, an empty live buffer and the table of reset (R310, R311). -/
theorem exec_reset_factory {exp : Bool} {s t : State} (h : exec (.reset exp) s = .next t) :
    t.expansion = exp ∧ t.mods = Vector.replicate 4 factoryModule ∧ t.live = [] ∧
    t.resp = initialResp Config.impl := by
  obtain rfl : resetBlock Config.impl exp s = t := Host.Outcome.next.inj h
  rw [resetBlock_eq]
  exact ⟨rfl, rfl, rfl, rfl⟩

/-! ### The statements -/

/-- Settles O20: none of the thirteen reads reaches a module. -/
theorem registerReadsWithoutResponder : Obligations.RegisterReadsWithoutResponder := by
  intro s id upper gate idx hr
  exact ⟨exec_missedRead false 0 rfl hr, exec_missedRead false 1 rfl hr, exec_missedRead upper 2 rfl hr,
    exec_missedRead upper 3 rfl hr, exec_missedRead upper 4 rfl hr, exec_missedRead upper 5 rfl hr,
    exec_missedRead upper 6 rfl hr, exec_missedRead upper 7 rfl hr, exec_missedRead upper 8 rfl hr,
    exec_missedRead upper 9 rfl hr, exec_missedRead true 0 rfl hr, exec_missedRead true 1 rfl hr,
    exec_missedRead upper idx rfl hr⟩

/-- Settles O24: none of the thirteen writes reaches a module, the identity write among them. -/
theorem registerWritesWithoutResponder : Obligations.RegisterWritesWithoutResponder := by
  intro s id upper idx w hr
  exact ⟨exec_missedWrite false 0 rfl hr, exec_missedWrite false 1 rfl hr, exec_missedWrite upper 2 rfl hr,
    exec_missedWrite upper 3 rfl hr, exec_missedWrite upper 4 rfl hr, exec_missedWrite upper 5 rfl hr,
    exec_missedWrite upper 6 rfl hr, exec_missedWrite upper 7 rfl hr, exec_missedWrite upper 8 rfl hr,
    exec_missedWrite upper 9 rfl hr, exec_missedWrite true 0 rfl hr, exec_missedWrite true 1 rfl hr,
    exec_missedWrite upper idx rfl hr⟩

/-- Settles O27: each plain register stores its own fields of the word, in every existing module. -/
theorem broadcastWritesReachEveryModule : Obligations.BroadcastWritesReachEveryModule := by
  intro s id upper w
  exact ⟨exec_broadcastPlain upper 2 .delay rfl rfl (by decide) (storeDelay_fields w),
    exec_broadcastPlain upper 3 .mode rfl rfl (by decide) (storeMode_fields rfl w),
    exec_broadcastPlain upper 5 .refRow rfl rfl (by decide) fun _ => rfl,
    exec_broadcastPlain upper 6 .rasInterval rfl rfl (by decide) (storeRas_fields w),
    exec_broadcastPlain upper 8 .addrSelect rfl rfl (by decide) (storeSwap_fields w),
    exec_broadcastPlain true 0 .row0 rfl rfl (by decide) (storeRow0_fields w),
    exec_broadcastPlain true 1 .row1 rfl rfl (by decide) (storeRow1_fields w)⟩

/-- Settles O33: `broadcast_identity` says what the single writes leave together, the responder invariant with it;
all existing modules then claim one ID, which settles the table. -/
theorem broadcastIdWriteLeavesModuleZero : Obligations.BroadcastIdWriteLeavesModuleZero := by
  intro s id w hI
  have hw := broadcast_identity w hI
  have hexec : exec (.rwDeviceId true id w) s = _ :=
    congrArg Host.Outcome.next (regWrite_broadcast Config.impl id false 1 w s)
  generalize (activeSlots s.expansion).foldl (fun u m => modWrite Config.impl m false 1 w u) s = u at hw hexec
  have hid : ∀ m, Active s m → (u.modAt m).deviceId = idDecode specLayout w &&& Config.impl.idMask :=
    fun m hm => (hw.identity m hm).2
  have hid0 := hid 0 (active_slot_zero s)
  have htable := hw.inv.responders.table_of_shared fun m hm => by
    rw [hid0, hid m (by rwa [Active, hw.expansion] at hm)]
  refine ⟨_, hexec, fun m hm => ⟨(hw.identity m hm).1, hid m hm, hw.registers m, hw.images m hm⟩, hw.inactive,
    htable, fun a hold hnew => hw.outside a hold ?_, hw.expansion, hw.status, hw.ri, hw.pending, rfl, ?_⟩
  · rwa [State.returns_modAt, State.emit_modAt, hid0] at hnew
  · rw [State.returns_trace, State.emit_trace, hw.trace]
    rfl

/-- Settles O43: RESET leaves a factory state, which satisfies the invariants. The identity write then keeps the
responder invariant, and module 1, still at ID 0, is the smallest claimant there. -/
theorem endToEndScenario : Obligations.EndToEndScenario := by
  intro s t w h
  obtain ⟨hexp, hmods, hlive, hresp⟩ := exec_reset_factory h
  have hmod : ∀ m, t.modAt m = factoryModule := modAt_factory hmods
  have hzero : t.responder 0 = some 0 := responder_zero_of_initial hresp
  refine ⟨hzero, fun _ _ => eq_zero_of_initial_entry hresp, fun m o => by rw [hmod]; rfl, fun hnew => ?_⟩
  obtain ⟨u, hexec, hR, -, hid0, -, hothers, -, -, hx, -⟩ :=
    idWriteMovesModuleWithoutDataLoss t 0 0 w (inv_of_factory hmods hlive hresp) hzero
  have hid1 : (u.modAt 1).deviceId = 0 := by
    rw [(hothers 1 (by decide)).deviceId, hmod]
    rfl
  have hactive : Active u 1 := by
    rw [Active, hx, hexp]
    decide
  have hone := hR.responder_one hactive (by rwa [hid0, hid1])
  rw [hid1] at hone
  exact ⟨u, hexec, hone, hid0 ▸ hR.responder_zero, hR.entry_iff_claims hR.responder_zero⟩

end Sys2Proof.Machine

/-! PROOFS. The RI registers: what each of the sixteen accesses answers and leaves, and that none of them sets a
status bit (43_ri_registers.md). -/

namespace Sys2Proof.Machine

section RiPort

variable {i : Instr} {w : Word} {s t : State}

/-! ### One rule per kind of access (R220) -/

/-- An RI read answers its register's packed word and leaves the hook event alone. -/
theorem exec_riRead (ridx : BitVec 3) {packed v : Word} (hi : exec i s = .next (riRead ridx packed s))
    (hv : packed = v) : exec i s = riReadDone s (ridx.setWidth 8) v := by
  subst hv
  exact hi

/-- An RI write whose rule changes the register file. -/
theorem exec_riStore (ridx : BitVec 3) {stored r : Ri}
    (hi : exec i s = .next (riWrite ridx w { s with ri := stored })) (hr : stored = r) :
    exec i s = riWriteDone s (ridx.setWidth 8) w r := by
  subst hr
  exact hi

/-- An RI write whose rule changes the status block. -/
theorem exec_riClear (ridx : BitVec 3) {st : Status}
    (hi : exec i s = .next (riWrite ridx w { s with status := st })) :
    exec i s = riClearDone s (ridx.setWidth 8) w st := hi

/-! ### The status block (R241) -/

/-- An RI access keeps the status block, or it is one of the two clears. -/
theorem riAccess_status (hi : isRiAccess i = true) (h : exec i s = .next t) :
    t.status = s.status ∨ t.status = clearErrors s.status ∨ t.status = clearBanks Config.impl s.status := by
  cases i with
  | rirMode | rirConfig | rirCurrentLoad | rirSelect | rirRefresh | rirLatency | rirError | rirBankStatus
  | riwMode | riwConfig | riwCurrentLoad | riwSelect | riwRefresh | riwLatency =>
    obtain rfl := Host.Outcome.next.inj h
    exact .inl rfl
  | riwError w =>
    obtain rfl := Host.Outcome.next.inj h
    exact .inr (.inl rfl)
  | riwBankStatus w =>
    obtain rfl := Host.Outcome.next.inj h
    exact .inr (.inr rfl)
  | _ => exact nomatch hi

/-- The bank-status write leaves no valid bit (R239). -/
theorem getLsbD_clearBanks_valid (c : Config) (st : Status) (b : Nat) :
    (clearBanks c st).valid.getLsbD b = false := BitVec.getLsbD_zero

end RiPort

/-! ### The statements -/

/-- Settles O46: the write rules of the two registers do not look at the word. -/
theorem writeToClearIgnoresData : Obligations.WriteToClearIgnoresData :=
  fun _ _ => ⟨exec_riClear 6 rfl, exec_riClear 7 rfl⟩

/-- Settles O45: each of the five registers stores its own fields of the word; current-load has none. -/
theorem riWritesStoreFields : Obligations.RiWritesStoreFields := by
  intro s w
  exact ⟨exec_riStore 0 rfl (storeRiMode_fields w s.ri),
    exec_riStore 1 rfl (storeRiConfig_fields w s.ri),
    exec_riStore 2 rfl rfl,
    exec_riStore 3 rfl (storeRiSelect_fields w s.ri),
    exec_riStore 4 rfl (storeRiRefresh_fields w s.ri),
    exec_riStore 5 rfl (storeRiLatency_fields w s.ri)⟩

/-- Settles O44: each register packs its fields at their positions, error and bank-status those of the status
block. -/
theorem riReadsReturnFields : Obligations.RiReadsReturnFields := by
  intro s
  exact ⟨exec_riRead 0 rfl (packRiMode_fields s.ri),
    exec_riRead 1 rfl (packRiConfig_fields s.ri),
    exec_riRead 2 rfl rfl,
    exec_riRead 3 rfl (packRiSelect_fields s.ri),
    exec_riRead 4 rfl (packRiRefresh_fields s.ri),
    exec_riRead 5 rfl (packRiLatency_fields s.ri),
    exec_riRead 6 rfl (packError_fields s.status),
    exec_riRead 7 rfl (packBankStatus_fields s.status)⟩

/-- Settles O18: of the two clears, the error write leaves no error bit, the bank-status write no valid bit and
the dirty bits at their clear value. -/
theorem riAccessesNeverSetStatus : Obligations.RiAccessesNeverSetStatus := by
  intro i s t hi h
  obtain hst | hst | hst := riAccess_status hi h <;> rw [hst]
  · exact ⟨id, id, id, fun _ => id, .inl rfl⟩
  · exact ⟨nofun, nofun, nofun, fun _ => id, .inl rfl⟩
  · refine ⟨id, id, id, fun b hb => ?_, .inr rfl⟩
    rw [getLsbD_clearBanks_valid] at hb
    exact nomatch hb

end Sys2Proof.Machine

/-! PROOFS. The memory port: what a single access and a burst of it answer and leave (44_memory_access.md). -/

namespace Sys2Proof.Machine

section MemoryPort

variable {i : Instr} {a : BitVec 32} {n : Nat} {tag : Tag} {s : State}

/-- The value handed to the host is no part of the bookkeeping. -/
theorem Booked.returns {c : Config} {dir : Dir} {a : Nat} {s t : State} (h : Booked c dir a s t) (d : ReadData) :
    Booked c dir a s (t.returns d) :=
  h.congr rfl (fun _ => rfl) rfl rfl rfl rfl

/-! ### Single accesses (R256, R257) -/

/-- A single read answers the bytes at the address, or the number 0, in the shape of the operation. -/
theorem loadOutcome_of_memRead {shape : Nat → ReadData} {data zero : ReadData}
    (hi : exec i s = memOp a n (returning (memRead Config.impl a.toNat n tag s) shape))
    (hspace : a.toNat < memSpaceBytes) (halign : a.toNat % n = 0)
    (hdata : shape (liveRead s.live a.toNat n) = data) (hzero : shape 0 = zero) :
    LoadOutcome (exec i s) a.toNat n tag s data zero := by
  obtain ⟨hbook, hlive, htrace, -, hmoved, hunmoved⟩ :=
    memRead_spec Config.impl Config.impl_layout hspace n tag s
  exact ⟨_, hi.trans (memOp_of_admitted hspace halign), hbook.returns _, hlive, htrace,
    fun hd => (congrArg shape (hmoved hd)).trans hdata, fun hd => (congrArg shape (hunmoved hd)).trans hzero⟩

/-- A single write of a buffer in canonical form leaves the bytes of its value at the address. -/
theorem storeOutcome_of_memWrite {v : Nat}
    (hi : exec i s = memOp a n ((memWrite Config.impl a.toNat n v tag s).returns .nothing))
    (hwf : s.live.wf) (hspace : a.toNat < memSpaceBytes) (halign : a.toNat % n = 0) :
    StoreOutcome (exec i s) a.toNat n v tag s := by
  obtain ⟨hbook, htrace, -, hmoved, hunmoved⟩ :=
    memWrite_spec Config.impl Config.impl_layout hspace n v tag s
  refine ⟨_, hi.trans (memOp_of_admitted hspace halign), hbook.returns _, rfl, htrace, fun hd x => ?_, hunmoved⟩
  rw [State.returns_live, hmoved hd, read_liveWrite hwf, Nat.pow_mul]

/-! ### Bursts (R260, R261) -/

/-- An aligned burst lies in one row of 2048 bytes, so all its words set the same latch to the same value. -/
theorem row_of_aligned_burst {a k : Nat} (hk : k = 4 ∨ k = 8) (halign : a % (4 * k) = 0) :
    (a + 4 * k - 1) / 2 ^ 11 = a / 2 ^ 11 := by
  obtain rfl | rfl := hk <;> omega

theorem burst_dvd_idSlotBytes {k : Nat} (hk : k = 4 ∨ k = 8) : 4 * k ∣ idSlotBytes := by
  obtain rfl | rfl := hk <;> decide

/-- An aligned burst whose data does not move as a whole moves none of its words. -/
theorem no_word_moves {a k : Nat} (hk : k = 4 ∨ k = 8) (halign : a % (4 * k) = 0) (hlive : a < liveBytes)
    (hd : ¬ DataMoves s a (4 * k)) : ∀ j < k, ¬ DataMoves s (a + 4 * j) 4 := fun _ hj hword =>
  hd (dataMoves_of_word (burst_dvd_idSlotBytes hk) halign hlive (by omega) (by omega) hword)

theorem memSpace_of_live {a : Nat} (h : a < liveBytes) : a < memSpaceBytes := h.trans (by decide)

/-- A burst read that starts inside the live buffer. -/
theorem burstLoadOutcome_of_burstRead {k : Nat} (hk : k = 4 ∨ k = 8)
    (hi : exec i s = memOp a (4 * k) (returning (burstRead Config.impl a.toNat k s) .words))
    (hlive : a.toNat < liveBytes) (halign : a.toNat % (4 * k) = 0) :
    BurstLoadOutcome (exec i s) a.toNat k s := by
  have hspace := memSpace_of_live hlive
  obtain ⟨hbook, hkept, htrace, hmoved, hunmoved⟩ :=
    burstWords_spec Config.impl Config.impl_layout a.toNat k a.toNat s hspace
      fun _ => ⟨rfl, row_of_aligned_burst hk halign⟩
  rw [burstRead, if_neg (not_le.2 hlive)] at hi
  exact ⟨_, hi.trans (memOp_of_admitted hspace halign), (hbook (by omega)).returns _, hkept, htrace,
    fun hd => congrArg ReadData.words (hmoved hd),
    fun hd => congrArg ReadData.words (hunmoved (no_word_moves hk halign hlive hd))⟩

/-- A burst write that starts inside the live buffer, which is in canonical form. -/
theorem burstStoreOutcome_of_burstWrite {ws : List Word} (hk : ws.length = 4 ∨ ws.length = 8)
    (hi : exec i s = memOp a (4 * ws.length) ((burstWrite Config.impl a.toNat ws s).returns .nothing))
    (hwf : s.live.wf) (hlive : a.toNat < liveBytes) (halign : a.toNat % (4 * ws.length) = 0) :
    BurstStoreOutcome (exec i s) a.toNat ws s := by
  have hspace := memSpace_of_live hlive
  have hws : ws ≠ [] := List.length_pos_iff.1 (by omega)
  obtain ⟨hbook, htrace, -, hmoved, hunmoved⟩ :=
    burstStores_spec Config.impl Config.impl_layout a.toNat ws a.toNat s hspace
      fun _ => ⟨rfl, row_of_aligned_burst hk halign⟩
  rw [burstWrite, if_neg (not_le.2 hlive)] at hi
  refine ⟨_, hi.trans (memOp_of_admitted hspace halign), (hbook hws).returns _, rfl, htrace, fun hd => ?_,
    fun hd => hunmoved (no_word_moves hk halign hlive hd)⟩
  rw [State.returns_live, hmoved hd]
  exact ⟨fun _ hj => wordAt_wordsWritten hwf hj, fun _ => read_wordsWritten_outside hwf⟩

/-- A burst read that starts beyond the live buffer answers zeros. -/
theorem exec_burstLoad_beyond {k : Nat}
    (hi : exec i s = memOp a (4 * k) (returning (burstRead Config.impl a.toNat k s) .words))
    (hlive : liveBytes ≤ a.toNat) (hspace : a.toNat < memSpaceBytes) (halign : a.toNat % (4 * k) = 0) :
    exec i s = .next { s with result := .words (List.replicate k 0) } := by
  rw [hi, memOp_of_admitted hspace halign, burstRead, if_pos hlive]
  rfl

/-- A burst write that starts beyond the live buffer stores nothing. -/
theorem exec_burstStore_beyond {ws : List Word}
    (hi : exec i s = memOp a n ((burstWrite Config.impl a.toNat ws s).returns .nothing))
    (hlive : liveBytes ≤ a.toNat) (hspace : a.toNat < memSpaceBytes) (halign : a.toNat % n = 0) :
    exec i s = .next { s with result := .nothing } := by
  rw [hi, memOp_of_admitted hspace halign, burstWrite, if_pos hlive]
  rfl

end MemoryPort

/-! ### The statements -/

/-- Settles O11: each width reads its bytes big-endian, and a byte is aligned everywhere. -/
theorem singleLoadsReturnBigEndianData : Obligations.SingleLoadsReturnBigEndianData := by
  intro s a tag hspace
  exact ⟨loadOutcome_of_memRead rfl hspace (Nat.mod_one _) (congrArg _ (ofNat_liveRead_one _ _)) rfl,
    fun halign => loadOutcome_of_memRead rfl hspace halign (congrArg _ (ofNat_liveRead_two _ _)) rfl,
    fun halign => loadOutcome_of_memRead rfl hspace halign (congrArg _ (ofNat_liveRead_four _ _)) rfl,
    fun halign => loadOutcome_of_memRead rfl hspace halign (congrArg _ (ofNat_liveRead_eight _ _)) rfl⟩

/-- Settles O12: the four widths are one rule, and a byte is aligned everywhere. -/
theorem singleStoresWriteBigEndianData : Obligations.SingleStoresWriteBigEndianData := by
  intro s a tag hwf hspace
  exact ⟨fun _ => storeOutcome_of_memWrite rfl hwf hspace (Nat.mod_one _),
    fun halign _ => storeOutcome_of_memWrite rfl hwf hspace halign,
    fun halign _ => storeOutcome_of_memWrite rfl hwf hspace halign,
    fun halign _ => storeOutcome_of_memWrite rfl hwf hspace halign⟩

/-- Settles O13: the words of an aligned burst share one slot and one row, so their bookkeeping is that of the
first. -/
theorem burstLoadsReturnWords : Obligations.BurstLoadsReturnWords := by
  intro s a hlive
  exact ⟨burstLoadOutcome_of_burstRead (.inl rfl) rfl hlive, burstLoadOutcome_of_burstRead (.inr rfl) rfl hlive⟩

/-- Settles O14: as for the burst reads, and no word of the list overwrites another. -/
theorem burstStoresWriteWords : Obligations.BurstStoresWriteWords := by
  intro s a hwf hlive
  exact ⟨fun halign _ _ _ _ => burstStoreOutcome_of_burstWrite (.inl rfl) rfl hwf hlive halign,
    fun halign _ _ _ _ _ _ _ _ => burstStoreOutcome_of_burstWrite (.inr rfl) rfl hwf hlive halign⟩

/-- Settles O15: such a burst is admitted and changes no field but the result. -/
theorem burstsBeyondLiveShortCircuit : Obligations.BurstsBeyondLiveShortCircuit := by
  intro s a hlive hspace
  exact ⟨exec_burstLoad_beyond (k := 4) rfl hlive hspace, exec_burstLoad_beyond (k := 8) rfl hlive hspace,
    fun halign _ _ _ _ => exec_burstStore_beyond rfl hlive hspace halign,
    fun halign _ _ _ _ _ _ _ _ => exec_burstStore_beyond rfl hlive hspace halign⟩

end Sys2Proof.Machine

/-! PROOFS. What every operation does, whatever the state (60_exceptions.md): a step is the operation it decodes
to, an admitted operation completes, and no operation reads the trace. -/

namespace Sys2Proof.Machine

/-! ### A step (R293) -/

theorem step_of_nil {s : State} (h : s.pending = []) : step s = .next s := by
  rw [step, h]

theorem step_of_decode_ok {s : State} {r : Request} {rest : List Request} {i : Instr}
    (h : s.pending = r :: rest) (hi : decode r = .ok i) : step s = exec i { s with pending := rest } := by
  simp only [step, h, hi]

theorem step_of_decode_error {s : State} {r : Request} {rest : List Request} {e : DecodeError}
    (h : s.pending = r :: rest) (he : decode r = .error e) : step s = .refused (.invalidCommandWord e) := by
  simp only [step, h, he]

/-- Settles O5: the three cases of a step. -/
theorem stepRunsDecodedOperation : Obligations.StepRunsDecodedOperation := fun _ =>
  ⟨step_of_nil, fun _ _ h => ⟨fun _ => step_of_decode_ok h, fun _ => step_of_decode_error h⟩⟩

/-! ### Completion (R280) -/

/-- An operation of the memory port is well formed where its address is admitted (44_memory_access.md R250). -/
theorem wellFormed_of_accessSpan {i : Instr} {a : BitVec 32} {n : Nat} (h : accessSpan i = some (a, n)) :
    wellFormed i = admittedAt a n := by
  cases i with
  | ldB | ldH | ldW | ldD | ldb4 | ldb8 | stB | stH | stW | stD | stb4 | stb8 =>
    cases h
    rfl
  | _ => exact nomatch h

/-- No operation but those of the memory port is ever refused, whatever its operands. -/
theorem exec_next_of_no_accessSpan {i : Instr} (h : accessSpan i = none) (s : State) :
    ∃ t, exec i s = .next t := by
  cases i with
  | ldB | ldH | ldW | ldD | ldb4 | ldb8 | stB | stH | stW | stD | stb4 | stb8 => exact nomatch h
  | _ => exact ⟨_, rfl⟩

/-- Settles O9: only admission can refuse, and a well-formed operation is admitted. -/
theorem everyAdmittedOperationCompletes : Obligations.EveryAdmittedOperationCompletes := by
  intro i s hw
  cases hspan : accessSpan i with
  | none => exact exec_next_of_no_accessSpan hspan s
  | some span =>
    obtain ⟨a, n⟩ := span
    obtain ⟨f, hf⟩ := exec_of_accessSpan hspan
    rw [wellFormed_of_accessSpan hspan, admittedAt, Bool.and_eq_true, decide_eq_true_eq, decide_eq_true_eq] at hw
    obtain ⟨hspace, halign⟩ := hw
    exact ⟨f s, (hf s).trans (memOp_of_admitted hspace halign)⟩

/-! ### The device-identity write (41_module_registers.md R161) -/

/-- An identity write of another effective ID stores the field and moves the module. -/
theorem writeDeviceId_of_new {c : Config} {m : Slot} {w : Word} {s : State}
    (h : ¬ idDecode c.layout w &&& c.idMask = (s.modAt m).deviceId) :
    writeDeviceId c m w s = moveModule c m (idDecode c.layout w &&& c.idMask)
      (s.setMod m { s.modAt m with idField := idDecode c.layout w }) := if_neg h

/-! ### Earlier events (R296)

Put earlier events before the trace of the state: every operation but RESET leaves what it left without them, the
same events before its trace. So it reads no event, and it only appends. -/

/-- The state s with the events p before its trace. -/
def State.precededBy (p : List Event) (s : State) : State := { s with trace := p ++ s.trace }

section Earlier

variable (p : List Event) (c : Config) (s : State)

@[simp] theorem modAt_precededBy (m : Slot) : (s.precededBy p).modAt m = s.modAt m := rfl

@[simp] theorem responder_precededBy (d : DevId) : (s.precededBy p).responder d = s.responder d := rfl

@[simp] theorem emit_precededBy (e : Event) : (s.precededBy p).emit e = (s.emit e).precededBy p := by
  simp only [State.emit, State.precededBy, List.append_assoc]

@[simp] theorem returns_precededBy (r : ReadData) :
    (s.precededBy p).returns r = (s.returns r).precededBy p := rfl

@[simp] theorem setMod_precededBy (m : Slot) (M : MemModule) :
    (s.precededBy p).setMod m M = (s.setMod m M).precededBy p := rfl

@[simp] theorem recordNoResponder_precededBy (k : AccessKind) (d : DevId) :
    recordNoResponder k d (s.precededBy p) = (recordNoResponder k d s).precededBy p :=
  emit_precededBy p { s with status := markAckErr s.status } _

@[simp] theorem hookMemIf_precededBy (tag : Tag) (e : Event) :
    hookMemIf tag e (s.precededBy p) = (hookMemIf tag e s).precededBy p := by
  unfold hookMemIf
  split_ifs
  · rfl
  · exact emit_precededBy p s e

/-! ### Arbitration -/

theorem claim_precededBy (m : Slot) : claim c m (s.precededBy p) = (claim c m s).precededBy p := rfl

theorem evicted_precededBy (m : Slot) : evicted c m (s.precededBy p) = (evicted c m s).precededBy p := by
  have hsaved : saveImage c m (s.precededBy p) = (saveImage c m s).precededBy p := by
    rw [saveImage_eq, saveImage_eq]
    rfl
  rw [evicted, hsaved]
  rfl

theorem unmapModule_precededBy (m : Slot) :
    unmapModule c m (s.precededBy p) = (unmapModule c m s).precededBy p := by
  rw [unmapModule_eq, unmapModule_eq, modAt_precededBy, responder_precededBy]
  split_ifs
  · exact evicted_precededBy p c s m
  · rfl

theorem mapModule_precededBy (m : Slot) : mapModule c m (s.precededBy p) = (mapModule c m s).precededBy p := by
  rw [mapModule_eq, mapModule_eq, modAt_precededBy, responder_precededBy]
  cases s.responder (s.modAt m).deviceId with
  | none => exact claim_precededBy p c s m
  | some r =>
    simp only []
    split_ifs
    · exact unmapModule_precededBy p c s r
    · rfl

/-! ### Register accesses -/

theorem moveModule_precededBy (m : Slot) (new : DevId) :
    moveModule c m new (s.precededBy p) = (moveModule c m new s).precededBy p := by
  simp only [moveModule, unmapModule_precededBy, modAt_precededBy, setMod_precededBy, mapModule_precededBy]

theorem writeDeviceId_precededBy (m : Slot) (w : Word) :
    writeDeviceId c m w (s.precededBy p) = (writeDeviceId c m w s).precededBy p := by
  by_cases hnew : idDecode c.layout w &&& c.idMask = (s.modAt m).deviceId
  · rw [writeDeviceId_of_same hnew, writeDeviceId_of_same (s := s.precededBy p) hnew]
    rfl
  · rw [writeDeviceId_of_new hnew, writeDeviceId_of_new (s := s.precededBy p) hnew, modAt_precededBy,
      setMod_precededBy, moveModule_precededBy]

theorem modWrite_precededBy (m : Slot) (upper : Bool) (idx : RegIdx) (w : Word) :
    modWrite c m upper idx w (s.precededBy p) = (modWrite c m upper idx w s).precededBy p := by
  by_cases hid : sel upper idx = .deviceId
  · rw [modWrite_of_identity hid, modWrite_of_identity hid]
    exact writeDeviceId_precededBy p c s m w
  · rw [modWrite_of_plain hid, modWrite_of_plain hid]
    rfl

theorem foldl_modWrite_precededBy (upper : Bool) (idx : RegIdx) (w : Word) (l : List Slot) :
    l.foldl (fun t m => modWrite c m upper idx w t) (s.precededBy p)
      = (l.foldl (fun t m => modWrite c m upper idx w t) s).precededBy p := by
  induction l generalizing s with
  | nil => rfl
  | cons x xs ih => rw [List.foldl_cons, modWrite_precededBy, ih, List.foldl_cons]

theorem regWrite_precededBy (bc : Bool) (id : DevId) (upper : Bool) (idx : RegIdx) (w : Word) :
    regWrite c bc id upper idx w (s.precededBy p) = (regWrite c bc id upper idx w s).precededBy p := by
  cases bc with
  | true =>
    have hall := foldl_modWrite_precededBy p c s upper idx w (activeSlots s.expansion)
    rw [regWrite_broadcast, regWrite_broadcast, ← returns_precededBy, ← emit_precededBy, ← hall]
    rfl
  | false =>
    cases hr : s.responder id with
    | none => simp only [regWrite_of_none hr, regWrite_of_none (s := s.precededBy p) hr,
        recordNoResponder_precededBy, emit_precededBy, returns_precededBy]
    | some r => simp only [regWrite_of_responder hr, regWrite_of_responder (s := s.precededBy p) hr,
        modWrite_precededBy, emit_precededBy, returns_precededBy]

theorem modRead_precededBy (m : Slot) (upper : Bool) (idx : RegIdx) (gate : Bool) :
    modRead c m upper idx gate (s.precededBy p)
      = ((modRead c m upper idx gate s).1.precededBy p, (modRead c m upper idx gate s).2) := by
  unfold modRead
  split_ifs
  · simp only [recordGateClosed, emit_precededBy]
  · rfl

theorem regRead_precededBy (id : DevId) (upper : Bool) (idx : RegIdx) (gate : Bool) :
    regRead c id upper idx gate (s.precededBy p) = (regRead c id upper idx gate s).precededBy p := by
  cases hr : s.responder id with
  | none => simp only [regRead_of_none hr, regRead_of_none (s := s.precededBy p) hr,
      recordNoResponder_precededBy, emit_precededBy, returns_precededBy]
  | some r => simp only [regRead_of_responder hr, regRead_of_responder (s := s.precededBy p) hr,
      modRead_precededBy, emit_precededBy, returns_precededBy]

theorem riRead_precededBy (ridx : BitVec 3) (v : Word) :
    riRead ridx v (s.precededBy p) = (riRead ridx v s).precededBy p := by
  simp only [riRead, emit_precededBy, returns_precededBy]

theorem riWrite_precededBy (ridx : BitVec 3) (w : Word) :
    riWrite ridx w (s.precededBy p) = (riWrite ridx w s).precededBy p := by
  simp only [riWrite, emit_precededBy, returns_precededBy]

/-! ### Memory accesses -/

theorem book_precededBy (a : Nat) (dir : Dir) : book c a dir (s.precededBy p) = (book c a dir s).precededBy p := by
  simp only [book, responder_precededBy]
  cases s.responder (memId c.layout a) with
  | none => exact recordNoResponder_precededBy p { s with status := markBank (bank c.layout a) dir s.status } _ _
  | some r => rfl

theorem memRead_precededBy (a n : Nat) (tag : Tag) :
    memRead c a n tag (s.precededBy p) = ((memRead c a n tag s).1.precededBy p, (memRead c a n tag s).2) := by
  simp only [memRead, book_precededBy, hookMemIf_precededBy]
  rfl

theorem memWrite_precededBy (a n v : Nat) (tag : Tag) :
    memWrite c a n v tag (s.precededBy p) = (memWrite c a n v tag s).precededBy p := by
  have htransfers : transfers c (s.precededBy p) a n = transfers c s a n := rfl
  simp only [memWrite, book_precededBy, htransfers, ← hookMemIf_precededBy]
  split_ifs <;> rfl

theorem burstWords_precededBy (a k : Nat) :
    burstWords c a k (s.precededBy p) = ((burstWords c a k s).1.precededBy p, (burstWords c a k s).2) := by
  induction k generalizing a s with
  | zero => rfl
  | succ k ih => simp only [burstWords, memRead_precededBy, ih]

theorem burstRead_precededBy (a k : Nat) :
    burstRead c a k (s.precededBy p) = ((burstRead c a k s).1.precededBy p, (burstRead c a k s).2) := by
  unfold burstRead
  split_ifs
  · rfl
  · exact burstWords_precededBy p c s a k

theorem burstStores_precededBy (a : Nat) (ws : List Word) :
    burstStores c a ws (s.precededBy p) = (burstStores c a ws s).precededBy p := by
  induction ws generalizing a s with
  | nil => rfl
  | cons w rest ih => simp only [burstStores, memWrite_precededBy, ih]

theorem burstWrite_precededBy (a : Nat) (ws : List Word) :
    burstWrite c a ws (s.precededBy p) = (burstWrite c a ws s).precededBy p := by
  unfold burstWrite
  split_ifs
  · rfl
  · exact burstStores_precededBy p c s a ws

/-! ### Whole operations -/

/-- Earlier events pass through every operation but RESET. -/
theorem Meaning.precededBy {i : Instr} {f : State → State} (hf : Meaning i f) (hi : isReset i = false) :
    f (s.precededBy p) = (f s).precededBy p := by
  cases hf with
  | load a n tag shape => simp only [returning, memRead_precededBy, returns_precededBy]
  | burstLoad a k => simp only [returning, burstRead_precededBy, returns_precededBy]
  | store a n v tag => simp only [memWrite_precededBy, returns_precededBy]
  | burstStore a ws => simp only [burstWrite_precededBy, returns_precededBy]
  | regRead id upper idx gate => exact regRead_precededBy p _ s id upper idx gate
  | regWrite bc id upper idx w => exact regWrite_precededBy p _ s bc id upper idx w
  | riRead ridx v => exact riRead_precededBy p s ridx _
  | riStore ridx w g => exact riWrite_precededBy p { s with ri := g s.ri } ridx w
  | errorClear w => exact riWrite_precededBy p { s with status := clearErrors s.status } 6 w
  | bankClear w => exact riWrite_precededBy p { s with status := clearBanks Config.impl s.status } 7 w
  | reset exp h => exact absurd (h.symm.trans hi) (by decide)

end Earlier

/-- What an operation but RESET leaves is what it leaves of the same state with an empty trace, the old trace put
before the new events. -/
theorem Meaning.eq_precededBy {i : Instr} {f : State → State} (hf : Meaning i f) (hi : isReset i = false)
    (s : State) (l : List Event) : f { s with trace := l } = (f { s with trace := [] }).precededBy l := by
  rw [← hf.precededBy l _ hi]
  simp only [State.precededBy, List.append_nil]

/-- The trace has no part in what an operation but RESET leaves, and the events it appends do not depend on it. -/
theorem traceIsOutputOnly_of_not_reset {i : Instr} (hi : isReset i = false) (s : State) (l : List Event) :
    SameOutcome (fun t => { t with trace := [] }) (exec i s) (exec i { s with trace := l }) ∧
    ∀ t u, exec i s = .next t → exec i { s with trace := l } = .next u →
      ∃ e, t.trace = s.trace ++ e ∧ u.trace = l ++ e := by
  obtain ⟨r, hr⟩ | ⟨f, hf, he⟩ := exec_hasMeaning i
  · rw [hr, hr]
    exact ⟨rfl, fun t u ht _ => nomatch ht⟩
  · have hs : f s = (f { s with trace := [] }).precededBy s.trace := hf.eq_precededBy hi s s.trace
    have hl := hf.eq_precededBy hi s l
    rw [he, he, hs, hl]
    refine ⟨rfl, fun t u ht hu => ⟨(f { s with trace := [] }).trace, ?_, ?_⟩⟩
    · rw [← Host.Outcome.next.inj ht]
      rfl
    · rw [← Host.Outcome.next.inj hu]
      rfl

/-- RESET leaves the same state whatever the trace was, and an empty trace (70_reset_and_hazards.md R310). -/
theorem resetBlock_setTrace (c : Config) (exp : Bool) (s : State) (l : List Event) :
    resetBlock c exp { s with trace := l } = resetBlock c exp s := by
  rw [resetBlock_eq, resetBlock_eq]

theorem exists_of_isReset {i : Instr} (h : isReset i = true) : ∃ exp, i = .reset exp := by
  cases i with
  | reset exp => exact ⟨exp, rfl⟩
  | _ => exact nomatch h

/-- Settles O7: an operation but RESET carries the trace along unread, and RESET drops it. -/
theorem traceIsOutputOnly : Obligations.TraceIsOutputOnly := by
  intro i s l
  cases hi : isReset i with
  | false =>
    obtain ⟨hsame, happends⟩ := traceIsOutputOnly_of_not_reset hi s l
    exact ⟨hsame, fun t u ht hu => ⟨fun _ => happends t u ht hu, nofun⟩⟩
  | true =>
    obtain ⟨exp, rfl⟩ := exists_of_isReset hi
    have he : ∀ v, exec (.reset exp) v = .next (resetBlock Config.impl exp v) := fun _ => rfl
    rw [he, he, resetBlock_setTrace _ exp s l]
    refine ⟨rfl, fun t u ht hu => ⟨nofun, fun _ => ⟨?_, ?_⟩⟩⟩
    · rw [← Host.Outcome.next.inj ht]
      rfl
    · rw [← Host.Outcome.next.inj hu]
      rfl

end Sys2Proof.Machine

/-! PROOFS. RESET and EXPANSION_PRESENT (70_reset_and_hazards.md). -/

namespace Sys2Proof.Machine

/-- RESET is never refused, and it is `resetBlock` (R310). -/
theorem exec_reset (exp : Bool) (s : State) : exec (.reset exp) s = .next (resetBlock Config.impl exp s) := rfl

/-- Settles O48: the first initial map gives module 0 the low range, and the other maps find it there and yield
(`resetBlock_eq`). -/
theorem resetRestoresEveryField : Obligations.ResetRestoresEveryField := by
  intro s exp
  rw [exec_reset, resetBlock_eq]

/-- A register write, broadcast or not, leaves the number of modules as it is. -/
theorem regWrite_expansion (c : Config) (bc : Bool) (id : DevId) (upper : Bool) (idx : RegIdx) (w : Word)
    (s : State) : (regWrite c bc id upper idx w s).expansion = s.expansion := by
  refine regWrite_keeps (P := fun t => t.expansion = s.expansion) ?_ ?_ bc id rfl
  · exact fun t u ht h => h.expansion.trans ht
  · exact fun t m ht _ => (modWrite_frame c m upper idx w t).1.trans ht

/-- Every operation but RESET leaves EXPANSION_PRESENT as RESET sampled it (R312). -/
theorem exec_expansion {i : Instr} {s t : State} (h : exec i s = .next t) (hi : isReset i = false) :
    t.expansion = s.expansion := by
  cases exec_change h with
  | accessed ha => exact ha.expansion
  | regWrite bc id upper idx w => exact regWrite_expansion _ bc id upper idx w s
  | errorClear w => exact (undisturbed_riWrite 6 w s.ri _ s).expansion
  | bankClear w => exact (undisturbed_riWrite 7 w s.ri _ s).expansion
  | reset exp hr => exact absurd (hr.symm.trans hi) (by decide)

/-- Settles O50: of the changes an operation can make, only RESET touches the field, and it stores its operand. -/
theorem expansionSampledByResetOnly : Obligations.ExpansionSampledByResetOnly := by
  refine ⟨fun i s t h hi => exec_expansion h hi, fun s t exp h => ?_⟩
  obtain ⟨hexp, -, -, -⟩ := exec_reset_factory h
  exact hexp

end Sys2Proof.Machine
